-- ==== Sys2Proof/Word.lean ====
section
/-! DEFINITION. The two value types of the block: Words and Bytes. -/

namespace Sys2Proof

/-- A Word is an unsigned 32-bit integer (00_scope.md R8, R13); `+`, `-`, `*` on it wrap modulo 2^32 (R9). -/
abbrev Word := BitVec 32

/-- A cell of `B` or `T` (10_state.md R36, R37). -/
abbrev Byte := BitVec 8

end Sys2Proof
end

