-- ==== Sys2Proof/Syntax.lean ====
section
/-! DEFINITION. The command set XC1: one constructor per row of spec/opcode_table.json (30_encoding.md R91).  No
command has an operand (R92). -/

namespace Sys2Proof

/-- The eleven commands of 30_encoding.md R91. -/
inductive Instr where
  /-- `NOP` (44_system_commands.md R190). -/
  | nop
  /-- `CLR` (44_system_commands.md R191). -/
  | clr
  /-- `PACK` (40_block_packer.md R112). -/
  | pack
  /-- `UNPACK` (40_block_packer.md R114). -/
  | unpack
  /-- `KEYNORM` (41_key_normalizer.md R131). -/
  | keynorm
  /-- `SER` (40_block_packer.md R116). -/
  | ser
  /-- `DESER` (40_block_packer.md R118). -/
  | deser
  /-- `XENC` (42_mixing_engine.md R148). -/
  | xenc
  /-- `XDEC` (42_mixing_engine.md R149). -/
  | xdec
  /-- `B64E` (43_base64_codec.md R174). -/
  | b64e
  /-- `B64D` (43_base64_codec.md R178). -/
  | b64d
  deriving DecidableEq, Repr

end Sys2Proof
end

