-- ==== Sys2Proof/Decode.lean ====
section
/-! DEFINITION. Decoding of a command word (30_encoding.md R90, R91, R93) and the encoder.  A command word is the value
of one host write to `CMD`, never a byte sequence in memory (20_memory.md R78), so the decoder reads a Word; it is total
and rejects by name. -/

namespace Sys2Proof

/-- Why a word is no command word: the two cases of 30_encoding.md R93. -/
inductive DecodeReject where
  /-- `w[31:8] ≠ 0`. -/
  | zeroFieldNonzero
  /-- `w[31:8] = 0` and the opcode is none of the eleven. -/
  | opcodeUnassigned
  deriving DecidableEq, Repr

/-- Bits 7:0 of a command word (30_encoding.md R90). -/
def opcodeField (w : Word) : BitVec 8 := w.extractLsb' 0 8

/-- Bits 31:8 of a command word, reserved, must be 0 (30_encoding.md R90). -/
def zeroField (w : Word) : BitVec 24 := w.extractLsb' 8 24

/-- The opcode map (30_encoding.md R91). -/
def decodeOpcode (op : BitVec 8) : Except DecodeReject Instr :=
  if op = 0x00#8 then .ok .nop
  else if op = 0x01#8 then .ok .clr
  else if op = 0x10#8 then .ok .pack
  else if op = 0x11#8 then .ok .unpack
  else if op = 0x12#8 then .ok .keynorm
  else if op = 0x13#8 then .ok .ser
  else if op = 0x14#8 then .ok .deser
  else if op = 0x20#8 then .ok .xenc
  else if op = 0x21#8 then .ok .xdec
  else if op = 0x30#8 then .ok .b64e
  else if op = 0x31#8 then .ok .b64d
  else .error .opcodeUnassigned

/-- The command a word encodes, or why it is illegal (30_encoding.md R91, R93). -/
def decode (w : Word) : Except DecodeReject Instr :=
  if zeroField w = 0 then decodeOpcode (opcodeField w) else .error .zeroFieldNonzero

/-- The command word of each command (30_encoding.md R91, column "command word"). -/
def encode : Instr → Word
  | .nop => 0x00000000#32
  | .clr => 0x00000001#32
  | .pack => 0x00000010#32
  | .unpack => 0x00000011#32
  | .keynorm => 0x00000012#32
  | .ser => 0x00000013#32
  | .deser => 0x00000014#32
  | .xenc => 0x00000020#32
  | .xdec => 0x00000021#32
  | .b64e => 0x00000030#32
  | .b64d => 0x00000031#32

/-- The command word whose low `nbits` bits are `w`, numbered as spec/opcode_table.json numbers them; every bit above
`nbits` is 0. -/
def tableWord (nbits w : Nat) : Word := BitVec.ofNat 32 (w % 2 ^ nbits)

/-- The command the decoder reads from a table row's bits; a command has 32 bits (30_encoding.md R90). -/
def decodeTableWord (nbits w : Nat) : Option Instr :=
  if nbits ≤ 32 then
    match decode (tableWord nbits w) with
    | .ok i => some i
    | .error _ => none
  else none

end Sys2Proof
end

