-- ==== Sys2Proof/Config.lean ====
section
/-! DEFINITION. The constants D00 fixes (00_scope.md R5), the constant register ID (10_state.md R26) and the
capacities an implementation fixes (00_scope.md R7).  The spec leaves no value free (93_implementation_defined.md
part 1), so there is no opaque constant here. -/

namespace Sys2Proof.Config

/-- The sentinel `PAD_BYTE` (00_scope.md R5). -/
def padByte : Byte := 0x03#8

/-- The round constant `DELTA` (00_scope.md R5). -/
def delta : Word := 0x9E3779B9#32

/-- `ROUNDS_NUM`, the dividend of the round count (00_scope.md R5). -/
def roundsNum : Nat := 52

/-- The padding symbol `B64_PAD`, ASCII `=` (00_scope.md R5). -/
def b64Pad : Byte := 0x3D#8

/-- The constant the register `ID` reads as (10_state.md R26). -/
def idValue : Word := 0x58585407#32

/-- The parameters of one instance: `NMAX`, the capacity of `V` in words, fixes the other two (00_scope.md R7). -/
structure Params where
  nmax : Nat
  deriving DecidableEq, Repr

/-- `BMAX = 4 * NMAX`, the capacity of `B` in bytes (00_scope.md R7). -/
def Params.bmax (p : Params) : Nat := 4 * p.nmax

/-- `TMAX = 4 * ceil(BMAX / 3)`, the capacity of `T` in symbols (00_scope.md R7, `ceil` by R9). -/
def Params.tmax (p : Params) : Nat := 4 * ((p.bmax + 2) / 3)

/-- The default, `NMAX = 256` (00_scope.md R7). -/
def Params.default : Params := { nmax := 256 }

end Sys2Proof.Config
end

