-- ==== Sys2Proof/Machine/State.lean ====
section
/-! DEFINITION. The state of the machine: the block's registers and memories (10_state.md), the host's side of the
window, the state after reset, and the reasons a step can stop. -/

namespace Sys2Proof.Machine

/-- One of the block's memories `V` (cells of 32 bits), `B` or `T` (cells of 8 bits; then an entry is a `Host.Cell`),
each with its own index (20_memory.md R60): the cells whose value is not 0, as (index, value) pairs with rising
indices.  An index that is not listed reads as 0, the value every cell has at reset (10_state.md R41).  The canonical
form is `Memory.wf` (Machine/Ops.lean). -/
abbrev Memory (width : Nat) := List (Nat × BitVec width)

/-- The key file `K[0..3]`: four registers of 32 bits (10_state.md R22). -/
structure Key where
  k0 : Word
  k1 : Word
  k2 : Word
  k3 : Word
  deriving DecidableEq, Repr

/-- The two base64 alphabets `CFG.ALPH` selects (10_state.md R27, 43_base64_codec.md R170). -/
inductive Alphabet where
  /-- `ALPH = 0`: `+` and `/`. -/
  | standard
  /-- `ALPH = 1`: `-` and `_`. -/
  | urlSafe
  deriving DecidableEq, Repr

/-- `CFG`, as its three fields; bits 31:10 are not stored (10_state.md R27). -/
structure Cfg where
  /-- Bits 7:0, the additive constant of the round count. -/
  roundsBase : BitVec 8
  /-- Bit 8. -/
  alph : Alphabet
  /-- Bit 9: `KEYNORM` raises `EmptyKey` on an all-zero normalized key. -/
  keychk : Bool
  deriving DecidableEq, Repr

/-- `STATUS`, as its two fields; bits 31:2 are not stored (10_state.md R30). -/
structure Status where
  /-- Bit 0: the block is FAULTED. -/
  err : Bool
  /-- Bit 1: 0 decode-format error, 1 input-precondition error. -/
  eclass : Bool
  deriving DecidableEq, Repr

/-- One `XXTEA_CORE` instance: its parameters and the complete state of 10_state.md R20. -/
structure Block where
  /-- The capacities (00_scope.md R7): fixed for an instance, no access or command writes them. -/
  params : Config.Params
  /-- `K[0..3]` (R22). -/
  k : Key
  /-- `V` (R35). -/
  v : Memory 32
  /-- `N`, the number of valid words in `V` (R23). -/
  n : Word
  /-- `B` (R36). -/
  b : Memory 8
  /-- `BLEN`, the number of valid bytes in `B` (R23). -/
  blen : Word
  /-- `T` (R37). -/
  t : Memory 8
  /-- `TLEN`, the number of valid symbols in `T` (R23). -/
  tlen : Word
  /-- `CFG` (R27). -/
  cfg : Cfg
  /-- `STATUS` (R30). -/
  status : Status
  /-- `ERRCODE` bits 3:0; bits 31:4 read as 0 (R31). -/
  errCode : BitVec 4
  /-- `ERRINFO` (R32). -/
  errInfo : Word
  /-- `ERRCMD` (R33). -/
  errCmd : Word
  deriving DecidableEq, Repr

/-- What can reach the block from outside: the transitions of 20_memory.md R75.  Offsets are byte offsets in the
window (R66).  An access carries its width in bytes so that the accesses R64 leaves outside the interface can be
written down and refused. -/
inductive HostAccess where
  /-- `MemRead(off, bytes)`. -/
  | read (off bytes : Nat)
  /-- `MemWrite(off, bytes, v)`. -/
  | write (off bytes : Nat) (v : Word)
  /-- The reset event (70_reset_and_hazards.md R250). -/
  | reset
  deriving DecidableEq, Repr

/-- The machine: the block and the host's side of its window. -/
structure State where
  block : Block
  /-- DESIGN CHOICE (log 1, safe): the host's accesses still to come, oldest first; the "program" of 10_state.md R21,
  which lives in the host. -/
  pending : List HostAccess
  /-- DESIGN CHOICE (log 2, safe): the values the host's reads have returned, newest first (20_memory.md R68). -/
  returned : List Word
  deriving DecidableEq, Repr

/-- DEDUCED (log 18, safe): nothing stops this machine.  A fault of the block is a next state (60_exceptions.md R228,
R238), a host access cannot fault (R235) and every command terminates (70_reset_and_hazards.md R264), so no reason is
listed. -/
inductive Fault where
  deriving DecidableEq, Repr

/-- Why a step has no meaning. -/
inductive Refusal where
  /-- Raised by an arm of `exec` for a command that has no meaning yet; no arm raises it (safe). -/
  | notModelled (mnemonic : String)
  /-- Raised by the step on a host access that is not 32 bits wide (20_memory.md R64; safe). -/
  | accessWidth
  /-- Raised by the step on a host access at an offset that is not a multiple of 4 (20_memory.md R64; safe). -/
  | accessAlignment
  /-- Raised by the step on a host access outside `0x0000..0xFFFC` (20_memory.md R68, R69; U9; safe). -/
  | accessWindow
  deriving DecidableEq, Repr

/-- The key of four zero words, as reset and `CLR` leave it (10_state.md R41, 44_system_commands.md R191). -/
def Key.zero : Key := { k0 := 0, k1 := 0, k2 := 0, k3 := 0 }

/-- `CFG` after reset: `ROUNDS_BASE = 6`, `ALPH = 0`, `KEYCHK = 1` (10_state.md R27, R41). -/
def Cfg.reset : Cfg := { roundsBase := 6, alph := .standard, keychk := true }

/-- `STATUS` when the block is READY, as reset and the acknowledge leave it (10_state.md R30, R41). -/
def Status.ready : Status := { err := false, eclass := false }

/-- The state of 10_state.md R41 of an instance with the given parameters. -/
def Block.reset (p : Config.Params) : Block :=
  { params := p, k := Key.zero, v := [], n := 0, b := [], blen := 0, t := [], tlen := 0, cfg := Cfg.reset,
    status := Status.ready, errCode := 0, errInfo := 0, errCmd := 0 }

/-- The machine right after reset: the state of 10_state.md R41 with the default parameters (00_scope.md R7; log 5),
and a host that has issued nothing yet (log 1, 2). -/
def State.reset : State := { block := Block.reset Config.Params.default, pending := [], returned := [] }

end Sys2Proof.Machine
end

