-- ==== Sys2Proof/Machine/Flags.lean ====
section
/-! DEFINITION. The two status flags (10_state.md R25): which cause sets them, and what the fault registers record. -/

namespace Sys2Proof.Machine

/-- The seven faults of the block (60_exceptions.md R220). -/
inductive Cause where
  /-- Raised by `B64D` (R221). -/
  | invalidLength
  /-- Raised by `B64D` (R222). -/
  | invalidPadding
  /-- Raised by `B64D` (R223). -/
  | invalidCharacter
  /-- Raised by `KEYNORM` (R224). -/
  | emptyKey
  /-- Raised when a result would be longer than its destination; under 00_scope.md R7 only by `B64D` (R225). -/
  | capacity
  /-- Raised by a write to `CMD` of a word that is no command word (R226). -/
  | illegalCommand
  /-- Raised by `DESER` (R227). -/
  | wordLength
  deriving DecidableEq, Repr

/-- `ERRCODE` of a cause (60_exceptions.md R220). -/
def Cause.code : Cause → BitVec 4
  | .invalidLength => 1
  | .invalidPadding => 2
  | .invalidCharacter => 3
  | .emptyKey => 4
  | .capacity => 5
  | .illegalCommand => 6
  | .wordLength => 7

/-- `ECLASS` of a cause: false decode-format, true input-precondition (60_exceptions.md R230). -/
def Cause.eclass : Cause → Bool
  | .invalidLength => false
  | .invalidPadding => false
  | .invalidCharacter => false
  | .emptyKey => true
  | .capacity => true
  | .illegalCommand => true
  | .wordLength => false

/-- The cause an `ERRCODE` names; codes 0 and 8 to 15 name none (60_exceptions.md R220). -/
def Cause.ofCode (code : BitVec 4) : Option Cause :=
  if code = 1 then some .invalidLength
  else if code = 2 then some .invalidPadding
  else if code = 3 then some .invalidCharacter
  else if code = 4 then some .emptyKey
  else if code = 5 then some .capacity
  else if code = 6 then some .illegalCommand
  else if code = 7 then some .wordLength
  else none

/-- `STATUS` after a fault of this cause (60_exceptions.md R228). -/
def Status.faulted (c : Cause) : Status := { err := true, eclass := c.eclass }

/-- What a host reads from `STATUS` (10_state.md R30): `ERR` in bit 0, `ECLASS` in bit 1, the rest 0. -/
def Status.word (s : Status) : Word := (BitVec.ofBool s.eclass ++ BitVec.ofBool s.err).setWidth 32

end Sys2Proof.Machine
end

