-- ==== Sys2Proof/WellFormed.lean ====
section
/-! DEFINITION. What is well formed: every command (it has no operand that could be wrong), and the parameters of an
instance within the limits of 00_scope.md R7.  The check on a host access is `Machine.accessRefusal`
(Machine/Window.lean). -/

namespace Sys2Proof

/-- No command has an operand or an immediate (30_encoding.md R92), so there is nothing to refuse. -/
def Instr.wellFormed : Instr → Bool
  | .nop => true
  | .clr => true
  | .pack => true
  | .unpack => true
  | .keynorm => true
  | .ser => true
  | .deser => true
  | .xenc => true
  | .xdec => true
  | .b64e => true
  | .b64d => true

/-- The constraint `2 ≤ NMAX ≤ 1024` (00_scope.md R7). -/
def Config.Params.wellFormed (p : Config.Params) : Bool := decide (2 ≤ p.nmax) && decide (p.nmax ≤ 1024)

end Sys2Proof
end

