-- ==== Sys2Proof/Machine/Ops.lean ====
section
/-! DEFINITION. The named operations over the memories and registers of the block, fault entry and the acknowledge, and
the frame every command runs in. -/

namespace Sys2Proof.Machine

/-! ### Memories -/

/-- What a cell that is not listed reads as: the reset value of every cell (10_state.md R41). -/
def Memory.unlisted (width : Nat) : BitVec width := 0

/-- The canonical form above an index: rising indices from `lo` on and below the capacity, no listed value equal to what
an unlisted cell reads as. -/
def Memory.wfFrom {width : Nat} (cap lo : Nat) : Memory width → Bool
  | [] => true
  | (i, x) :: m => decide (lo ≤ i) && decide (i < cap) && decide (x ≠ Memory.unlisted width) && wfFrom cap (i + 1) m

/-- The canonical form of a memory of `cap` cells: equal memories are equal lists. -/
def Memory.wf {width : Nat} (cap : Nat) (m : Memory width) : Bool := Memory.wfFrom cap 0 m

/-- Read of cell `i` (00_scope.md R11). -/
def Memory.read {width : Nat} : Memory width → Nat → BitVec width
  | [], _ => Memory.unlisted width
  | (j, x) :: m, i => if i = j then x else Memory.read m i

/-- `x` put in front of a memory whose indices are above `i`, unless it is what an unlisted cell reads as. -/
def Memory.consCell {width : Nat} (i : Nat) (x : BitVec width) (m : Memory width) : Memory width :=
  if x = Memory.unlisted width then m else (i, x) :: m

/-- Write of cell `i` (00_scope.md R11), keeping the canonical form. -/
def Memory.write {width : Nat} : Memory width → Nat → BitVec width → Memory width
  | [], i, x => Memory.consCell i x []
  | (j, y) :: m, i, x =>
    if i < j then Memory.consCell i x ((j, y) :: m)
    else if i = j then Memory.consCell i x m
    else (j, y) :: Memory.write m i x

/-- `X[lo + i] <- xs[i]` for `i` from 0 to `len(xs) - 1`: how a command writes its destination. -/
def Memory.fill {width : Nat} : Memory width → Nat → List (BitVec width) → Memory width
  | m, _, [] => m
  | m, lo, x :: xs => Memory.fill (Memory.write m lo x) (lo + 1) xs

/-- The sub-sequence `X[0..len)` (00_scope.md R10): how a command reads its source. -/
def Memory.take {width : Nat} (m : Memory width) (len : Nat) : List (BitVec width) := (List.range len).map m.read

/-! ### Faults -/

/-- Fault entry (60_exceptions.md R228): `raise Fault(cause, info)` in the command word `cmd`. -/
def raiseFault (cause : Cause) (info : Word) (cmd : Word) (b : Block) : Block :=
  { b with status := Status.faulted cause, errCode := cause.code, errInfo := info, errCmd := cmd }

/-- Fault return, the acknowledge `ack` (60_exceptions.md R234). -/
def ackFault (b : Block) : Block :=
  { b with status := Status.ready, errCode := 0, errInfo := 0, errCmd := 0 }

/-- A command's effect on the block, and the drop rule: while `STATUS.ERR = 1` a command changes no state whatever
(60_exceptions.md R233, R240; log 12).  A command is one atomic transition that always completes (00_scope.md R12,
70_reset_and_hazards.md R264). -/
def whenReady (s : State) (effect : Block → Block) : Host.Outcome State Fault Refusal :=
  if s.block.status.err then .next s else .next { s with block := effect s.block }

/-! ### Destinations

A command writes the cells below its destination's new length and that length, and nothing else (10_state.md R38).  It
never writes a cell at or above a capacity: a result that does not fit raises `Capacity` with the length it would need
(60_exceptions.md R225; log 6). -/

/-- `V[0..len(w)) <- w`, `N <- len(w)`, by the command word `cmd`. -/
def storeWords (cmd : Word) (w : List Word) (b : Block) : Block :=
  if b.params.nmax < w.length then raiseFault .capacity (BitVec.ofNat 32 w.length) cmd b
  else { b with v := b.v.fill 0 w, n := BitVec.ofNat 32 w.length }

/-- `B[0..len(x)) <- x`, `BLEN <- len(x)`, by the command word `cmd`. -/
def storeBytes (cmd : Word) (x : List Byte) (b : Block) : Block :=
  if b.params.bmax < x.length then raiseFault .capacity (BitVec.ofNat 32 x.length) cmd b
  else { b with b := b.b.fill 0 x, blen := BitVec.ofNat 32 x.length }

/-- `T[0..len(x)) <- x`, `TLEN <- len(x)`, by the command word `cmd`. -/
def storeText (cmd : Word) (x : List Byte) (b : Block) : Block :=
  if b.params.tmax < x.length then raiseFault .capacity (BitVec.ofNat 32 x.length) cmd b
  else { b with t := b.t.fill 0 x, tlen := BitVec.ofNat 32 x.length }

end Sys2Proof.Machine
end

