-- ==== Sys2Proof/Machine/Operands.lean ====
section
/-! DEFINITION. The operands of the commands: the source buffers below their length registers (10_state.md R38, R44),
the key words, and the byte order between `B` and `V` (20_memory.md R61). -/

namespace Sys2Proof.Machine

/-- The source `V[0..N)`. -/
def Block.words (b : Block) : List Word := b.v.take b.n.toNat

/-- The source `B[0..BLEN)`. -/
def Block.bytes (b : Block) : List Byte := b.b.take b.blen.toNat

/-- The source `T[0..TLEN)`. -/
def Block.text (b : Block) : List Byte := b.t.take b.tlen.toNat

/-- `K[i]` (10_state.md R22). -/
def Key.word (k : Key) (i : BitVec 2) : Word :=
  if i = 0 then k.k0 else if i = 1 then k.k1 else if i = 2 then k.k2 else k.k3

/-- The word of four bytes, lowest index least significant (20_memory.md R61):
`b0 | (b1 << 8) | (b2 << 16) | (b3 << 24)`. -/
def wordOfBytes (b0 b1 b2 b3 : Byte) : Word :=
  b0.setWidth 32 ||| b1.setWidth 32 <<< 8 ||| b2.setWidth 32 <<< 16 ||| b3.setWidth 32 <<< 24

/-- Byte `j` of a word, `(w >> (8*j)) & 0xFF` (20_memory.md R61). -/
def byteOfWord (w : Word) (j : Nat) : Byte := (w >>> (8 * j)).setWidth 8

/-- A word expanded into its four bytes, little-endian (20_memory.md R61). -/
def bytesOfWord (w : Word) : List Byte := [byteOfWord w 0, byteOfWord w 1, byteOfWord w 2, byteOfWord w 3]

end Sys2Proof.Machine
end

