-- ==== Sys2Proof/Machine/Base64.lean ====
section
/-! DEFINITION. The Base64 Codec: its alphabets, its pure functions and the commands `B64E`, `B64D`
(43_base64_codec.md). -/

namespace Sys2Proof.Machine

/-- The symbol of value 62 (43_base64_codec.md R170). -/
def Alphabet.symbol62 : Alphabet → Byte
  | .standard => 0x2B#8
  | .urlSafe => 0x2D#8

/-- The symbol of value 63 (43_base64_codec.md R170). -/
def Alphabet.symbol63 : Alphabet → Byte
  | .standard => 0x2F#8
  | .urlSafe => 0x5F#8

/-- `sym(s)`, the ASCII code of a 6-bit value (43_base64_codec.md R170). -/
def Alphabet.sym (a : Alphabet) (s : BitVec 6) : Byte :=
  if s.toNat ≤ 25 then 0x41#8 + s.setWidth 8
  else if s.toNat ≤ 51 then 0x61#8 + (s.setWidth 8 - 26#8)
  else if s.toNat ≤ 61 then 0x30#8 + (s.setWidth 8 - 52#8)
  else if s.toNat = 62 then a.symbol62
  else a.symbol63

/-- `val(c)`, the value of a code, defined only for the 64 codes of the alphabet (43_base64_codec.md R170). -/
def Alphabet.val (a : Alphabet) (c : Byte) : Option (BitVec 6) :=
  if 0x41#8 ≤ c ∧ c ≤ 0x5A#8 then some ((c - 0x41#8).setWidth 6)
  else if 0x61#8 ≤ c ∧ c ≤ 0x7A#8 then some ((c - 0x61#8 + 26#8).setWidth 6)
  else if 0x30#8 ≤ c ∧ c ≤ 0x39#8 then some ((c - 0x30#8 + 52#8).setWidth 6)
  else if c = a.symbol62 then some 62#6
  else if c = a.symbol63 then some 63#6
  else none

/-- The 24-bit group of three bytes, `(b0 << 16) | (b1 << 8) | b2` (20_memory.md R62). -/
def groupOfBytes (b0 b1 b2 : Byte) : BitVec 24 := b0.setWidth 24 <<< 16 ||| b1.setWidth 24 <<< 8 ||| b2.setWidth 24

/-- Slice `j` of a 24-bit group in output order: `g[23:18]`, `g[17:12]`, `g[11:6]`, `g[5:0]` (20_memory.md R62). -/
def groupSlice (g : BitVec 24) (j : Nat) : BitVec 6 := g.extractLsb' (18 - 6 * j) 6

/-- `b64encode(b)`: three bytes to four symbols; the bits a final partial chunk lacks are 0 and its missing symbols are
`=` (43_base64_codec.md R172). -/
def b64Encode (a : Alphabet) : List Byte → List Byte
  | b0 :: b1 :: b2 :: rest =>
    let g := groupOfBytes b0 b1 b2
    a.sym (groupSlice g 0) :: a.sym (groupSlice g 1) :: a.sym (groupSlice g 2) :: a.sym (groupSlice g 3) ::
      b64Encode a rest
  | [b0, b1] =>
    let g := groupOfBytes b0 b1 0
    [a.sym (groupSlice g 0), a.sym (groupSlice g 1), a.sym (groupSlice g 2), Config.b64Pad]
  | [b0] =>
    let g := groupOfBytes b0 0 0
    [a.sym (groupSlice g 0), a.sym (groupSlice g 1), Config.b64Pad, Config.b64Pad]
  | [] => []

/-- The scan of `b64check` from index `j` on, over the symbols still to come: the first offending symbol and its index.
A `=` is legal at the last index, or at the last but one when a `=` follows (43_base64_codec.md R175). -/
def b64Scan (a : Alphabet) : Nat → List Byte → Option (Cause × Nat)
  | _, [] => none
  | j, c :: rest =>
    if c = Config.b64Pad then
      if rest = [] ∨ rest = [Config.b64Pad] then b64Scan a (j + 1) rest else some (.invalidPadding, j)
    else if a.val c = none then some (.invalidCharacter, j)
    else b64Scan a (j + 1) rest

/-- `b64check(t)`: the fault and what it records, or none (43_base64_codec.md R175). -/
def b64Check (a : Alphabet) (t : List Byte) : Option (Cause × Nat) :=
  if t.length % 4 ≠ 0 then some (.invalidLength, t.length) else b64Scan a 0 t

/-- `pads`: the number of `=` among the last two symbols (43_base64_codec.md R175). -/
def b64Pads (t : List Byte) : Nat := (t.drop (t.length - 2)).count Config.b64Pad

/-- `val` of a symbol of a text that passed `b64check`. -/
def Alphabet.valD (a : Alphabet) (c : Byte) : BitVec 6 := (a.val c).getD 0

/-- The 24-bit group of four values, `(s0 << 18) | (s1 << 12) | (s2 << 6) | s3` (43_base64_codec.md R176). -/
def groupOfValues (s0 s1 s2 s3 : BitVec 6) : BitVec 24 :=
  s0.setWidth 24 <<< 18 ||| s1.setWidth 24 <<< 12 ||| s2.setWidth 24 <<< 6 ||| s3.setWidth 24

/-- `(s0 << 2) | (s1 >> 4)`, the first byte of a group (43_base64_codec.md R176). -/
def firstByte (s0 s1 : BitVec 6) : Byte := s0.setWidth 8 <<< 2 ||| s1.setWidth 8 >>> 4

/-- `((s1 & 15) << 4) | (s2 >> 2)`, the second byte of a group (43_base64_codec.md R176). -/
def secondByte (s1 s2 : BitVec 6) : Byte := (s1.setWidth 8 &&& 15#8) <<< 4 ||| s2.setWidth 8 >>> 2

/-- The bytes of one group of four symbols; only the last group can have padding (43_base64_codec.md R176; the unused
low bits of a final group are ignored, R177). -/
def decodeGroup (a : Alphabet) (pads : Nat) (last : Bool) (c0 c1 c2 c3 : Byte) : List Byte :=
  if last ∧ pads = 2 then [firstByte (a.valD c0) (a.valD c1)]
  else if last ∧ pads = 1 then
    [firstByte (a.valD c0) (a.valD c1), secondByte (a.valD c1) (a.valD c2)]
  else
    let g := groupOfValues (a.valD c0) (a.valD c1) (a.valD c2) (a.valD c3)
    [g.extractLsb' 16 8, g.extractLsb' 8 8, g.extractLsb' 0 8]

/-- The groups of `b64decode(t)` with the number of padding symbols of the whole text (43_base64_codec.md R176). -/
def b64DecodeGroups (a : Alphabet) (pads : Nat) : List Byte → List Byte
  | c0 :: c1 :: c2 :: c3 :: rest => decodeGroup a pads rest.isEmpty c0 c1 c2 c3 ++ b64DecodeGroups a pads rest
  | _ => []

/-- `b64decode(t)`, for a text that passed `b64check` (43_base64_codec.md R176). -/
def b64Decode (a : Alphabet) (t : List Byte) : List Byte := b64DecodeGroups a (b64Pads t) t

/-- `need`, the length of the decoded bytes (43_base64_codec.md R178). -/
def b64Need (t : List Byte) : Nat := 3 * (t.length / 4) - b64Pads t

/-- `B64E` (43_base64_codec.md R174). -/
def execB64e (s : State) : Host.Outcome State Fault Refusal :=
  whenReady s fun b => storeText (encode .b64e) (b64Encode b.cfg.alph b.bytes) b

/-- `B64D` (43_base64_codec.md R178): the checks in their order, then `Capacity`, then the bytes. -/
def execB64d (s : State) : Host.Outcome State Fault Refusal :=
  whenReady s fun b =>
    match b64Check b.cfg.alph b.text with
    | some (cause, info) => raiseFault cause (BitVec.ofNat 32 info) (encode .b64d) b
    | none =>
      if b.params.bmax < b64Need b.text then raiseFault .capacity (BitVec.ofNat 32 (b64Need b.text)) (encode .b64d) b
      else storeBytes (encode .b64d) (b64Decode b.cfg.alph b.text) b

end Sys2Proof.Machine
end

