-- ==== Sys2Proof/Machine/BlockPacker.lean ====
section
/-! DEFINITION. The Block Packer: its pure functions and the commands `PACK`, `UNPACK`, `SER`, `DESER`
(40_block_packer.md). -/

namespace Sys2Proof.Machine

/-- The grouping step: `[ b[4i] | (b[4i+1] << 8) | (b[4i+2] << 16) | (b[4i+3] << 24) ]` for each whole group of four
(40_block_packer.md R110, R115). -/
def groupWords : List Byte → List Word
  | b0 :: b1 :: b2 :: b3 :: rest => wordOfBytes b0 b1 b2 b3 :: groupWords rest
  | _ => []

/-- The bytes with the sentinel appended until the length is a multiple of 4 (40_block_packer.md R110). -/
def padBytes (x : List Byte) : List Byte := x ++ List.replicate ((4 - x.length % 4) % 4) Config.padByte

/-- `pack(b)` (40_block_packer.md R110). -/
def pack (x : List Byte) : List Word :=
  if (padBytes x).length = 0 then [0x00000000#32] else groupWords (padBytes x)

/-- `ser(w)` (40_block_packer.md R111). -/
def ser (w : List Word) : List Byte := w.flatMap bytesOfWord

/-- `unpack(w)`: `ser(w)` cut before the first sentinel, uncut if there is none (40_block_packer.md R111). -/
def unpack (w : List Word) : List Byte := (ser w).takeWhile fun c => c ≠ Config.padByte

/-- `deser(b)`, for a byte sequence whose length is a multiple of 4 (40_block_packer.md R115). -/
def deser (x : List Byte) : List Word := groupWords x

/-- `PACK` (40_block_packer.md R112). -/
def execPack (s : State) : Host.Outcome State Fault Refusal :=
  whenReady s fun b => storeWords (encode .pack) (pack b.bytes) b

/-- `UNPACK` (40_block_packer.md R114). -/
def execUnpack (s : State) : Host.Outcome State Fault Refusal :=
  whenReady s fun b => storeBytes (encode .unpack) (unpack b.words) b

/-- `SER` (40_block_packer.md R116). -/
def execSer (s : State) : Host.Outcome State Fault Refusal :=
  whenReady s fun b => storeBytes (encode .ser) (ser b.words) b

/-- `DESER` (40_block_packer.md R118): `WordLength` when `BLEN` is no multiple of 4. -/
def execDeser (s : State) : Host.Outcome State Fault Refusal :=
  whenReady s fun b =>
    if b.blen.toNat % 4 ≠ 0 then raiseFault .wordLength b.blen (encode .deser) b
    else storeWords (encode .deser) (deser b.bytes) b

end Sys2Proof.Machine
end

