-- ==== Sys2Proof/Machine/KeyNormalizer.lean ====
section
/-! DEFINITION. The Key Normalizer and its command `KEYNORM` (41_key_normalizer.md). -/

namespace Sys2Proof.Machine

/-- `normalize_key(pw)`: the first four words of the packed password, zero words where it has fewer
(41_key_normalizer.md R130). -/
def normalizeKey (pw : List Byte) : Key :=
  let w := pack pw
  { k0 := w.getD 0 0, k1 := w.getD 1 0, k2 := w.getD 2 0, k3 := w.getD 3 0 }

/-- `KEYNORM` (41_key_normalizer.md R131): `EmptyKey` on an all-zero normalized key while `CFG.KEYCHK = 1`. -/
def execKeynorm (s : State) : Host.Outcome State Fault Refusal :=
  whenReady s fun b =>
    if b.cfg.keychk ∧ normalizeKey b.bytes = Key.zero then raiseFault .emptyKey b.blen (encode .keynorm) b
    else { b with k := normalizeKey b.bytes }

end Sys2Proof.Machine
end

