-- ==== Sys2Proof/Machine/MixingEngine.lean ====
section
/-! DEFINITION. The XXTEA Mixing Engine: its pure functions and the commands `XENC`, `XDEC` (42_mixing_engine.md). -/

namespace Sys2Proof.Machine

/-- Word `p` of a sequence (00_scope.md R10); every rule reads it at a position below the length. -/
def wordAt (v : List Word) (p : Nat) : Word := v.getD p 0

/-- The mixing function `MX(sum, y, z, p, e, k)` (42_mixing_engine.md R141).  `p & 3` is the low two bits of `p`. -/
def mx (sum y z : Word) (p : Nat) (e : BitVec 2) (k : Key) : Word :=
  let a := (z >>> 5) ^^^ (y <<< 2)
  let b := (y >>> 3) ^^^ (z <<< 4)
  let c := sum ^^^ y
  let d := k.word (BitVec.ofNat 2 p ^^^ e) ^^^ z
  (a + b) ^^^ (c + d)

/-- `e = (sum >> 2) & 3`, bits 3:2 of the sum (42_mixing_engine.md R142). -/
def keyModifier (sum : Word) : BitVec 2 := (sum >>> 2).setWidth 2

/-- `rounds = ROUNDS_BASE + (52 div n)` (42_mixing_engine.md R143). -/
def roundCount (base : BitVec 8) (n : Nat) : Nat := base.toNat + Config.roundsNum / n

/-- One step of encode's inner loop at position `p`, on the sequence and `z` (42_mixing_engine.md R145). -/
def encodeStep (sum : Word) (e : BitVec 2) (k : Key) (vz : List Word × Word) (p : Nat) : List Word × Word :=
  let y := wordAt vz.1 (p + 1)
  let x := wordAt vz.1 p + mx sum y vz.2 p e k
  (vz.1.set p x, x)

/-- One round of encode on the sequence and `z`: `p` from 0 to `n-2`, then the wrap-around (42_mixing_engine.md R145). -/
def encodeRound (n : Nat) (sum : Word) (k : Key) (vz : List Word × Word) : List Word × Word :=
  let e := keyModifier sum
  let vz := (List.range (n - 1)).foldl (encodeStep sum e k) vz
  let y := wordAt vz.1 0
  let x := wordAt vz.1 (n - 1) + mx sum y vz.2 (n - 1) e k
  (vz.1.set (n - 1) x, x)

/-- The rounds of encode still to do; `sum` is incremented before each round's use (42_mixing_engine.md R144, R145). -/
def encodeRounds (n : Nat) (k : Key) : Nat → Word → List Word × Word → List Word × Word
  | 0, _, vz => vz
  | r + 1, sum, vz => encodeRounds n k r (sum + Config.delta) (encodeRound n (sum + Config.delta) k vz)

/-- `encode(v, k, base)`, for `n ≥ 2` words (42_mixing_engine.md R145). -/
def xxteaEncode (v : List Word) (k : Key) (base : BitVec 8) : List Word :=
  (encodeRounds v.length k (roundCount base v.length) 0 (v, wordAt v (v.length - 1))).1

/-- One step of decode's inner loop at position `p ≥ 1`, on the sequence and `y` (42_mixing_engine.md R146). -/
def decodeStep (sum : Word) (e : BitVec 2) (k : Key) (vy : List Word × Word) (p : Nat) : List Word × Word :=
  let z := wordAt vy.1 (p - 1)
  let x := wordAt vy.1 p - mx sum vy.2 z p e k
  (vy.1.set p x, x)

/-- Decode's inner loop: `p` from the given position down to 1 (42_mixing_engine.md R146). -/
def decodeSweep (sum : Word) (e : BitVec 2) (k : Key) : Nat → List Word × Word → List Word × Word
  | 0, vy => vy
  | p + 1, vy => decodeSweep sum e k p (decodeStep sum e k vy (p + 1))

/-- One round of decode on the sequence and `y`: `p` from `n-1` down to 1, then index 0 (42_mixing_engine.md R146). -/
def decodeRound (n : Nat) (sum : Word) (k : Key) (vy : List Word × Word) : List Word × Word :=
  let e := keyModifier sum
  let vy := decodeSweep sum e k (n - 1) vy
  let z := wordAt vy.1 (n - 1)
  let x := wordAt vy.1 0 - mx sum vy.2 z 0 e k
  (vy.1.set 0 x, x)

/-- The rounds of decode still to do; `sum` is decremented after each round's use (42_mixing_engine.md R146). -/
def decodeRounds (n : Nat) (k : Key) : Nat → Word → List Word × Word → List Word × Word
  | 0, _, vy => vy
  | r + 1, sum, vy => decodeRounds n k r (sum - Config.delta) (decodeRound n sum k vy)

/-- `decode(v, k, base)`, for `n ≥ 2` words; `sum` starts at `rounds *32 DELTA` (42_mixing_engine.md R146). -/
def xxteaDecode (v : List Word) (k : Key) (base : BitVec 8) : List Word :=
  (decodeRounds v.length k (roundCount base v.length) (BitVec.ofNat 32 (roundCount base v.length) * Config.delta)
    (v, wordAt v 0)).1

/-- The length-1 padding of the engine, done for both directions (42_mixing_engine.md R147). -/
def padSingle : List Word → List Word
  | [x] => [x, 0x00000000#32]
  | v => v

/-- `engine(dir, v, k, base)`: nothing on the empty sequence, else `dir` on the padded one (42_mixing_engine.md R147). -/
def engine (dir : List Word → Key → BitVec 8 → List Word) (v : List Word) (k : Key) (base : BitVec 8) : List Word :=
  if v.length = 0 then v else dir (padSingle v) k base

/-- `XENC` (42_mixing_engine.md R148). -/
def execXenc (s : State) : Host.Outcome State Fault Refusal :=
  whenReady s fun b => storeWords (encode .xenc) (engine xxteaEncode b.words b.k b.cfg.roundsBase) b

/-- `XDEC` (42_mixing_engine.md R149). -/
def execXdec (s : State) : Host.Outcome State Fault Refusal :=
  whenReady s fun b => storeWords (encode .xdec) (engine xxteaDecode b.words b.k b.cfg.roundsBase) b

end Sys2Proof.Machine
end

