-- ==== Sys2Proof/Machine/System.lean ====
section
/-! DEFINITION. The system commands `NOP` and `CLR` (44_system_commands.md). -/

namespace Sys2Proof.Machine

/-- `NOP` (44_system_commands.md R190). -/
def execNop (s : State) : Host.Outcome State Fault Refusal := whenReady s fun b => b

/-- `CLR` (44_system_commands.md R191): `K`, every cell of `V`, `B`, `T` and the lengths to 0; `CFG` and the fault
registers are kept. -/
def execClr (s : State) : Host.Outcome State Fault Refusal :=
  whenReady s fun b => { b with k := Key.zero, v := [], b := [], t := [], n := 0, blen := 0, tlen := 0 }

end Sys2Proof.Machine
end

