-- ==== Sys2Proof/Machine/Dispatch.lean ====
section
/-! DEFINITION. One arm per command. -/

namespace Sys2Proof.Machine

def exec (i : Instr) (s : State) : Host.Outcome State Fault Refusal :=
  match i with
  | .nop => Sys2Proof.Machine.execNop s
  | .clr => Sys2Proof.Machine.execClr s
  | .pack => Sys2Proof.Machine.execPack s
  | .unpack => Sys2Proof.Machine.execUnpack s
  | .keynorm => Sys2Proof.Machine.execKeynorm s
  | .ser => Sys2Proof.Machine.execSer s
  | .deser => Sys2Proof.Machine.execDeser s
  | .xenc => Sys2Proof.Machine.execXenc s
  | .xdec => Sys2Proof.Machine.execXdec s
  | .b64e => Sys2Proof.Machine.execB64e s
  | .b64d => Sys2Proof.Machine.execB64d s

end Sys2Proof.Machine
end

