-- ==== Sys2Proof/Machine/Window.lean ====
section
/-! DEFINITION. The host's window: the address map, what a read returns, what a write does, the write to `CMD` that runs
a command, and the transitions of the block (20_memory.md). -/

namespace Sys2Proof.Machine

/-- The control registers of the window (20_memory.md R66). -/
inductive Reg where
  | id
  | cfg
  | cmd
  | status
  | errCode
  | errInfo
  | errCmd
  | n
  | blen
  | tlen
  | k0
  | k1
  | k2
  | k3
  | nmax
  deriving DecidableEq, Repr

/-- What a 32-bit location of the window can be, when it is not reserved (20_memory.md R66). -/
inductive Loc where
  | reg (r : Reg)
  /-- `V[i]`. -/
  | vCell (i : Nat)
  /-- `B[i]`. -/
  | bCell (i : Nat)
  /-- `T[i]`. -/
  | tCell (i : Nat)
  deriving DecidableEq, Repr

/-- The byte offset of a register (10_state.md R26 to R34). -/
def Reg.offset : Reg → Nat
  | .id => 0x000
  | .cfg => 0x004
  | .cmd => 0x008
  | .status => 0x00C
  | .errCode => 0x010
  | .errInfo => 0x014
  | .errCmd => 0x018
  | .n => 0x020
  | .blen => 0x024
  | .tlen => 0x028
  | .k0 => 0x030
  | .k1 => 0x034
  | .k2 => 0x038
  | .k3 => 0x03C
  | .nmax => 0x040

/-- The byte offset of a location (20_memory.md R66). -/
def Loc.offset : Loc → Nat
  | .reg r => r.offset
  | .vCell i => 0x1000 + 4 * i
  | .bCell i => 0x4000 + 4 * i
  | .tCell i => 0x8000 + 4 * i

/-- The register at an offset of the control register range, if it is not reserved (20_memory.md R66, 10_state.md
R29). -/
def regAt (off : Nat) : Option Reg :=
  if off = 0x000 then some .id
  else if off = 0x004 then some .cfg
  else if off = 0x008 then some .cmd
  else if off = 0x00C then some .status
  else if off = 0x010 then some .errCode
  else if off = 0x014 then some .errInfo
  else if off = 0x018 then some .errCmd
  else if off = 0x020 then some .n
  else if off = 0x024 then some .blen
  else if off = 0x028 then some .tlen
  else if off = 0x030 then some .k0
  else if off = 0x034 then some .k1
  else if off = 0x038 then some .k2
  else if off = 0x03C then some .k3
  else if off = 0x040 then some .nmax
  else none

/-- The address map (20_memory.md R66): the location at a byte offset that is a multiple of 4, none if the offset is
reserved. -/
def locate (off : Nat) : Option Loc :=
  if off < 0x1000 then (regAt off).map .reg
  else if off < 0x2000 then some (.vCell ((off - 0x1000) / 4))
  else if off < 0x4000 then none
  else if off < 0x8000 then some (.bCell ((off - 0x4000) / 4))
  else if off < 0x10000 then some (.tCell ((off - 0x8000) / 4))
  else none

/-- Why an access is outside the interface (20_memory.md R64, U9), if it is. -/
def accessRefusal (off bytes : Nat) : Option Refusal :=
  if bytes ≠ 4 then some .accessWidth
  else if off % 4 ≠ 0 then some .accessAlignment
  else if 0xFFFC < off then some .accessWindow
  else none

/-! ### Registers as the host sees them -/

/-- The bit of an alphabet in `CFG` (10_state.md R27). -/
def Alphabet.bit : Alphabet → Bool
  | .standard => false
  | .urlSafe => true

/-- The alphabet a bit of `CFG` selects (10_state.md R27). -/
def Alphabet.ofBit : Bool → Alphabet
  | false => .standard
  | true => .urlSafe

/-- What a host reads from `CFG`: bits 31:10 are 0 (10_state.md R27). -/
def Cfg.word (c : Cfg) : Word :=
  (BitVec.ofBool c.keychk ++ BitVec.ofBool c.alph.bit ++ c.roundsBase).setWidth 32

/-- The fields of `CFG` from the corresponding bits of a written value (10_state.md R27, 20_memory.md R69). -/
def Cfg.ofWord (v : Word) : Cfg :=
  { roundsBase := v.extractLsb' 0 8, alph := Alphabet.ofBit (v.getLsbD 8), keychk := v.getLsbD 9 }

/-- What a host read of a register returns (10_state.md R26 to R34). -/
def readReg (b : Block) : Reg → Word
  | .id => Config.idValue
  | .cfg => b.cfg.word
  | .cmd => 0
  | .status => b.status.word
  | .errCode => b.errCode.setWidth 32
  | .errInfo => b.errInfo
  | .errCmd => b.errCmd
  | .n => b.n
  | .blen => b.blen
  | .tlen => b.tlen
  | .k0 => b.k.k0
  | .k1 => b.k.k1
  | .k2 => b.k.k2
  | .k3 => b.k.k3
  | .nmax => BitVec.ofNat 32 b.params.nmax

/-- What a host read of a location returns: 0 at an out-of-capacity location (20_memory.md R67, R68). -/
def readLoc (b : Block) : Loc → Word
  | .reg r => readReg b r
  | .vCell i => if i < b.params.nmax then b.v.read i else 0
  | .bCell i => if i < b.params.bmax then (b.b.read i).setWidth 32 else 0
  | .tCell i => if i < b.params.tmax then (b.t.read i).setWidth 32 else 0

/-- `MemRead(off, 4)`: 0 at a reserved location (20_memory.md R68). -/
def memRead (b : Block) (off : Nat) : Word :=
  match locate off with
  | some l => readLoc b l
  | none => 0

/-- A host write of a length register: ignored above the capacity (10_state.md R23). -/
def writeLength (cap : Nat) (old v : Word) : Word := if v.toNat ≤ cap then v else old

/-- What a host write to a register stores, for every register but `CMD`, whose write runs a command (`writeCmd`); the
read-only registers ignore writes (10_state.md R26 to R34, 20_memory.md R69). -/
def writeReg (b : Block) (v : Word) : Reg → Block
  | .id => b
  | .cfg => { b with cfg := Cfg.ofWord v }
  | .cmd => b
  | .status => if v.getLsbD 0 then ackFault b else b
  | .errCode => b
  | .errInfo => b
  | .errCmd => b
  | .n => { b with n := writeLength b.params.nmax b.n v }
  | .blen => { b with blen := writeLength b.params.bmax b.blen v }
  | .tlen => { b with tlen := writeLength b.params.tmax b.tlen v }
  | .k0 => { b with k := { b.k with k0 := v } }
  | .k1 => { b with k := { b.k with k1 := v } }
  | .k2 => { b with k := { b.k with k2 := v } }
  | .k3 => { b with k := { b.k with k3 := v } }
  | .nmax => b

/-- What a host write to a location stores; out-of-capacity locations ignore it (20_memory.md R67, R69). -/
def writeLoc (b : Block) (v : Word) : Loc → Block
  | .reg r => writeReg b v r
  | .vCell i => if i < b.params.nmax then { b with v := b.v.write i v } else b
  | .bCell i => if i < b.params.bmax then { b with b := b.b.write i (v.setWidth 8) } else b
  | .tCell i => if i < b.params.tmax then { b with t := b.t.write i (v.setWidth 8) } else b

/-- `MemWrite(0x008, 4, w)` (30_encoding.md R100): dropped while FAULTED, `IllegalCommand` on a word that is no command
word, else the command. -/
def writeCmd (s : State) (w : Word) : Host.Outcome State Fault Refusal :=
  if s.block.status.err then .next s
  else
    match decode w with
    | .ok i => exec i s
    | .error _ => .next { s with block := raiseFault .illegalCommand 0 w s.block }

/-- `MemWrite(off, 4, v)`: a reserved location ignores it (20_memory.md R69). -/
def memWrite (s : State) (off : Nat) (v : Word) : Host.Outcome State Fault Refusal :=
  match locate off with
  | some (.reg .cmd) => writeCmd s v
  | some l => .next { s with block := writeLoc s.block v l }
  | none => .next s

/-! ### Transitions -/

/-- One host access, or reset (20_memory.md R75).  An access outside the interface is refused before anything happens
(R64). -/
def runAccess (a : HostAccess) (s : State) : Host.Outcome State Fault Refusal :=
  match a with
  | .read off bytes =>
    match accessRefusal off bytes with
    | some r => .refused r
    | none => .next { s with returned := memRead s.block off :: s.returned }
  | .write off bytes v =>
    match accessRefusal off bytes with
    | some r => .refused r
    | none => memWrite s off v
  | .reset => .next { s with block := Block.reset s.block.params }

/-- One transition of the machine: the oldest access the host has issued; with none, the block is idle and keeps its
state (60_exceptions.md R245, 70_reset_and_hazards.md R251; log 3). -/
def advance (s : State) : Host.Outcome State Fault Refusal :=
  match s.pending with
  | [] => .next s
  | a :: rest => runAccess a { s with pending := rest }

end Sys2Proof.Machine
end

