-- ==== Sys2Proof/Machine/Step.lean ====
section
/-! DEFINITION. One step of the machine, and how a command word is put where the next step finds it. -/

namespace Sys2Proof.Machine

/-- One step: one transition of 20_memory.md R75. -/
def step (s : State) : Host.Outcome State Fault Refusal := advance s

/-- `s` with the host about to write the command word to `CMD`: a command exists only as the value of one host write
(10_state.md R24, R28; log 4). -/
def State.withFetchWord (s : State) (nbits w : Nat) : State :=
  { s with pending := .write Reg.cmd.offset 4 (tableWord nbits w) :: s.pending }

end Sys2Proof.Machine
end

