-- ==== Sys2Proof/Machine/EngineSteps.lean ====
section
/-! DEFINITION. The step view of the Mixing Engine (42_mixing_engine.md R152): the working registers of 10_state.md R39
and one step, which is one evaluation of `MX` and one write of one word.  It is not part of State (20_memory.md R75; log
9): `XENC` and `XDEC` use the function view of Machine/MixingEngine.lean, and the two must give the same words. -/

namespace Sys2Proof.Machine

/-- The sequence and the working registers of the engine (10_state.md R39). -/
structure EngineRegs where
  v : List Word
  sum : Word
  e : BitVec 2
  y : Word
  z : Word
  /-- The position. -/
  p : Nat
  /-- The round counter, from 1. -/
  q : Nat
  deriving DecidableEq, Repr

/-- The registers before the first step of encode's first round: `sum` incremented, `e` recomputed (log 21), `z = v[n-1]`,
`p = 0` (42_mixing_engine.md R145).  DESIGN CHOICE (log 9, safe): `y` is 0; the spec leaves its value before the first step open
(10_state.md R41, U11), and the first step writes it before anything reads it. -/
def EngineRegs.encodeStart (v : List Word) : EngineRegs :=
  { v := v, sum := Config.delta, e := keyModifier Config.delta, y := 0, z := wordAt v (v.length - 1), p := 0, q := 1 }

/-- One step of encode: the update of word `p`, then the next position, or the next round (42_mixing_engine.md R145).
DESIGN CHOICE (log 21, safe): the wrap-around step also does the next round's `sum`, `e` and `q`, and so it does after the
last round, where R145 stops. -/
def EngineRegs.encodeNext (k : Key) (r : EngineRegs) : EngineRegs :=
  let wrap := r.p = r.v.length - 1
  let y := if wrap then wordAt r.v 0 else wordAt r.v (r.p + 1)
  let x := wordAt r.v r.p + mx r.sum y r.z r.p r.e k
  let sum := if wrap then r.sum + Config.delta else r.sum
  { v := r.v.set r.p x, sum := sum, e := if wrap then keyModifier sum else r.e, y := y, z := x,
    p := if wrap then 0 else r.p + 1, q := if wrap then r.q + 1 else r.q }

/-- The registers before the first step of decode's first round: `sum = rounds *32 DELTA`, `y = v[0]`, `p = n-1`
(42_mixing_engine.md R146).  DESIGN CHOICE (log 9, safe): `z` is 0; the spec leaves its value before the first step open
(10_state.md R41, U11), and the first step writes it before anything reads it. -/
def EngineRegs.decodeStart (v : List Word) (base : BitVec 8) : EngineRegs :=
  let sum := BitVec.ofNat 32 (roundCount base v.length) * Config.delta
  { v := v, sum := sum, e := keyModifier sum, y := wordAt v 0, z := 0, p := v.length - 1, q := 1 }

/-- One step of decode: the update of word `p`, then the position below, or the next round (42_mixing_engine.md R146).
DESIGN CHOICE (log 21, safe): the step of position 0 also does the round's last decrement of `sum` and the next round's `e`
and `q`, and so it does after the last round. -/
def EngineRegs.decodeNext (k : Key) (r : EngineRegs) : EngineRegs :=
  let wrap := r.p = 0
  let z := if wrap then wordAt r.v (r.v.length - 1) else wordAt r.v (r.p - 1)
  let x := wordAt r.v r.p - mx r.sum r.y z r.p r.e k
  let sum := if wrap then r.sum - Config.delta else r.sum
  { v := r.v.set r.p x, sum := sum, e := if wrap then keyModifier sum else r.e, y := x, z := z,
    p := if wrap then r.v.length - 1 else r.p - 1, q := if wrap then r.q + 1 else r.q }

/-- `count` steps of an engine. -/
def EngineRegs.steps (next : EngineRegs → EngineRegs) : Nat → EngineRegs → EngineRegs
  | 0, r => r
  | count + 1, r => EngineRegs.steps next count (next r)

end Sys2Proof.Machine
end

