-- ==== Sys2Proof/Machine/Script.lean ====
section
/-! DEFINITION. The host's side: host scripts and their directives (30_encoding.md R96 to R98), and the public API as host
sequences (45_api_sequences.md R200 to R204).  Each gives the list of host accesses it stands for. -/

namespace Sys2Proof.Machine

/-- A statement of a host script (30_encoding.md R96 to R98).  Text stands as the bytes or symbol codes it means. -/
inductive Stmt where
  /-- `wr <loc>, <value>`. -/
  | wr (l : Loc) (v : Word)
  /-- `rd <loc>`. -/
  | rd (l : Loc)
  /-- A mnemonic. -/
  | command (i : Instr)
  /-- `.bytes b0 b1 ...`. -/
  | bytes (x : List Byte)
  /-- `.text "s"`, by its symbol codes. -/
  | text (x : List Byte)
  /-- `.words w0 w1 ...`. -/
  | words (x : List Word)
  /-- `.key k0 k1 k2 k3`. -/
  | key (k : Key)
  /-- `.expect <loc>, <value>`: a read, with the claim that it returns the value. -/
  | expect (l : Loc) (v : Word)
  /-- `ack`. -/
  | ack
  deriving DecidableEq, Repr

/-- `W off value`. -/
def wrAccess (l : Loc) (v : Word) : HostAccess := .write l.offset 4 v

/-- `R off`. -/
def rdAccess (l : Loc) : HostAccess := .read l.offset 4

/-- The write to `CMD` that issues a command (30_encoding.md R96). -/
def issue (i : Instr) : HostAccess := wrAccess (.reg .cmd) (encode i)

/-- The writes of a buffer's cells from index `lo` on (30_encoding.md R97). -/
def wrCells (cell : Nat → Loc) : Nat → List Word → List HostAccess
  | _, [] => []
  | i, x :: xs => wrAccess (cell i) x :: wrCells cell (i + 1) xs

/-- The host accesses a statement expands to (30_encoding.md R96 to R98). -/
def Stmt.accesses : Stmt → List HostAccess
  | .wr l v => [wrAccess l v]
  | .rd l => [rdAccess l]
  | .command i => [issue i]
  | .bytes x => wrCells .bCell 0 (x.map fun c => c.setWidth 32) ++ [wrAccess (.reg .blen) (BitVec.ofNat 32 x.length)]
  | .text x => wrCells .tCell 0 (x.map fun c => c.setWidth 32) ++ [wrAccess (.reg .tlen) (BitVec.ofNat 32 x.length)]
  | .words x => wrCells .vCell 0 x ++ [wrAccess (.reg .n) (BitVec.ofNat 32 x.length)]
  | .key k => [wrAccess (.reg .k0) k.k0, wrAccess (.reg .k1) k.k1, wrAccess (.reg .k2) k.k2, wrAccess (.reg .k3) k.k3]
  | .expect l _ => [rdAccess l]
  | .ack => [wrAccess (.reg .status) 1]

/-- The host accesses of a script, in order. -/
def scriptAccesses (p : List Stmt) : List HostAccess := p.flatMap Stmt.accesses

/-- What a host loads of a password: all of it where it fits in `B`, else its first 16 bytes, which give the same key
(45_api_sequences.md section 2, 41_key_normalizer.md R132); none where not even those fit (log 16).  DESIGN CHOICE (log
20, safe): an empty password is loaded like any other and not refused here; the spec leaves that refusal to a host that
wants it (45_api_sequences.md R209), and `KEYNORM` faults on it while `KEYCHK` is on. -/
def passwordLoad (p : Config.Params) (pw : List Byte) : Option (List Byte) :=
  if pw.length ≤ p.bmax then some pw
  else if 16 ≤ p.bmax then some (pw.take 16)
  else none

/-- `ENCRYPT.RAW pt, pw` up to the read of the result's length (45_api_sequences.md R201); `readWords` reads the result.
An empty plaintext issues nothing (R205); none where the host must refuse the call itself. -/
def encryptRaw (p : Config.Params) (pt pw : List Byte) : Option (List Stmt) :=
  if pt = [] then some []
  else if p.bmax < pt.length then none
  else (passwordLoad p pw).map fun w =>
    [.bytes w, .command .keynorm, .bytes pt, .command .pack, .command .xenc, .rd (.reg .status), .rd (.reg .n)]

/-- `DECRYPT.RAW ct, pw` up to the read of the result's length (45_api_sequences.md R202); `readBytes` reads the
result. -/
def decryptRaw (p : Config.Params) (ct : List Word) (pw : List Byte) : Option (List Stmt) :=
  if ct = [] then some []
  else if p.nmax < ct.length then none
  else (passwordLoad p pw).map fun w =>
    [.bytes w, .command .keynorm, .words ct, .command .xdec, .command .unpack, .rd (.reg .status), .rd (.reg .blen)]

/-- `ENCRYPT.B64 pt, pw` up to the read of the result's length (45_api_sequences.md R203); `readText` reads the
result. -/
def encryptB64 (p : Config.Params) (pt pw : List Byte) : Option (List Stmt) :=
  if pt = [] then some []
  else if p.bmax < pt.length then none
  else (passwordLoad p pw).map fun w =>
    [.bytes w, .command .keynorm, .bytes pt, .command .pack, .command .xenc, .command .ser, .command .b64e,
      .rd (.reg .status), .rd (.reg .tlen)]

/-- `DECRYPT.B64 tx, pw` up to the read of the result's length (45_api_sequences.md R204); `readBytes` reads the
result. -/
def decryptB64 (p : Config.Params) (tx pw : List Byte) : Option (List Stmt) :=
  if tx = [] then some []
  else if p.tmax < tx.length then none
  else (passwordLoad p pw).map fun w =>
    [.bytes w, .command .keynorm, .text tx, .command .b64d, .command .deser, .command .xdec, .command .unpack,
      .rd (.reg .status), .rd (.reg .blen)]

/-- The write that gives a block configured as `c` the alphabet of the default contract, `CFG.ALPH = 0`
(45_api_sequences.md R200); none where it has it already.  DESIGN CHOICE (log 19, safe): R200 names the alphabet and not
the access that sets it; the write keeps the other fields of `CFG` (70_reset_and_hazards.md R252, R256). -/
def standardAlphabet (c : Cfg) : List Stmt :=
  if c.alph = .standard then [] else [.wr (.reg .cfg) { c with alph := .standard }.word]

/-- `ENCRYPT` without suffix, on a block configured as `c`: the `.B64` form under the standard alphabet (30_encoding.md
R98, 45_api_sequences.md R200).  An empty plaintext issues nothing (R205). -/
def encryptDefault (p : Config.Params) (c : Cfg) (pt pw : List Byte) : Option (List Stmt) :=
  if pt = [] then some [] else (encryptB64 p pt pw).map fun script => standardAlphabet c ++ script

/-- `DECRYPT` without suffix, on a block configured as `c`: the `.B64` form under the standard alphabet (30_encoding.md
R98, 45_api_sequences.md R200).  An empty text issues nothing (R205). -/
def decryptDefault (p : Config.Params) (c : Cfg) (tx pw : List Byte) : Option (List Stmt) :=
  if tx = [] then some [] else (decryptB64 p tx pw).map fun script => standardAlphabet c ++ script

/-- `rd V[0] ... rd V[n-1]` (45_api_sequences.md R201). -/
def readWords (n : Nat) : List Stmt := (List.range n).map fun i => .rd (.vCell i)

/-- `rd B[0] ... rd B[n-1]` (45_api_sequences.md R202, R204). -/
def readBytes (n : Nat) : List Stmt := (List.range n).map fun i => .rd (.bCell i)

/-- `rd T[0] ... rd T[n-1]` (45_api_sequences.md R203). -/
def readText (n : Nat) : List Stmt := (List.range n).map fun i => .rd (.tCell i)

end Sys2Proof.Machine
end

