-- ==== Sys2Proof/Safety.lean ====
section
/-! DEFINITION. What counts as a well-formed block and a safe state, in the terms the statements use. -/

namespace Sys2Proof.Machine

/-- Which command word a fault of a cause can come from (60_exceptions.md R220, column "raised by"; under 00_scope.md R7
only `B64D` raises `Capacity`, R225). -/
def Cause.raisedBy (c : Cause) (cmd : Word) : Bool :=
  match c with
  | .invalidLength => cmd == encode .b64d
  | .invalidPadding => cmd == encode .b64d
  | .invalidCharacter => cmd == encode .b64d
  | .emptyKey => cmd == encode .keynorm
  | .capacity => cmd == encode .b64d
  | .illegalCommand => match decode cmd with
    | .ok _ => false
    | .error _ => true
  | .wordLength => cmd == encode .deser

/-- The fault registers agree with each other: all 0 while READY (10_state.md R30 to R33); while FAULTED they name one
cause, its class and a command word that can raise it (60_exceptions.md R220, R230). -/
def Block.faultWf (b : Block) : Bool :=
  if b.status.err then
    match Cause.ofCode b.errCode with
    | some c => c.eclass == b.status.eclass && c.raisedBy b.errCmd
    | none => false
  else b.status.eclass == false && b.errCode == 0 && b.errInfo == 0 && b.errCmd == 0

/-- The lengths are within the capacities (10_state.md R23). -/
def Block.lengthsWf (b : Block) : Bool :=
  decide (b.n.toNat ≤ b.params.nmax) && decide (b.blen.toNat ≤ b.params.bmax) && decide (b.tlen.toNat ≤ b.params.tmax)

/-- The memories are in canonical form, with no cell at or above a capacity (60_exceptions.md R225). -/
def Block.memoriesWf (b : Block) : Bool :=
  b.v.wf b.params.nmax && b.b.wf b.params.bmax && b.t.wf b.params.tmax

/-- A well-formed block: legal parameters (00_scope.md R7), lengths, memories and fault registers. -/
def Block.wf (b : Block) : Bool := b.params.wellFormed && b.lengthsWf && b.memoriesWf && b.faultWf

/-- Parameters within the limits of 00_scope.md R7. -/
abbrev Block.WfParams (b : Block) : Prop := b.params.wellFormed = true

/-- The invariant of the machine. -/
abbrev State.Inv (s : State) : Prop := s.block.wf = true

/-- READY: a write to `CMD` executes (60_exceptions.md R240). -/
abbrev State.Ready (s : State) : Prop := s.block.status.err = false

/-- FAULTED: a write to `CMD` is dropped (60_exceptions.md R240). -/
abbrev State.Faulted (s : State) : Prop := s.block.status.err = true

/-! ### Terms of the statements -/

/-- Byte `j` of `B[0..BLEN)` followed by sentinels without end: what `pack` groups (40_block_packer.md R110). -/
def Block.paddedByte (b : Block) (j : Nat) : Byte := if j < b.blen.toNat then b.b.read j else Config.padByte

/-- Word `i` of the packed `B[0..BLEN)`, 0 where it has none (40_block_packer.md R110, 41_key_normalizer.md R130). -/
def Block.packedWord (b : Block) (i : Nat) : Word :=
  if 4 * i < b.blen.toNat then
    wordOfBytes (b.paddedByte (4 * i)) (b.paddedByte (4 * i + 1)) (b.paddedByte (4 * i + 2)) (b.paddedByte (4 * i + 3))
  else 0

/-- The key that `B[0..BLEN)` normalizes to (41_key_normalizer.md R130). -/
def Block.passwordKey (b : Block) : Key :=
  { k0 := b.packedWord 0, k1 := b.packedWord 1, k2 := b.packedWord 2, k3 := b.packedWord 3 }

/-- Byte `j` of the expanded `V[0..N)` (20_memory.md R61, 40_block_packer.md R111). -/
def Block.serialByte (b : Block) (j : Nat) : Byte := byteOfWord (b.v.read (j / 4)) (j % 4)

/-- Byte `j` of `B[0..BLEN)` followed by zeros: the bits a final partial chunk lacks are 0 (43_base64_codec.md R172). -/
def Block.chunkByte (b : Block) (j : Nat) : Byte := if j < b.blen.toNat then b.b.read j else 0

/-- Symbol `j` of `T[0..TLEN)` is not offending (43_base64_codec.md R175): a `=` at the last index, or at the last but
one before a `=`; or a code of the current alphabet. -/
abbrev Block.symbolLegal (b : Block) (j : Nat) : Prop :=
  (b.t.read j = Config.b64Pad → j + 1 = b.tlen.toNat ∨ (j + 2 = b.tlen.toNat ∧ b.t.read (j + 1) = Config.b64Pad)) ∧
    (b.t.read j ≠ Config.b64Pad → b.cfg.alph.val (b.t.read j) ≠ none)

/-- `pads`: the number of `=` among the last two symbols of `T[0..TLEN)` (43_base64_codec.md R175). -/
def Block.textPads (b : Block) : Nat :=
  (if 1 ≤ b.tlen.toNat ∧ b.t.read (b.tlen.toNat - 1) = Config.b64Pad then 1 else 0) +
    (if 2 ≤ b.tlen.toNat ∧ b.t.read (b.tlen.toNat - 2) = Config.b64Pad then 1 else 0)

/-- `need`: the length of the bytes `T[0..TLEN)` decodes to (43_base64_codec.md R178). -/
def Block.textNeed (b : Block) : Nat := 3 * (b.tlen.toNat / 4) - b.textPads

/-- The 24-bit group `i` of `T[0..TLEN)`, a `=` counting as 0 (43_base64_codec.md R176). -/
def Block.textGroup (b : Block) (i : Nat) : BitVec 24 :=
  groupOfValues (b.cfg.alph.valD (b.t.read (4 * i))) (b.cfg.alph.valD (b.t.read (4 * i + 1)))
    (b.cfg.alph.valD (b.t.read (4 * i + 2))) (b.cfg.alph.valD (b.t.read (4 * i + 3)))

/-- Two blocks that agree on everything a command can see: the registers and the cells below the length registers
(10_state.md R38). -/
abbrev Block.AgreesBelow (a b : Block) : Prop :=
  a.params = b.params ∧ a.k = b.k ∧ a.cfg = b.cfg ∧ a.status = b.status ∧ a.errCode = b.errCode ∧
    a.errInfo = b.errInfo ∧ a.errCmd = b.errCmd ∧ a.n = b.n ∧ a.blen = b.blen ∧ a.tlen = b.tlen ∧
    (∀ i < b.n.toNat, a.v.read i = b.v.read i) ∧ (∀ i < b.blen.toNat, a.b.read i = b.b.read i) ∧
    (∀ i < b.tlen.toNat, a.t.read i = b.t.read i)

/-- The commands of a list, one after the other. -/
def execAll : List Instr → State → Host.Outcome State Fault Refusal
  | [], s => .next s
  | i :: rest, s =>
    match exec i s with
    | .next t => execAll rest t
    | .fault r => .fault r
    | .refused r => .refused r

/-- An access of the block's interface (20_memory.md R64), or reset. -/
def HostAccess.inInterface : HostAccess → Bool
  | .read off bytes => (accessRefusal off bytes).isNone
  | .write off bytes _ => (accessRefusal off bytes).isNone
  | .reset => true

/-- A safe state: well formed, and every access the host still has to make is one of the interface's. -/
abbrev State.Safe (s : State) : Prop := s.Inv ∧ s.pending.all HostAccess.inInterface = true

end Sys2Proof.Machine
end

