-- ==== Sys2Proof/Certificates/Slice0/Obligations.lean ====
section
/-! DEFINITION. The statements for the provers.  `s.Inv` is the invariant of Safety.lean, itself the subject of
`ResetStateIsWellFormed` and `StepKeepsInvariant`; `s.Ready` is READY and `s.Faulted` FAULTED (60_exceptions.md R240). -/

open Sys2Proof Sys2Proof.Machine

/-! ### System commands -/

/-- R190: `NOP` changes no state at all. -/
def Obligations.NopChangesNothing : Prop :=
  decode 0x00000000#32 = .ok .nop ∧ ∀ s : State, exec .nop s = .next s

/-- R191: `CLR` zeroes the key, every cell and the lengths, so that the data state is the reset state; `CFG` and the fault
registers are not changed, and a FAULTED block drops it. -/
def Obligations.ClrRestoresResetData : Prop :=
  decode 0x00000001#32 = .ok .clr ∧
  (∀ s : State, s.Inv → s.Ready →
    exec .clr s = .next { s with block := { Block.reset s.block.params with
      cfg := s.block.cfg, status := s.block.status, errCode := s.block.errCode, errInfo := s.block.errInfo,
      errCmd := s.block.errCmd } }) ∧
  (∀ s : State, s.Faulted → exec .clr s = .next s)

/-! ### Block Packer -/

/-- R112, R110: `PACK` completes; `N` becomes `max(1, ceil(BLEN/4))`; word `i` is made of the bytes `4i .. 4i+3` of the
buffer followed by sentinels, the empty buffer giving one zero word; cells from the new `N` on and all other state are
unchanged. -/
def Obligations.PackWritesPaddedWords : Prop :=
  decode 0x00000010#32 = .ok .pack ∧ ∀ s : State, s.Inv → s.Ready → ∃ t : State, exec .pack s = .next t ∧
    t = { s with block := { s.block with v := t.block.v, n := t.block.n } } ∧
    t.block.n.toNat = max 1 ((s.block.blen.toNat + 3) / 4) ∧
    (∀ i < t.block.n.toNat, t.block.v.read i = s.block.packedWord i) ∧
    (∀ i, t.block.n.toNat ≤ i → t.block.v.read i = s.block.v.read i)

/-- R114, R111: `UNPACK` completes; `BLEN` becomes the least index whose expanded byte is the sentinel, or `4N` if there
is none; the bytes below it are written, and cells from the new `BLEN` on and all other state are unchanged. -/
def Obligations.UnpackCutsAtFirstSentinel : Prop :=
  decode 0x00000011#32 = .ok .unpack ∧ ∀ s : State, s.Inv → s.Ready → ∃ t : State, exec .unpack s = .next t ∧
    t = { s with block := { s.block with b := t.block.b, blen := t.block.blen } } ∧
    t.block.blen.toNat ≤ 4 * s.block.n.toNat ∧
    (∀ j < t.block.blen.toNat, t.block.b.read j = s.block.serialByte j ∧ s.block.serialByte j ≠ 0x03#8) ∧
    (t.block.blen.toNat < 4 * s.block.n.toNat → s.block.serialByte t.block.blen.toNat = 0x03#8) ∧
    (∀ j, t.block.blen.toNat ≤ j → t.block.b.read j = s.block.b.read j)

/-- R116: `SER` completes; `BLEN` becomes `4N` and byte `j` is byte `j mod 4` of word `j div 4`; cells from the new `BLEN`
on and all other state are unchanged. -/
def Obligations.SerExpandsEveryWord : Prop :=
  decode 0x00000013#32 = .ok .ser ∧ ∀ s : State, s.Inv → s.Ready → ∃ t : State, exec .ser s = .next t ∧
    t = { s with block := { s.block with b := t.block.b, blen := t.block.blen } } ∧
    t.block.blen.toNat = 4 * s.block.n.toNat ∧
    (∀ j < 4 * s.block.n.toNat, t.block.b.read j = s.block.serialByte j) ∧
    (∀ j, 4 * s.block.n.toNat ≤ j → t.block.b.read j = s.block.b.read j)

/-- R118, R227: `DESER` of a whole number of words completes; `N` becomes `BLEN / 4` and word `i` is made of the bytes
`4i .. 4i+3`, little-endian; cells from the new `N` on and all other state are unchanged.  When `BLEN` is no multiple of
4 it raises `WordLength` with `BLEN`, and nothing else changes. -/
def Obligations.DeserGroupsWholeWords : Prop :=
  decode 0x00000014#32 = .ok .deser ∧
  (∀ s : State, s.Inv → s.Ready → s.block.blen.toNat % 4 = 0 → ∃ t : State, exec .deser s = .next t ∧
    t = { s with block := { s.block with v := t.block.v, n := t.block.n } } ∧
    t.block.n.toNat = s.block.blen.toNat / 4 ∧
    (∀ i < s.block.blen.toNat / 4, t.block.v.read i =
      wordOfBytes (s.block.b.read (4 * i)) (s.block.b.read (4 * i + 1)) (s.block.b.read (4 * i + 2))
        (s.block.b.read (4 * i + 3))) ∧
    (∀ i, s.block.blen.toNat / 4 ≤ i → t.block.v.read i = s.block.v.read i)) ∧
  (∀ s : State, s.Ready → s.block.blen.toNat % 4 ≠ 0 →
    exec .deser s = .next { s with block := { s.block with
      status := { err := true, eclass := false }, errCode := 7, errInfo := s.block.blen, errCmd := 0x14#32 } })

/-- R115, R112, R116, R118; the inverse laws rest on the sentence "`deser(ser(w)) = w` for every `w` and `ser(deser(b))
= b` for every `b` of length a multiple of 4", which the spec marks as derived from R61.  `deser` groups bytes
little-endian, the empty sequence into the empty one; it is inverse to `ser`, and is `pack` on a non-zero multiple of 4
bytes.  So `DESER` after `SER` restores `V` and `N`, `SER` after `DESER` restores `B` and `BLEN`, and `DESER` does what
`PACK` does when `BLEN` is a non-zero multiple of 4. -/
def Obligations.SerAndDeserAreInverse : Prop :=
  (∀ x : List Byte, x.length % 4 = 0 → (deser x).length = x.length / 4 ∧ ser (deser x) = x ∧
    (x.length ≠ 0 → deser x = pack x) ∧
    ∀ i < x.length / 4, (deser x).getD i 0 =
      wordOfBytes (x.getD (4 * i) 0) (x.getD (4 * i + 1) 0) (x.getD (4 * i + 2) 0) (x.getD (4 * i + 3) 0)) ∧
  (∀ w : List Word, deser (ser w) = w) ∧
  ∀ s : State, s.Inv → s.Ready →
    (∃ t : State, exec .ser s = .next t ∧ exec .deser t = .next t) ∧
    (s.block.blen.toNat % 4 = 0 → ∃ t : State, exec .deser s = .next t ∧ exec .ser t = .next t) ∧
    (s.block.blen.toNat % 4 = 0 → s.block.blen.toNat ≠ 0 → exec .deser s = exec .pack s)

/-- R113, R112, R114; it rests on the sentence "`unpack(pack(b)) = b` holds exactly when `b` is not empty and no byte of
`b` is `0x03`", which the spec marks as derived from R110 and R111.  `unpack` after `pack` restores the bytes exactly
when they are not empty and hold no sentinel; it cuts them before their first sentinel; and it turns the empty sequence,
packed as one zero word, into four zero bytes.  The same of `UNPACK` after `PACK` on the buffer. -/
def Obligations.UnpackInvertsPackExactly : Prop :=
  (∀ x : List Byte, (unpack (pack x) = x ↔ x ≠ [] ∧ 0x03#8 ∉ x) ∧
    (x ≠ [] → unpack (pack x) = x.takeWhile fun c => c ≠ 0x03#8) ∧
    (x = [] → pack x = [0x00000000#32] ∧ unpack (pack x) = [0x00#8, 0x00#8, 0x00#8, 0x00#8])) ∧
  ∀ s : State, s.Inv → s.Ready → ∃ t u : State, exec .pack s = .next t ∧ exec .unpack t = .next u ∧
    (u.block.bytes = s.block.bytes ↔ s.block.bytes ≠ [] ∧ 0x03#8 ∉ s.block.bytes) ∧
    (s.block.bytes ≠ [] → u.block.bytes = s.block.bytes.takeWhile fun c => c ≠ 0x03#8) ∧
    (s.block.bytes = [] → u.block.bytes = [0x00#8, 0x00#8, 0x00#8, 0x00#8])

/-- R61: the byte with the lowest index is the least significant, both ways. -/
def Obligations.WordsAreLittleEndian : Prop :=
  (∀ b0 b1 b2 b3 : Byte, (wordOfBytes b0 b1 b2 b3).toNat =
    b0.toNat + 256 * b1.toNat + 65536 * b2.toNat + 16777216 * b3.toNat) ∧
  (∀ (w : Word) (j : Nat), (byteOfWord w j).toNat = w.toNat / 2 ^ (8 * j) % 256)

/-! ### Key Normalizer -/

/-- R131, R130: when the check is off or some key word is not 0, `KEYNORM` completes and `K` becomes the first four words
of the packed password, zero words where it has fewer; nothing else changes.  When the check is on and the normalized key
is all zero it raises `EmptyKey` with `BLEN`, and nothing else changes. -/
def Obligations.KeynormLoadsFourWords : Prop :=
  decode 0x00000012#32 = .ok .keynorm ∧
  (∀ s : State, s.Ready → (s.block.cfg.keychk = true → s.block.passwordKey ≠ Key.zero) →
    exec .keynorm s = .next { s with block := { s.block with k := s.block.passwordKey } }) ∧
  (∀ s : State, s.Ready → s.block.cfg.keychk = true → s.block.passwordKey = Key.zero →
    exec .keynorm s = .next { s with block := { s.block with
      status := { err := true, eclass := true }, errCode := 4, errInfo := s.block.blen, errCmd := 0x12#32 } })

/-- R132: only the first 16 bytes of a password of 16 bytes or more matter. -/
def Obligations.KeyIgnoresBytesFromSixteen : Prop :=
  ∀ s s' : State, s.Ready → s'.Ready → 16 ≤ s.block.blen.toNat → 16 ≤ s'.block.blen.toNat →
    (∀ j < 16, s.block.b.read j = s'.block.b.read j) → s.block.cfg.keychk = s'.block.cfg.keychk →
    ∃ t t' : State, exec .keynorm s = .next t ∧ exec .keynorm s' = .next t' ∧
      t.block.status.err = t'.block.status.err ∧ (t.Ready → t.block.k = t'.block.k)

/-! ### Mixing Engine -/

/-- R141: the mixing function in natural numbers: shifts fill with zeros, left shifts and additions are modulo 2^32, the
key index is `(p & 3) ^ e`; and the `e` of a round is bits 3:2 of its `sum` (R142). -/
def Obligations.MixingFunctionWraps : Prop :=
  (∀ sum : Word, (keyModifier sum).toNat = sum.toNat / 4 % 4) ∧
  ∀ (sum y z : Word) (p : Nat) (e : BitVec 2) (k : Key),
    (mx sum y z p e k).toNat =
      ((((z.toNat / 2 ^ 5) ^^^ (y.toNat * 2 ^ 2 % 2 ^ 32)) + ((y.toNat / 2 ^ 3) ^^^ (z.toNat * 2 ^ 4 % 2 ^ 32))) %
        2 ^ 32) ^^^
      (((sum.toNat ^^^ y.toNat) + ([k.k0, k.k1, k.k2, k.k3].getD ((p % 4) ^^^ e.toNat) 0 ^^^ z).toNat) % 2 ^ 32)

/-- R144: `q *32 DELTA` is not 0 for `0 < q < 2^32`.  After `j` steps of decode (R152), `n` to a round, its `sum` is
`(rounds - j div n) *32 DELTA`, so it is 0 after all its rounds and at no step before; after `j` steps of encode its `sum`
is `(j div n + 1) *32 DELTA`, the one of the round the next step belongs to.  That the last step of a round already does
the `sum` of the next one is the model's choice (log 21). -/
def Obligations.RunningSumNeverZeroEarly : Prop :=
  (∀ q : Nat, 0 < q → q < 2 ^ 32 → BitVec.ofNat 32 q * Config.delta ≠ 0) ∧
  (∀ (v : List Word) (k : Key) (base : BitVec 8) (j : Nat), 2 ≤ v.length →
    j ≤ roundCount base v.length * v.length →
    let sum := (EngineRegs.steps (EngineRegs.decodeNext k) j (EngineRegs.decodeStart v base)).sum
    sum = BitVec.ofNat 32 (roundCount base v.length - j / v.length) * Config.delta ∧
    (sum = 0 ↔ j = roundCount base v.length * v.length)) ∧
  (∀ (v : List Word) (k : Key) (j : Nat), 2 ≤ v.length →
    (EngineRegs.steps (EngineRegs.encodeNext k) j (EngineRegs.encodeStart v)).sum =
      BitVec.ofNat 32 (j / v.length + 1) * Config.delta)

/-- R143: the round count for every length from 2 on: the formula, the table for the reset value of `ROUNDS_BASE`, and
the largest value; with `ROUNDS_BASE = 0` and 53 words or more there is no round and both transforms are the identity. -/
def Obligations.RoundCountTable : Prop :=
  (∀ (base : BitVec 8) (n : Nat), 2 ≤ n → roundCount base n = base.toNat + 52 / n ∧ roundCount base n ≤ 281) ∧
  ([2, 3, 4, 5, 6, 7, 8, 9, 11, 14, 18, 27, 53].map (roundCount 6) = [32, 23, 19, 16, 14, 13, 12, 11, 10, 9, 8, 7, 6]) ∧
  (∀ s : State, s.Inv → s.Ready → s.block.cfg.roundsBase = 0 → 53 ≤ s.block.n.toNat →
    exec .xenc s = .next s ∧ exec .xdec s = .next s)

/-- R148, R152: `XENC` completes; on the empty sequence it changes nothing; else `N` becomes `max(N, 2)`, and the words
are those of `rounds * n` steps of encode on the sequence, a zero word put after a single one; cells from the new `N` on
and all other state are unchanged. -/
def Obligations.XencRunsEncodeSteps : Prop :=
  decode 0x00000020#32 = .ok .xenc ∧ ∀ s : State, s.Inv → s.Ready → ∃ t : State, exec .xenc s = .next t ∧
    t = { s with block := { s.block with v := t.block.v, n := t.block.n } } ∧
    (s.block.n = 0 → t = s) ∧
    (s.block.n ≠ 0 → t.block.n.toNat = max 2 s.block.n.toNat ∧
      t.block.words = (EngineRegs.steps (EngineRegs.encodeNext s.block.k)
        (roundCount s.block.cfg.roundsBase t.block.n.toNat * t.block.n.toNat)
        (EngineRegs.encodeStart (s.block.words ++ List.replicate (2 - s.block.n.toNat) 0))).v) ∧
    (∀ i, t.block.n.toNat ≤ i → t.block.v.read i = s.block.v.read i)

/-- R149, R152: `XDEC` completes; on the empty sequence it changes nothing; else `N` becomes `max(N, 2)`, and the words
are those of `rounds * n` steps of decode on the sequence, a zero word put after a single one; cells from the new `N` on
and all other state are unchanged. -/
def Obligations.XdecRunsDecodeSteps : Prop :=
  decode 0x00000021#32 = .ok .xdec ∧ ∀ s : State, s.Inv → s.Ready → ∃ t : State, exec .xdec s = .next t ∧
    t = { s with block := { s.block with v := t.block.v, n := t.block.n } } ∧
    (s.block.n = 0 → t = s) ∧
    (s.block.n ≠ 0 → t.block.n.toNat = max 2 s.block.n.toNat ∧
      t.block.words = (EngineRegs.steps (EngineRegs.decodeNext s.block.k)
        (roundCount s.block.cfg.roundsBase t.block.n.toNat * t.block.n.toNat)
        (EngineRegs.decodeStart (s.block.words ++ List.replicate (2 - s.block.n.toNat) 0)
          s.block.cfg.roundsBase)).v) ∧
    (∀ i, t.block.n.toNat ≤ i → t.block.v.read i = s.block.v.read i)

/-- R150: decode and encode are inverse on every sequence of two words or more.  The clauses for no word and for one word
rest on the sentence "`XDEC` after `XENC` restores an empty sequence trivially, and turns `[x]` into `[x, 0]`", which the
spec marks as derived from R145, R146 and R147.  On two words or more, `XDEC` after
`XENC` gives back the whole state, and so does `XENC` after `XDEC`; on the empty sequence both change nothing; on one
word, `XDEC` after `XENC` gives that word and a zero word. -/
def Obligations.DecodeIsExactInverse : Prop :=
  (∀ (v : List Word) (k : Key) (base : BitVec 8), 2 ≤ v.length →
    xxteaDecode (xxteaEncode v k base) k base = v ∧ xxteaEncode (xxteaDecode v k base) k base = v) ∧
  ∀ s : State, s.Inv → s.Ready →
    (2 ≤ s.block.n.toNat →
      (∃ t : State, exec .xenc s = .next t ∧ exec .xdec t = .next s) ∧
      (∃ t : State, exec .xdec s = .next t ∧ exec .xenc t = .next s)) ∧
    (s.block.n = 0 → exec .xenc s = .next s ∧ exec .xdec s = .next s) ∧
    (s.block.n = 1 → ∃ t u : State, exec .xenc s = .next t ∧ exec .xdec t = .next u ∧
      u = { s with block := { s.block with v := u.block.v, n := 2 } } ∧
      u.block.v.read 0 = s.block.v.read 0 ∧ u.block.v.read 1 = 0 ∧
      (∀ i, 2 ≤ i → u.block.v.read i = s.block.v.read i))

/-! ### Base64 Codec -/

/-- R170: the symbols of both alphabets by value; `val` is defined for those 64 codes only and is their inverse; `=` is in
neither alphabet. -/
def Obligations.SymbolTable : Prop :=
  (∀ (a : Alphabet) (s : BitVec 6),
    (s.toNat ≤ 25 → (a.sym s).toNat = 0x41 + s.toNat) ∧
    (26 ≤ s.toNat → s.toNat ≤ 51 → (a.sym s).toNat = 0x61 + (s.toNat - 26)) ∧
    (52 ≤ s.toNat → s.toNat ≤ 61 → (a.sym s).toNat = 0x30 + (s.toNat - 52)) ∧
    (s = 62 → a.sym s = if a = .standard then 0x2B#8 else 0x2D#8) ∧
    (s = 63 → a.sym s = if a = .standard then 0x2F#8 else 0x5F#8)) ∧
  (∀ (a : Alphabet) (c : Byte) (s : BitVec 6), a.val c = some s ↔ c = a.sym s) ∧
  (∀ a : Alphabet, a.val 0x3D#8 = none)

/-- R62: a group of three bytes is taken most significant first, and its slices from the top. -/
def Obligations.GroupsAreMostSignificantFirst : Prop :=
  (∀ b0 b1 b2 : Byte, (groupOfBytes b0 b1 b2).toNat = 65536 * b0.toNat + 256 * b1.toNat + b2.toNat) ∧
  (∀ (g : BitVec 24) (j : Nat), j < 4 → (groupSlice g j).toNat = g.toNat / 64 ^ (3 - j) % 64) ∧
  (∀ s0 s1 s2 s3 : BitVec 6, (groupOfValues s0 s1 s2 s3).toNat =
    262144 * s0.toNat + 4096 * s1.toNat + 64 * s2.toNat + s3.toNat)

/-- R174, R172, R173: `B64E` completes; `TLEN` becomes `4 * ceil(BLEN/3)`; the symbols of chunk `i` are those of the four
slices of its 24 bits, top slice first, missing bits 0; a chunk of one byte ends in two `=`, one of two bytes in one `=`;
cells from the new `TLEN` on and all other state are unchanged. -/
def Obligations.B64eEmitsSymbols : Prop :=
  decode 0x00000030#32 = .ok .b64e ∧ ∀ s : State, s.Inv → s.Ready → ∃ t : State, exec .b64e s = .next t ∧
    t = { s with block := { s.block with t := t.block.t, tlen := t.block.tlen } } ∧
    t.block.tlen.toNat = 4 * ((s.block.blen.toNat + 2) / 3) ∧
    (∀ i, 3 * i < s.block.blen.toNat →
      let g := groupOfBytes (s.block.chunkByte (3 * i)) (s.block.chunkByte (3 * i + 1)) (s.block.chunkByte (3 * i + 2))
      t.block.t.read (4 * i) = s.block.cfg.alph.sym (g.extractLsb' 18 6) ∧
      t.block.t.read (4 * i + 1) = s.block.cfg.alph.sym (g.extractLsb' 12 6) ∧
      t.block.t.read (4 * i + 2) =
        (if 3 * i + 1 < s.block.blen.toNat then s.block.cfg.alph.sym (g.extractLsb' 6 6) else 0x3D#8) ∧
      t.block.t.read (4 * i + 3) =
        (if 3 * i + 2 < s.block.blen.toNat then s.block.cfg.alph.sym (g.extractLsb' 0 6) else 0x3D#8)) ∧
    (∀ i, t.block.tlen.toNat ≤ i → t.block.t.read i = s.block.t.read i)

/-- R178, R176: `B64D` of a text whose length is a multiple of 4, with no offending symbol and a result that fits,
completes; `BLEN` becomes `3 * (TLEN div 4) - pads`, byte `i` is byte `i mod 3` of the 24 bits of group `i div 3`, most
significant first; cells from the new `BLEN` on and all other state are unchanged. -/
def Obligations.B64dRecoversBytes : Prop :=
  ∀ s : State, s.Inv → s.Ready → s.block.tlen.toNat % 4 = 0 → (∀ j < s.block.tlen.toNat, s.block.symbolLegal j) →
    s.block.textNeed ≤ s.block.params.bmax → ∃ t : State, exec .b64d s = .next t ∧
    t = { s with block := { s.block with b := t.block.b, blen := t.block.blen } } ∧
    t.block.blen.toNat = s.block.textNeed ∧
    (∀ i < s.block.textNeed,
      t.block.b.read i = (s.block.textGroup (i / 3)).extractLsb' (16 - 8 * (i % 3)) 8) ∧
    (∀ i, s.block.textNeed ≤ i → t.block.b.read i = s.block.b.read i)

/-- R221: `B64D` raises `InvalidLength` with `TLEN` when `TLEN` is no multiple of 4, whatever the symbols are.  R222,
R223: with a length that is a multiple of 4, the first offending symbol decides and its index is recorded:
`InvalidPadding` at a misplaced `=`, `InvalidCharacter` at a code outside the alphabet.  Nothing else changes. -/
def Obligations.B64dReportsFirstOffender : Prop :=
  (∀ s : State, s.Ready → s.block.tlen.toNat % 4 ≠ 0 →
    exec .b64d s = .next { s with block := { s.block with
      status := { err := true, eclass := false }, errCode := 1, errInfo := s.block.tlen, errCmd := 0x31#32 } }) ∧
  (∀ (s : State) (j : Nat), s.Ready → s.block.tlen.toNat % 4 = 0 → j < s.block.tlen.toNat →
    (∀ i < j, s.block.symbolLegal i) → ¬ s.block.symbolLegal j →
    exec .b64d s = .next { s with block := { s.block with
      status := { err := true, eclass := false },
      errCode := if s.block.t.read j = 0x3D#8 then 2 else 3,
      errInfo := BitVec.ofNat 32 j, errCmd := 0x31#32 } })

/-- R225, R178: a text that passes the checks and needs more than `BMAX` bytes raises `Capacity` with the length it would
need, which is then `BMAX + 1` or `BMAX + 2`; nothing else changes. -/
def Obligations.B64dRaisesCapacity : Prop :=
  ∀ s : State, s.Inv → s.Ready → s.block.tlen.toNat % 4 = 0 → (∀ j < s.block.tlen.toNat, s.block.symbolLegal j) →
    s.block.params.bmax < s.block.textNeed →
    (s.block.textNeed = s.block.params.bmax + 1 ∨ s.block.textNeed = s.block.params.bmax + 2) ∧
    exec .b64d s = .next { s with block := { s.block with
      status := { err := true, eclass := true }, errCode := 5,
      errInfo := BitVec.ofNat 32 s.block.textNeed, errCmd := 0x31#32 } }

/-- R179: what `b64encode` gives passes the check and decodes to the same bytes.  `B64E` followed by `B64D` under the same
alphabet completes without fault and restores `B` and `BLEN`: `B64E` leaves them, `B64D` then changes nothing, and `B64D`
brings the bytes back whatever legal contents `B` and `BLEN` have been given in between. -/
def Obligations.B64dInvertsB64e : Prop :=
  (∀ (a : Alphabet) (x : List Byte), b64Check a (b64Encode a x) = none ∧ b64Decode a (b64Encode a x) = x) ∧
  ∀ s : State, s.Inv → s.Ready → ∃ t : State, exec .b64e s = .next t ∧ t.Ready ∧
    t.block.b = s.block.b ∧ t.block.blen = s.block.blen ∧ exec .b64d t = .next t ∧
    ∀ (b : Memory 8) (blen : Word),
      let u : State := { t with block := { t.block with b := b, blen := blen } }
      u.Inv → ∃ w : State, exec .b64d u = .next w ∧
        w = { u with block := { u.block with b := w.block.b, blen := s.block.blen } } ∧
        w.block.bytes = s.block.bytes

/-- R179: text encoded under one alphabet and decoded under the other faults with `InvalidCharacter` at its first symbol
of value 62 or 63, and decodes as it was encoded if it has none. -/
def Obligations.OtherAlphabetIsRejected : Prop :=
  ∀ (s : State) (other : Alphabet), s.Inv → s.Ready → other ≠ s.block.cfg.alph →
    ∃ t : State, exec .b64e s = .next t ∧
    let u : State := { t with block := { t.block with cfg := { t.block.cfg with alph := other } } }
    let special : Nat → Prop := fun j =>
      s.block.cfg.alph.val (t.block.t.read j) = some 62 ∨ s.block.cfg.alph.val (t.block.t.read j) = some 63
    ((∀ j < t.block.tlen.toNat, ¬ special j) → exec .b64d u = .next u) ∧
    (∀ j < t.block.tlen.toNat, special j → (∀ i < j, ¬ special i) →
      exec .b64d u = .next { u with block := { u.block with
        status := { err := true, eclass := false }, errCode := 3, errInfo := BitVec.ofNat 32 j, errCmd := 0x31#32 } })

/-- R177: the unused low bits of a final group do not fault and do not matter: two texts that differ only there pass the
check together and decode to the same bytes. -/
def Obligations.UnusedBitsAreIgnored : Prop :=
  (∀ (a : Alphabet) (t : List Byte) (c0 c1 c1' : Byte) (s1 s1' : BitVec 6), a.val c1 = some s1 → a.val c1' = some s1' →
    s1.toNat / 16 = s1'.toNat / 16 →
    b64Check a (t ++ [c0, c1, 0x3D#8, 0x3D#8]) = b64Check a (t ++ [c0, c1', 0x3D#8, 0x3D#8]) ∧
    (b64Check a (t ++ [c0, c1, 0x3D#8, 0x3D#8]) = none →
      b64Decode a (t ++ [c0, c1, 0x3D#8, 0x3D#8]) = b64Decode a (t ++ [c0, c1', 0x3D#8, 0x3D#8]))) ∧
  (∀ (a : Alphabet) (t : List Byte) (c0 c1 c2 c2' : Byte) (s2 s2' : BitVec 6), a.val c2 = some s2 →
    a.val c2' = some s2' → s2.toNat / 4 = s2'.toNat / 4 →
    b64Check a (t ++ [c0, c1, c2, 0x3D#8]) = b64Check a (t ++ [c0, c1, c2', 0x3D#8]) ∧
    (b64Check a (t ++ [c0, c1, c2, 0x3D#8]) = none →
      b64Decode a (t ++ [c0, c1, c2, 0x3D#8]) = b64Decode a (t ++ [c0, c1, c2', 0x3D#8])))

/-! ### Faults -/

/-- R233: while FAULTED a write of any value to `CMD` changes no state whatever: the access is consumed and the block
stays as it is. -/
def Obligations.FaultedBlockDropsCommands : Prop :=
  ∀ (s : State) (w : Word) (rest : List HostAccess), s.Faulted → s.pending = .write 0x008 4 w :: rest →
    step s = .next { s with pending := rest }

/-- R226, R228: a word that is none of the eleven command words, written to `CMD` while READY, raises `IllegalCommand`
with that word recorded, and nothing else in the block changes. -/
def Obligations.IllegalWordRaisesFault : Prop :=
  ∀ (s : State) (w : Word) (rest : List HostAccess), s.Ready → s.pending = .write 0x008 4 w :: rest →
    w ∉ [0x00#32, 0x01#32, 0x10#32, 0x11#32, 0x12#32, 0x13#32, 0x14#32, 0x20#32, 0x21#32, 0x30#32, 0x31#32] →
    step s = .next { s with
      pending := rest,
      block := { s.block with
        status := { err := true, eclass := true }, errCode := 6, errInfo := 0, errCmd := w } }

/-- R234: a write to `STATUS` with bit 0 set clears the five fault fields and nothing else; R30: with bit 0 clear it has
no effect. -/
def Obligations.AckClearsFaultRecord : Prop :=
  ∀ (s : State) (v : Word) (rest : List HostAccess), s.pending = .write 0x00C 4 v :: rest →
    (v.toNat % 2 = 1 → step s = .next { s with
      pending := rest,
      block := { s.block with status := { err := false, eclass := false }, errCode := 0, errInfo := 0, errCmd := 0 } }) ∧
    (v.toNat % 2 = 0 → step s = .next { s with pending := rest })

/-- R229: the state after a fault is the state before the command except the five fault fields; R220: `ERRCMD` records
the command word. -/
def Obligations.FaultsArePrecise : Prop :=
  ∀ (i : Instr) (s t : State), s.Ready → exec i s = .next t → t.Faulted →
    t = { s with block := { s.block with
      status := t.block.status, errCode := t.block.errCode, errInfo := t.block.errInfo, errCmd := encode i } }

/-- R220: on a well-formed state only `B64D`, `KEYNORM` and `DESER` fault, each with its own codes and class. -/
def Obligations.OnlyThreeCommandsFault : Prop :=
  ∀ (i : Instr) (s t : State), s.Inv → s.Ready → exec i s = .next t → t.Faulted →
    (i = .b64d ∧ (t.block.errCode = 1 ∨ t.block.errCode = 2 ∨ t.block.errCode = 3) ∧ t.block.status.eclass = false) ∨
    (i = .b64d ∧ t.block.errCode = 5 ∧ t.block.status.eclass = true) ∨
    (i = .keynorm ∧ t.block.errCode = 4 ∧ t.block.status.eclass = true) ∨
    (i = .deser ∧ t.block.errCode = 7 ∧ t.block.status.eclass = false)

/-- R240: the block leaves READY only by a write to `CMD`, and leaves FAULTED only by an acknowledge or by reset. -/
def Obligations.ModeChangesOnlyAsStated : Prop :=
  ∀ s t : State, step s = .next t →
    (s.Ready → t.Faulted → ∃ w rest, s.pending = .write 0x008 4 w :: rest) ∧
    (s.Faulted → t.Ready → ∃ rest, s.pending = .reset :: rest ∨
      ∃ v : Word, v.toNat % 2 = 1 ∧ s.pending = .write 0x00C 4 v :: rest)

/-- R265, its sentence "After `ack`, reissuing the same command on the same state faults the same way", which the spec
marks as derived from R229 and R207. -/
def Obligations.RetryFaultsTheSameWay : Prop :=
  ∀ (i : Instr) (s t : State), s.Inv → s.Ready → exec i s = .next t → t.Faulted →
    exec i { t with block := ackFault t.block } = .next t

/-! ### The host's window -/

/-- R71: no read has a side effect; the value it returns is that of `MemRead` (R68, see `ReadsReturnTheCells`). -/
def Obligations.ReadsHaveNoSideEffect : Prop :=
  ∀ (s : State) (off : Nat) (rest : List HostAccess), off % 4 = 0 → off ≤ 0xFFFC →
    s.pending = .read off 4 :: rest →
    step s = .next { s with pending := rest, returned := memRead s.block off :: s.returned }

/-- R68, R66, R67, R29: what a read returns at every location of the window. -/
def Obligations.ReadsReturnTheCells : Prop :=
  ∀ b : Block, b.WfParams →
    memRead b 0x000 = 0x58585407#32 ∧
    (memRead b 0x004).toNat = b.cfg.roundsBase.toNat + (if b.cfg.alph = .urlSafe then 0x100 else 0) +
      (if b.cfg.keychk then 0x200 else 0) ∧
    memRead b 0x008 = 0 ∧
    (memRead b 0x00C).toNat = (if b.status.err then 1 else 0) + (if b.status.eclass then 2 else 0) ∧
    (memRead b 0x010).toNat = b.errCode.toNat ∧ memRead b 0x014 = b.errInfo ∧ memRead b 0x018 = b.errCmd ∧
    memRead b 0x020 = b.n ∧ memRead b 0x024 = b.blen ∧ memRead b 0x028 = b.tlen ∧
    memRead b 0x030 = b.k.k0 ∧ memRead b 0x034 = b.k.k1 ∧ memRead b 0x038 = b.k.k2 ∧ memRead b 0x03C = b.k.k3 ∧
    (memRead b 0x040).toNat = b.params.nmax ∧
    (∀ off, off < 0x1000 → off % 4 = 0 → off = 0x01C ∨ off = 0x02C ∨ 0x044 ≤ off → memRead b off = 0) ∧
    (∀ i < 1024, memRead b (0x1000 + 4 * i) = if i < b.params.nmax then b.v.read i else 0) ∧
    (∀ off, 0x2000 ≤ off → off < 0x4000 → memRead b off = 0) ∧
    (∀ i < 4096, (memRead b (0x4000 + 4 * i)).toNat = if i < b.params.bmax then (b.b.read i).toNat else 0) ∧
    (∀ i < 8192, (memRead b (0x8000 + 4 * i)).toNat = if i < b.params.tmax then (b.t.read i).toNat else 0)

/-- R69, R67: a write to an in-capacity cell stores the value, or its bits 7:0 in `B` and `T`; every other cell and all
other state are unchanged. -/
def Obligations.CellWritesStore : Prop :=
  ∀ (s : State) (i : Nat) (x : Word) (rest : List HostAccess), s.Inv →
    (s.pending = .write (0x1000 + 4 * i) 4 x :: rest → i < s.block.params.nmax → ∃ t, step s = .next t ∧
      t = { s with pending := rest, block := { s.block with v := t.block.v } } ∧
      t.block.v.read i = x ∧ ∀ j, j ≠ i → t.block.v.read j = s.block.v.read j) ∧
    (s.pending = .write (0x4000 + 4 * i) 4 x :: rest → i < s.block.params.bmax → ∃ t, step s = .next t ∧
      t = { s with pending := rest, block := { s.block with b := t.block.b } } ∧
      (t.block.b.read i).toNat = x.toNat % 256 ∧ ∀ j, j ≠ i → t.block.b.read j = s.block.b.read j) ∧
    (s.pending = .write (0x8000 + 4 * i) 4 x :: rest → i < s.block.params.tmax → ∃ t, step s = .next t ∧
      t = { s with pending := rest, block := { s.block with t := t.block.t } } ∧
      (t.block.t.read i).toNat = x.toNat % 256 ∧ ∀ j, j ≠ i → t.block.t.read j = s.block.t.read j)

/-- R69, R29, R67: a write to a read-only register, to a reserved offset or to an out-of-capacity location does
nothing. -/
def Obligations.OtherWritesAreIgnored : Prop :=
  ∀ (s : State) (off : Nat) (x : Word) (rest : List HostAccess), s.pending = .write off 4 x :: rest →
    off % 4 = 0 → off ≤ 0xFFFC →
    (off ∈ [0x000, 0x010, 0x014, 0x018, 0x01C, 0x02C] ∨ (0x040 ≤ off ∧ off < 0x1000) ∨
      (0x1000 + 4 * s.block.params.nmax ≤ off ∧ off < 0x4000) ∨
      (0x2000 ≤ off ∧ off < 0x4000) ∨ (0x4000 + 4 * s.block.params.bmax ≤ off ∧ off < 0x8000) ∨
      0x8000 + 4 * s.block.params.tmax ≤ off) →
    step s = .next { s with pending := rest }

/-- R23: a host write of a length within the capacity is stored, one above it is ignored, without a fault. -/
def Obligations.LengthWritesAreBounded : Prop :=
  ∀ (s : State) (x : Word) (rest : List HostAccess),
    (s.pending = .write 0x020 4 x :: rest → step s = .next { s with
      pending := rest,
      block := { s.block with n := if x.toNat ≤ s.block.params.nmax then x else s.block.n } }) ∧
    (s.pending = .write 0x024 4 x :: rest → step s = .next { s with
      pending := rest,
      block := { s.block with blen := if x.toNat ≤ s.block.params.bmax then x else s.block.blen } }) ∧
    (s.pending = .write 0x028 4 x :: rest → step s = .next { s with
      pending := rest,
      block := { s.block with tlen := if x.toNat ≤ s.block.params.tmax then x else s.block.tlen } })

/-- R27: a write to `CFG` stores bits 9:0, which then read back, and ignores bits 31:10; nothing else changes. -/
def Obligations.CfgWriteKeepsTenBits : Prop :=
  ∀ (s : State) (x : Word) (rest : List HostAccess), s.pending = .write 0x004 4 x :: rest →
    ∃ t, step s = .next t ∧ t = { s with pending := rest, block := { s.block with cfg := t.block.cfg } } ∧
      (memRead t.block 0x004).toNat = x.toNat % 1024

/-- R69, R133: a host write to `K0..K3` writes that word, in either mode and without a check on the key. -/
def Obligations.KeyWritesBypassTheCheck : Prop :=
  ∀ (s : State) (x : Word) (rest : List HostAccess),
    (s.pending = .write 0x030 4 x :: rest →
      step s = .next { s with pending := rest, block := { s.block with k := { s.block.k with k0 := x } } }) ∧
    (s.pending = .write 0x034 4 x :: rest →
      step s = .next { s with pending := rest, block := { s.block with k := { s.block.k with k1 := x } } }) ∧
    (s.pending = .write 0x038 4 x :: rest →
      step s = .next { s with pending := rest, block := { s.block with k := { s.block.k with k2 := x } } }) ∧
    (s.pending = .write 0x03C 4 x :: rest →
      step s = .next { s with pending := rest, block := { s.block with k := { s.block.k with k3 := x } } })

/-- R64: an access that is not 32 bits wide or not at a multiple of 4 is refused, and by R68, R69 and U9 so is one outside
the window.  Which name an access is given that is outside in more than one way (width first, then alignment, then
window) is the model's choice (log 10). -/
def Obligations.OutsideAccessesAreRefused : Prop :=
  ∀ (s : State) (off bytes : Nat) (x : Word) (rest : List HostAccess),
    s.pending = .read off bytes :: rest ∨ s.pending = .write off bytes x :: rest →
    (bytes ≠ 4 → step s = .refused .accessWidth) ∧
    (bytes = 4 → off % 4 ≠ 0 → step s = .refused .accessAlignment) ∧
    (bytes = 4 → off % 4 = 0 → 0xFFFC < off → step s = .refused .accessWindow)

/-- R66: the location at the offset of a register or of a cell of a window is that register or cell. -/
def Obligations.OffsetsLocateTheirCells : Prop :=
  (∀ r : Reg, locate (Loc.offset (.reg r)) = some (.reg r) ∧ accessRefusal (Loc.offset (.reg r)) 4 = none) ∧
  (∀ i < 1024, locate (Loc.offset (.vCell i)) = some (.vCell i) ∧ accessRefusal (Loc.offset (.vCell i)) 4 = none) ∧
  (∀ i < 4096, locate (Loc.offset (.bCell i)) = some (.bCell i) ∧ accessRefusal (Loc.offset (.bCell i)) 4 = none) ∧
  (∀ i < 8192, locate (Loc.offset (.tCell i)) = some (.tCell i) ∧ accessRefusal (Loc.offset (.tCell i)) 4 = none)

/-! ### Reset and idling -/

/-- R41, R251: what reset leaves, as the host reads it, for every legal capacity.  That `State.reset` has the capacity 256
is the model's choice (log 5), within R7, which gives it as the default. -/
def Obligations.ResetStateReadsZero : Prop :=
  State.reset.block = Block.reset { nmax := 256 } ∧
  ∀ p : Config.Params, p.wellFormed = true →
    memRead (Block.reset p) 0x000 = 0x58585407#32 ∧ memRead (Block.reset p) 0x004 = 0x00000206#32 ∧
    (memRead (Block.reset p) 0x040).toNat = p.nmax ∧
    (∀ off, off ≠ 0x000 → off ≠ 0x004 → off ≠ 0x040 → memRead (Block.reset p) off = 0) ∧
    (∀ i, (Block.reset p).v.read i = 0 ∧ (Block.reset p).b.read i = 0 ∧ (Block.reset p).t.read i = 0)

/-- R250: reset is a transition from any state, READY or FAULTED, to the state of R41; the parameters and the host stay
(log 8). -/
def Obligations.ResetFromAnyState : Prop :=
  ∀ (s : State) (rest : List HostAccess), s.pending = .reset :: rest →
    step s = .next { s with pending := rest, block := Block.reset s.block.params }

/-- R245, log 3: with no access pending the block keeps all its state. -/
def Obligations.IdleBlockKeepsState : Prop := ∀ s : State, s.pending = [] → step s = .next s

/-! ### Decoding -/

/-- R91, R93: a word decodes to a command exactly when it is that command's word, and the eleven words are those of the
opcode map; every other word is rejected. -/
def Obligations.DecodeIsExactlyTheTable : Prop :=
  (∀ (w : Word) (i : Instr), decode w = .ok i ↔ w = encode i) ∧
  ([Instr.nop, .clr, .pack, .unpack, .keynorm, .ser, .deser, .xenc, .xdec, .b64e, .b64d].map encode =
    [0x00#32, 0x01#32, 0x10#32, 0x11#32, 0x12#32, 0x13#32, 0x14#32, 0x20#32, 0x21#32, 0x30#32, 0x31#32])

/-- R91: the command words of the opcode map, written out. -/
def Obligations.OpcodeMapWords : Prop :=
  [0x00#32, 0x01#32, 0x10#32, 0x11#32, 0x12#32, 0x13#32, 0x14#32, 0x20#32, 0x21#32, 0x30#32, 0x31#32].map
      (fun w => (decode w).toOption) =
    [some .nop, some .clr, some .pack, some .unpack, some .keynorm, some .ser, some .deser, some .xenc, some .xdec,
      some .b64e, some .b64d]

/-- R100: a step on a write of a command word to `CMD` is that command's `exec`, with the access consumed; and that is
the step from a state where the word was put with `withFetchWord`.  How `withFetchWord` puts a word (log 4) and which bits
of a table row `decodeTableWord` reads as which of the word (log 11) are the model's choices. -/
def Obligations.StepRunsDecodedCommand : Prop :=
  (∀ (s : State) (w : Word) (i : Instr) (rest : List HostAccess), s.pending = .write 0x008 4 w :: rest →
    decode w = .ok i → step s = exec i { s with pending := rest }) ∧
  (∀ (s : State) (w : Nat) (i : Instr), decodeTableWord 32 w = some i → step (s.withFetchWord 32 w) = exec i s)

/-! ### Whole-machine rules -/

/-- R264, R235: every command completes, from every state. -/
def Obligations.EveryCommandCompletes : Prop := ∀ (i : Instr) (s : State), ∃ t : State, exec i s = .next t

/-- The reset state meets the invariant. -/
def Obligations.ResetStateIsWellFormed : Prop := State.reset.Inv

/-- Every step keeps the invariant: legal lengths (R23), canonical memories with no cell at or above a capacity (R225),
and fault registers that agree with each other (R30 to R33, R220, R230). -/
def Obligations.StepKeepsInvariant : Prop := ∀ s t : State, s.Inv → step s = .next t → t.Inv

/-- A safe state makes a step, and the next state is safe: nothing stops the machine but an access outside its
interface. -/
def Obligations.SafeStatesStep : Prop := ∀ s : State, s.Safe → ∃ t : State, step s = .next t ∧ t.Safe

/-- R22: `K` is written only by `KEYNORM`, `CLR`, reset and host writes to `K0..K3`. -/
def Obligations.KeyWritersAreListed : Prop :=
  ∀ s t : State, step s = .next t → t.block.k ≠ s.block.k →
    ∃ rest, s.pending = .reset :: rest ∨
      (∃ x off, off ∈ [0x030, 0x034, 0x038, 0x03C] ∧ s.pending = .write off 4 x :: rest) ∨
      (s.Ready ∧ ∃ w, w ∈ [encode .keynorm, encode .clr] ∧ s.pending = .write 0x008 4 w :: rest)

/-- R35, R36, R37: `V`, `B` and `T` are each written only by the commands the rule lists, by reset and by host writes to
their own window. -/
def Obligations.MemoryWritersAreListed : Prop :=
  ∀ s t : State, step s = .next t →
    (t.block.v ≠ s.block.v → ∃ rest, s.pending = .reset :: rest ∨
      (∃ x off, 0x1000 ≤ off ∧ off < 0x2000 ∧ s.pending = .write off 4 x :: rest) ∨
      (s.Ready ∧ ∃ i : Instr, i ∈ [Instr.pack, .deser, .xenc, .xdec, .clr] ∧
        s.pending = .write 0x008 4 (encode i) :: rest)) ∧
    (t.block.b ≠ s.block.b → ∃ rest, s.pending = .reset :: rest ∨
      (∃ x off, 0x4000 ≤ off ∧ off < 0x8000 ∧ s.pending = .write off 4 x :: rest) ∨
      (s.Ready ∧ ∃ i : Instr, i ∈ [Instr.unpack, .ser, .b64d, .clr] ∧
        s.pending = .write 0x008 4 (encode i) :: rest)) ∧
    (t.block.t ≠ s.block.t → ∃ rest, s.pending = .reset :: rest ∨
      (∃ x off, 0x8000 ≤ off ∧ s.pending = .write off 4 x :: rest) ∨
      (s.Ready ∧ ∃ i : Instr, i ∈ [Instr.b64e, .clr] ∧ s.pending = .write 0x008 4 (encode i) :: rest))

/-- R38: what a command does depends only on what it can see, the registers and the cells below the length registers: two
states that agree there still agree there after any command.  And but for `CLR`, a command leaves every cell at or above
the length register it leaves behind as it was. -/
def Obligations.CommandsSeeOnlyBelowLengths : Prop :=
  (∀ (i : Instr) (s s' : State), s.Inv → s'.Inv → s.block.AgreesBelow s'.block →
    ∃ t t' : State, exec i s = .next t ∧ exec i s' = .next t' ∧ t.block.AgreesBelow t'.block) ∧
  (∀ (i : Instr) (s t : State), s.Inv → i ≠ .clr → exec i s = .next t →
    (∀ j, t.block.n.toNat ≤ j → t.block.v.read j = s.block.v.read j) ∧
    (∀ j, t.block.blen.toNat ≤ j → t.block.b.read j = s.block.b.read j) ∧
    (∀ j, t.block.tlen.toNat ≤ j → t.block.t.read j = s.block.t.read j))

/-! ### The API on the block -/

/-- R206, R255, R254: from a READY block whose `B[0..BLEN)` holds a plaintext that is not empty, `PACK`, `XENC`, `XDEC`,
`UNPACK` give back exactly that plaintext if and only if no byte of it is `0x03` and its length is not 4; a plaintext
with a `0x03` comes back cut before the first one, and one of 4 bytes without a `0x03` comes back followed by four zero
bytes.  The serialization of `.B64` between `XENC` and `XDEC` changes nothing of this. -/
def Obligations.RoundTripExactlyWhenStated : Prop :=
  ∀ s : State, s.Inv → s.Ready → s.block.bytes ≠ [] →
    ∀ middle ∈ [[], [Instr.ser, .b64e, .b64d, .deser]], ∃ u : State,
      execAll ([.pack, .xenc] ++ middle ++ [.xdec, .unpack]) s = .next u ∧ u.Ready ∧
      (u.block.bytes = s.block.bytes ↔ 0x03#8 ∉ s.block.bytes ∧ s.block.bytes.length ≠ 4) ∧
      (0x03#8 ∈ s.block.bytes → u.block.bytes = s.block.bytes.takeWhile fun c => c ≠ 0x03#8) ∧
      (0x03#8 ∉ s.block.bytes → s.block.bytes.length = 4 →
        u.block.bytes = s.block.bytes ++ [0x00#8, 0x00#8, 0x00#8, 0x00#8])

/-- R97: the accesses of `.bytes`, `.text`, `.words`, for data that fit, leave the buffer and its length register holding
the data, and change no other cell and no other state of the block, in as many steps as there are accesses; `.key` writes
the four key words; `.expect` is one read. -/
def Obligations.DirectivesLoadBuffers : Prop :=
  (∀ (s : State) (x : List Byte) (rest : List HostAccess), s.Inv → x.length ≤ s.block.params.bmax →
    s.pending = (Stmt.bytes x).accesses ++ rest → ∃ t : State,
      Host.Core.run core (Stmt.bytes x).accesses.length s = .next t ∧
      t = { s with pending := rest, block := { s.block with b := t.block.b, blen := t.block.blen } } ∧
      t.block.bytes = x ∧ (∀ i, x.length ≤ i → t.block.b.read i = s.block.b.read i)) ∧
  (∀ (s : State) (x : List Byte) (rest : List HostAccess), s.Inv → x.length ≤ s.block.params.tmax →
    s.pending = (Stmt.text x).accesses ++ rest → ∃ t : State,
      Host.Core.run core (Stmt.text x).accesses.length s = .next t ∧
      t = { s with pending := rest, block := { s.block with t := t.block.t, tlen := t.block.tlen } } ∧
      t.block.text = x ∧ (∀ i, x.length ≤ i → t.block.t.read i = s.block.t.read i)) ∧
  (∀ (s : State) (x : List Word) (rest : List HostAccess), s.Inv → x.length ≤ s.block.params.nmax →
    s.pending = (Stmt.words x).accesses ++ rest → ∃ t : State,
      Host.Core.run core (Stmt.words x).accesses.length s = .next t ∧
      t = { s with pending := rest, block := { s.block with v := t.block.v, n := t.block.n } } ∧
      t.block.words = x ∧ (∀ i, x.length ≤ i → t.block.v.read i = s.block.v.read i)) ∧
  (∀ (s : State) (k : Key) (rest : List HostAccess), s.pending = (Stmt.key k).accesses ++ rest →
    Host.Core.run core 4 s = .next { s with pending := rest, block := { s.block with k := k } }) ∧
  (∀ (l : Loc) (x : Word), (Stmt.expect l x).accesses = [.read l.offset 4])

/-- R206, where its conditions (a) and (d) hold: `ENCRYPT.B64 pt, pw` and then `DECRYPT.B64` of the text it leaves, on a
READY block with unchanged `CFG`, for a plaintext that is not empty and fits in `B`, a password that can be loaded and a
key the check accepts.  Both scripts run to their end, the block stays READY, and the bytes that come back are the
plaintext if and only if no byte of it is `0x03` and its length is not 4; else they are what R206 says.  Which of its
bytes a host loads of a long password is the model's choice (log 16).  `ApiSequencesRefuseOrFault` says what happens
where (a) or (d) fails. -/
def Obligations.ApiRoundTripOnTheBlock : Prop :=
  ∀ (s : State) (pt pw : List Byte) (enc : List Stmt), s.Inv → s.Ready → s.pending = [] → pt ≠ [] →
    (s.block.cfg.keychk = true → normalizeKey pw ≠ Key.zero) →
    encryptB64 s.block.params pt pw = some enc →
    ∃ t : State,
      Host.Core.run core (scriptAccesses enc).length { s with pending := scriptAccesses enc } = .next t ∧ t.Ready ∧
      ∃ (dec : List Stmt) (u : State), decryptB64 s.block.params t.block.text pw = some dec ∧
        Host.Core.run core (scriptAccesses dec).length { t with pending := scriptAccesses dec } = .next u ∧ u.Ready ∧
        (u.block.bytes = pt ↔ 0x03#8 ∉ pt ∧ pt.length ≠ 4) ∧
        (0x03#8 ∈ pt → u.block.bytes = pt.takeWhile fun c => c ≠ 0x03#8) ∧
        (0x03#8 ∉ pt → pt.length = 4 → u.block.bytes = pt ++ [0x00#8, 0x00#8, 0x00#8, 0x00#8])

/-- The same of the other pair of R206, `ENCRYPT.RAW` and then `DECRYPT.RAW` of the words it leaves (log 16 as there). -/
def Obligations.ApiRawRoundTripOnTheBlock : Prop :=
  ∀ (s : State) (pt pw : List Byte) (enc : List Stmt), s.Inv → s.Ready → s.pending = [] → pt ≠ [] →
    (s.block.cfg.keychk = true → normalizeKey pw ≠ Key.zero) →
    encryptRaw s.block.params pt pw = some enc →
    ∃ t : State,
      Host.Core.run core (scriptAccesses enc).length { s with pending := scriptAccesses enc } = .next t ∧ t.Ready ∧
      ∃ (dec : List Stmt) (u : State), decryptRaw s.block.params t.block.words pw = some dec ∧
        Host.Core.run core (scriptAccesses dec).length { t with pending := scriptAccesses dec } = .next u ∧ u.Ready ∧
        (u.block.bytes = pt ↔ 0x03#8 ∉ pt ∧ pt.length ≠ 4) ∧
        (0x03#8 ∈ pt → u.block.bytes = pt.takeWhile fun c => c ≠ 0x03#8) ∧
        (0x03#8 ∉ pt → pt.length = 4 → u.block.bytes = pt ++ [0x00#8, 0x00#8, 0x00#8, 0x00#8])

/-- R206 where (a) or (d) fails, and R205.  Data that do not fit are refused by the host itself, and empty data issue
nothing.  With the check on and a password whose key is all zero, each of the four scripts runs to its end: `KEYNORM`
raises `EmptyKey`, the host's loads still take place (R240), every later command is dropped, so that no result is written,
and the read of `STATUS` returns 3 (R209).  What a host loads of a long password is the model's choice (log 16). -/
def Obligations.ApiSequencesRefuseOrFault : Prop :=
  (∀ (p : Config.Params) (pw : List Byte),
    (∀ pt : List Byte, p.bmax < pt.length → encryptRaw p pt pw = none ∧ encryptB64 p pt pw = none) ∧
    (∀ ct : List Word, p.nmax < ct.length → decryptRaw p ct pw = none) ∧
    (∀ tx : List Byte, p.tmax < tx.length → decryptB64 p tx pw = none) ∧
    encryptRaw p [] pw = some [] ∧ encryptB64 p [] pw = some [] ∧
    decryptRaw p [] pw = some [] ∧ decryptB64 p [] pw = some []) ∧
  ∀ (s : State) (pw load : List Byte) (script : List Stmt), s.Inv → s.Ready → s.pending = [] →
    s.block.cfg.keychk = true → normalizeKey pw = Key.zero → passwordLoad s.block.params pw = some load →
    let emptyKey : Block → Block := fun b => { b with
      status := { err := true, eclass := true }, errCode := 4, errInfo := BitVec.ofNat 32 load.length, errCmd := 0x12#32 }
    (∀ pt : List Byte, pt ≠ [] →
      encryptRaw s.block.params pt pw = some script ∨ encryptB64 s.block.params pt pw = some script →
      ∃ t : State,
        Host.Core.run core (scriptAccesses script).length { s with pending := scriptAccesses script } = .next t ∧
        t = { s with
          block := emptyKey { s.block with b := t.block.b, blen := t.block.blen }, returned := t.returned } ∧
        t.block.bytes = pt ∧ t.returned.drop 1 = 3#32 :: s.returned) ∧
    (∀ ct : List Word, ct ≠ [] → decryptRaw s.block.params ct pw = some script →
      ∃ t : State,
        Host.Core.run core (scriptAccesses script).length { s with pending := scriptAccesses script } = .next t ∧
        t = { s with
          block := emptyKey { s.block with b := t.block.b, blen := t.block.blen, v := t.block.v, n := t.block.n },
          returned := t.returned } ∧
        t.block.bytes = load ∧ t.block.words = ct ∧ t.returned.drop 1 = 3#32 :: s.returned) ∧
    (∀ tx : List Byte, tx ≠ [] → decryptB64 s.block.params tx pw = some script →
      ∃ t : State,
        Host.Core.run core (scriptAccesses script).length { s with pending := scriptAccesses script } = .next t ∧
        t = { s with
          block := emptyKey { s.block with b := t.block.b, blen := t.block.blen, t := t.block.t, tlen := t.block.tlen },
          returned := t.returned } ∧
        t.block.bytes = load ∧ t.block.text = tx ∧ t.returned.drop 1 = 3#32 :: s.returned)
end

