-- ==== Sys2Proof/Laws/Base64.lean ====
section
/-! SUPPORT. The pure functions of the Base64 Codec: the alphabets, what stands at each index, what the check finds, and
the round trip. -/

namespace Sys2Proof.Machine

/-! ### Alphabets -/

@[simp] theorem val_sym (a : Alphabet) (s : BitVec 6) : a.val (a.sym s) = some s := by
  revert a s; intro a; cases a <;> decide

@[simp] theorem valD_sym (a : Alphabet) (s : BitVec 6) : a.valD (a.sym s) = s := by simp [Alphabet.valD]

theorem sym_ne_pad (a : Alphabet) (s : BitVec 6) : a.sym s ≠ Config.b64Pad := by
  revert a s; intro a; cases a <;> decide

@[simp] theorem val_pad (a : Alphabet) : a.val Config.b64Pad = none := by cases a <;> decide

@[simp] theorem valD_pad (a : Alphabet) : a.valD Config.b64Pad = 0 := by simp [Alphabet.valD]

/-- A code of the alphabet is the symbol of its value. -/
theorem sym_of_val (a : Alphabet) {c : Byte} {s : BitVec 6} (h : a.val c = some s) : a.sym s = c := by
  have key : ∀ c : Byte, ((a.val c).map a.sym).getD c = c := by cases a <;> decide
  simpa [h] using key c

/-! ### Groups -/

/-- Byte `j` of a 24-bit group, most significant first (20_memory.md R62). -/
def groupByte (g : BitVec 24) (j : Nat) : Byte := g.extractLsb' (16 - 8 * j) 8

theorem groupByte_groupOfBytes (b0 b1 b2 : Byte) :
    groupByte (groupOfBytes b0 b1 b2) 0 = b0 ∧ groupByte (groupOfBytes b0 b1 b2) 1 = b1 ∧
      groupByte (groupOfBytes b0 b1 b2) 2 = b2 := by
  simp only [groupByte, groupOfBytes]
  refine ⟨?_, ?_, ?_⟩ <;> · ext i hi; interval_cases i <;> simp

theorem groupOfValues_groupSlice (g : BitVec 24) :
    groupOfValues (groupSlice g 0) (groupSlice g 1) (groupSlice g 2) (groupSlice g 3) = g := by
  simp only [groupOfValues, groupSlice]
  ext i hi; interval_cases i <;> simp

theorem firstByte_eq (s0 s1 s2 s3 : BitVec 6) : firstByte s0 s1 = groupByte (groupOfValues s0 s1 s2 s3) 0 := by
  simp only [firstByte, groupByte, groupOfValues]
  ext i hi; interval_cases i <;> simp

theorem secondByte_eq (s0 s1 s2 s3 : BitVec 6) : secondByte s1 s2 = groupByte (groupOfValues s0 s1 s2 s3) 1 := by
  simp only [secondByte, groupByte, groupOfValues]
  ext i hi; interval_cases i <;> simp

/-! ### Encode -/

/-- The length law (43_base64_codec.md R173). -/
theorem b64Encode_length (a : Alphabet) (x : List Byte) : (b64Encode a x).length = 4 * ((x.length + 2) / 3) := by
  induction x using b64Encode.induct with
  | case1 b0 b1 b2 rest ih => simp only [b64Encode, List.length_cons, ih]; omega
  | case2 b0 b1 => simp [b64Encode]
  | case3 b0 => simp [b64Encode]
  | case4 => simp [b64Encode]

/-- The 24-bit chunk `i` of a byte sequence, zero-filled (43_base64_codec.md R172). -/
def chunkOf (x : List Byte) (i : Nat) : BitVec 24 :=
  groupOfBytes (x.getD (3 * i) 0) (x.getD (3 * i + 1) 0) (x.getD (3 * i + 2) 0)

theorem chunkOf_succ (b0 b1 b2 : Byte) (rest : List Byte) (i : Nat) :
    chunkOf (b0 :: b1 :: b2 :: rest) (i + 1) = chunkOf rest i := rfl

/-- The four symbols of chunk `i`; the symbols a final partial chunk lacks are `=` (43_base64_codec.md R172). -/
theorem b64Encode_getD (a : Alphabet) (x : List Byte) {i : Nat} (h : 3 * i < x.length) :
    (b64Encode a x).getD (4 * i) 0 = a.sym (groupSlice (chunkOf x i) 0) ∧
    (b64Encode a x).getD (4 * i + 1) 0 = a.sym (groupSlice (chunkOf x i) 1) ∧
    (b64Encode a x).getD (4 * i + 2) 0 =
      (if 3 * i + 1 < x.length then a.sym (groupSlice (chunkOf x i) 2) else Config.b64Pad) ∧
    (b64Encode a x).getD (4 * i + 3) 0 =
      (if 3 * i + 2 < x.length then a.sym (groupSlice (chunkOf x i) 3) else Config.b64Pad) := by
  induction x using b64Encode.induct generalizing i with
  | case1 b0 b1 b2 rest ih =>
    cases i with
    | zero => simp [b64Encode, chunkOf]
    | succ i =>
      simp only [List.length_cons] at h
      have := ih (i := i) (by omega)
      simp only [b64Encode, List.getD_cons_succ, chunkOf_succ, List.length_cons,
        show ∀ k, (3 * (i + 1) + k < rest.length + 1 + 1 + 1) ↔ (3 * i + k < rest.length) by omega]
      exact this
  | case2 b0 b1 =>
    obtain rfl : i = 0 := by simp at h; omega
    simp [b64Encode, chunkOf]
  | case3 b0 =>
    obtain rfl : i = 0 := by simp at h; omega
    simp [b64Encode, chunkOf]
  | case4 => simp at h

/-! ### The check -/

/-- Symbol `j` of a text is not offending (43_base64_codec.md R175). -/
def legalAt (a : Alphabet) (t : List Byte) (j : Nat) : Prop :=
  if t.getD j 0 = Config.b64Pad then j + 1 = t.length ∨ (j + 2 = t.length ∧ t.getD (j + 1) 0 = Config.b64Pad)
  else a.val (t.getD j 0) ≠ none

theorem legalAt_succ (a : Alphabet) (c : Byte) (t : List Byte) (j : Nat) :
    legalAt a (c :: t) (j + 1) ↔ legalAt a t j := by
  simp only [legalAt, List.getD_cons_succ, List.length_cons,
    show j + 1 + 1 = t.length + 1 ↔ j + 1 = t.length by omega, show j + 1 + 2 = t.length + 1 ↔ j + 2 = t.length by omega]

theorem legalAt_zero (a : Alphabet) (c : Byte) (t : List Byte) :
    legalAt a (c :: t) 0 ↔
      (if c = Config.b64Pad then t = [] ∨ t = [Config.b64Pad] else a.val c ≠ none) := by
  simp only [legalAt, List.getD_cons_zero]
  split
  · match t with
    | [] => simp
    | [d] => simp
    | d :: d' :: t => simp
  · rfl

/-- The scan stops at the first offending symbol (43_base64_codec.md R175). -/
theorem b64Scan_first (a : Alphabet) {t : List Byte} {i : Nat} (j : Nat) (hi : i < t.length)
    (hb : ∀ i' < i, legalAt a t i') (hn : ¬ legalAt a t i) :
    b64Scan a j t =
      some (if t.getD i 0 = Config.b64Pad then .invalidPadding else .invalidCharacter, j + i) := by
  induction t generalizing i j with
  | nil => simp at hi
  | cons c t ih =>
    cases i with
    | zero =>
      rw [legalAt_zero] at hn
      rw [b64Scan]
      by_cases hc : c = Config.b64Pad
      · simp only [hc, if_true] at hn ⊢
        simp [hn]
      · simp only [hc, if_false] at hn ⊢
        simp only [ne_eq, Classical.not_not] at hn
        simp [hn, hc]
    | succ i =>
      have h0 := (legalAt_zero a c t).1 (hb 0 (by omega))
      have := ih (j + 1) (i := i) (by simpa using hi)
        (fun i' h' => (legalAt_succ a c t i').1 (hb (i' + 1) (by omega)))
        (fun h => hn ((legalAt_succ a c t i).2 h))
      rw [b64Scan, this, List.getD_cons_succ, show j + 1 + i = j + (i + 1) by omega]
      by_cases hc : c = Config.b64Pad
      · simp only [hc, if_true] at h0 ⊢
        rw [if_pos h0]
      · simp only [hc, if_false] at h0 ⊢
        rw [if_neg h0]

/-- The scan passes when no symbol is offending (43_base64_codec.md R175). -/
theorem b64Scan_none (a : Alphabet) {t : List Byte} (j : Nat) (h : ∀ i < t.length, legalAt a t i) :
    b64Scan a j t = none := by
  induction t generalizing j with
  | nil => rfl
  | cons c t ih =>
    have h0 := (legalAt_zero a c t).1 (h 0 (by simp))
    have := ih (j + 1) (fun i hi => (legalAt_succ a c t i).1 (h (i + 1) (by simpa using hi)))
    rw [b64Scan, this]
    by_cases hc : c = Config.b64Pad
    · simp only [hc, if_true] at h0 ⊢
      rw [if_pos h0]
    · simp only [hc, if_false] at h0 ⊢
      rw [if_neg h0]

/-- Only the three causes of the codec come from the check. -/
theorem b64Scan_cause (a : Alphabet) {t : List Byte} {j : Nat} {c : Cause} {i : Nat} (h : b64Scan a j t = some (c, i)) :
    c = .invalidPadding ∨ c = .invalidCharacter := by
  induction t generalizing j with
  | nil => simp [b64Scan] at h
  | cons d t ih =>
    rw [b64Scan] at h
    split at h
    · split at h
      · exact ih h
      · simp only [Option.some.injEq, Prod.mk.injEq] at h; exact .inl h.1.symm
    · split at h
      · simp only [Option.some.injEq, Prod.mk.injEq] at h; exact .inr h.1.symm
      · exact ih h

theorem b64Check_cause (a : Alphabet) {t : List Byte} {c : Cause} {i : Nat} (h : b64Check a t = some (c, i)) :
    c = .invalidLength ∨ c = .invalidPadding ∨ c = .invalidCharacter := by
  rw [b64Check] at h
  split at h
  · simp only [Option.some.injEq, Prod.mk.injEq] at h; exact .inl h.1.symm
  · exact .inr (b64Scan_cause a h)

/-! ### Padding symbols -/

theorem b64Pads_le (t : List Byte) : b64Pads t ≤ 2 := by
  refine (List.count_le_length).trans ?_
  simp; omega

/-- `pads` by index: the last symbol and the last but one (43_base64_codec.md R175). -/
theorem b64Pads_eq (t : List Byte) :
    b64Pads t = (if 1 ≤ t.length ∧ t.getD (t.length - 1) 0 = Config.b64Pad then 1 else 0) +
      (if 2 ≤ t.length ∧ t.getD (t.length - 2) 0 = Config.b64Pad then 1 else 0) := by
  rcases t.eq_nil_or_concat with rfl | ⟨u, d, rfl⟩
  · rfl
  · rcases u.eq_nil_or_concat with rfl | ⟨u, c, rfl⟩
    · simp [b64Pads, List.count_cons]
    · rw [List.concat_eq_append, List.concat_eq_append]
      have hd : (u ++ [c] ++ [d]).drop ((u ++ [c] ++ [d]).length - 2) = [c, d] := by
        simp
      rw [b64Pads, hd]
      simp [List.count_cons, List.getD_eq_getElem?_getD]

/-! ### Decode -/

theorem decodeGroup_length (a : Alphabet) {pads : Nat} (hp : pads ≤ 2) (last : Bool) (c0 c1 c2 c3 : Byte) :
    (decodeGroup a pads last c0 c1 c2 c3).length = 3 - (if last then pads else 0) := by
  unfold decodeGroup
  cases last
  · simp
  · interval_cases pads <;> simp

theorem decodeGroup_getD (a : Alphabet) {pads : Nat} (hp : pads ≤ 2) (last : Bool) (c0 c1 c2 c3 : Byte) {j : Nat}
    (hj : j < 3 - (if last then pads else 0)) :
    (decodeGroup a pads last c0 c1 c2 c3).getD j 0 =
      groupByte (groupOfValues (a.valD c0) (a.valD c1) (a.valD c2) (a.valD c3)) j := by
  have h0 := firstByte_eq (a.valD c0) (a.valD c1) (a.valD c2) (a.valD c3)
  have h1 := secondByte_eq (a.valD c0) (a.valD c1) (a.valD c2) (a.valD c3)
  unfold decodeGroup
  have h3 : ∀ g : BitVec 24, j < 3 → [g.extractLsb' 16 8, g.extractLsb' 8 8, g.extractLsb' 0 8].getD j 0 = groupByte g j := by
    intro g h; interval_cases j <;> rfl
  cases last
  · simp only [Bool.false_eq_true, false_and, if_false]; exact h3 _ (by simpa using hj)
  · interval_cases pads
    · simp only [Nat.zero_ne_one, and_false, if_false, show ¬ (0 = 2) by omega]
      exact h3 _ (by simpa using hj)
    · simp only [show ¬ (1 = 2) by omega, and_false, if_false, and_self, if_true] at hj ⊢
      interval_cases j
      · exact h0
      · exact h1
    · simp only [and_self, if_true] at hj ⊢
      interval_cases j
      exact h0

theorem b64DecodeGroups_length (a : Alphabet) {pads : Nat} (hp : pads ≤ 2) (t : List Byte) (h4 : t.length % 4 = 0)
    (hne : t = [] → pads = 0) : (b64DecodeGroups a pads t).length = 3 * (t.length / 4) - pads := by
  induction t using b64DecodeGroups.induct with
  | case1 c0 c1 c2 c3 rest ih =>
    simp only [List.length_cons] at h4
    simp only [b64DecodeGroups, List.length_append, decodeGroup_length a hp, List.length_cons]
    cases rest with
    | nil => simp [b64DecodeGroups]
    | cons d rest =>
      rw [ih (by omega) (by simp)]
      simp only [List.isEmpty_cons, Bool.false_eq_true, if_false, List.length_cons] at h4 ⊢
      omega
  | case2 t ht =>
    have hlt : t.length < 4 := by
      match t, ht with
      | [], _ => simp
      | [_], _ => simp
      | [_, _], _ => simp
      | [_, _, _], _ => simp
      | _ :: _ :: _ :: _ :: _, ht => exact (ht _ _ _ _ _ rfl).elim
    have : t = [] := List.eq_nil_of_length_eq_zero (by omega)
    subst this
    simp [b64DecodeGroups]

/-- The 24-bit group `i` of a text, a `=` counting as 0 (43_base64_codec.md R176). -/
def valuesOf (a : Alphabet) (t : List Byte) (i : Nat) : BitVec 24 :=
  groupOfValues (a.valD (t.getD (4 * i) 0)) (a.valD (t.getD (4 * i + 1) 0)) (a.valD (t.getD (4 * i + 2) 0))
    (a.valD (t.getD (4 * i + 3) 0))

theorem valuesOf_succ (a : Alphabet) (c0 c1 c2 c3 : Byte) (rest : List Byte) (i : Nat) :
    valuesOf a (c0 :: c1 :: c2 :: c3 :: rest) (i + 1) = valuesOf a rest i := rfl

/-- Byte `i` of a decoded text (43_base64_codec.md R176). -/
theorem b64DecodeGroups_getD (a : Alphabet) {pads : Nat} (hp : pads ≤ 2) (t : List Byte) (h4 : t.length % 4 = 0) {i : Nat}
    (hi : i < 3 * (t.length / 4) - pads) :
    (b64DecodeGroups a pads t).getD i 0 = groupByte (valuesOf a t (i / 3)) (i % 3) := by
  induction t using b64DecodeGroups.induct generalizing i with
  | case1 c0 c1 c2 c3 rest ih =>
    simp only [List.length_cons] at h4 hi
    rw [b64DecodeGroups]
    cases rest with
    | nil =>
      have h3 : i < 3 - pads := by simpa using hi
      rw [b64DecodeGroups, List.append_nil, List.isEmpty_nil, decodeGroup_getD a hp true _ _ _ _ (by simpa using h3),
        show i / 3 = 0 by omega, show i % 3 = i by omega]
      rfl
      all_goals simp
    | cons d rest =>
      have hlen : (decodeGroup a pads (d :: rest).isEmpty c0 c1 c2 c3).length = 3 := by
        rw [decodeGroup_length a hp]; simp
      by_cases h3 : i < 3
      · rw [List.getD_append _ _ _ _ (by omega), decodeGroup_getD a hp _ _ _ _ _ (by simpa using h3),
          show i / 3 = 0 by omega, show i % 3 = i by omega]
        rfl
      · rw [List.getD_append_right _ _ _ _ (by omega), hlen, ih (by omega) (by omega)]
        obtain ⟨k, rfl⟩ : ∃ k, i = k + 3 := ⟨i - 3, by omega⟩
        rw [Nat.add_sub_cancel, show (k + 3) / 3 = k / 3 + 1 by omega, show (k + 3) % 3 = k % 3 by omega, valuesOf_succ]
  | case2 t ht =>
    have hlt : t.length < 4 := by
      match t, ht with
      | [], _ => simp
      | [_], _ => simp
      | [_, _], _ => simp
      | [_, _, _], _ => simp
      | _ :: _ :: _ :: _ :: _, ht => exact (ht _ _ _ _ _ rfl).elim
    omega

/-- `len(b64decode(t)) = need` (43_base64_codec.md R176, R178). -/
theorem b64Decode_length (a : Alphabet) (t : List Byte) (h4 : t.length % 4 = 0) :
    (b64Decode a t).length = b64Need t :=
  b64DecodeGroups_length a (b64Pads_le t) t h4 (by rintro rfl; rfl)

theorem b64Decode_getD (a : Alphabet) (t : List Byte) (h4 : t.length % 4 = 0) {i : Nat} (hi : i < b64Need t) :
    (b64Decode a t).getD i 0 = groupByte (valuesOf a t (i / 3)) (i % 3) :=
  b64DecodeGroups_getD a (b64Pads_le t) t h4 hi

/-! ### Round trip -/

/-- No symbol of an encoded text is offending (43_base64_codec.md R179). -/
theorem legalAt_b64Encode (a : Alphabet) (x : List Byte) {j : Nat} (hj : j < (b64Encode a x).length) :
    legalAt a (b64Encode a x) j := by
  have hl := b64Encode_length a x
  have hc : 3 * (j / 4) < x.length := by omega
  obtain ⟨h0, h1, h2, h3⟩ := b64Encode_getD a x hc
  have hr : j % 4 = 0 ∨ j % 4 = 1 ∨ j % 4 = 2 ∨ j % 4 = 3 := by omega
  unfold legalAt
  rcases hr with hr | hr | hr | hr
  · rw [show 4 * (j / 4) = j by omega] at h0
    rw [h0, if_neg (sym_ne_pad a _)]; simp
  · rw [show 4 * (j / 4) + 1 = j by omega] at h1
    rw [h1, if_neg (sym_ne_pad a _)]; simp
  · rw [show 4 * (j / 4) + 2 = j by omega] at h2
    rw [show 4 * (j / 4) + 3 = j + 1 by omega] at h3
    rw [h2]
    split_ifs at h2 ⊢ with hd hs
    · exact absurd hs (sym_ne_pad a _)
    · simp
    · right
      rw [h3, if_neg (by omega)]
      exact ⟨by omega, rfl⟩
    · exact absurd rfl ‹¬ _›
  · rw [show 4 * (j / 4) + 3 = j by omega] at h3
    rw [h3]
    split_ifs at h3 ⊢ with hd hs
    · exact absurd hs (sym_ne_pad a _)
    · simp
    · left; omega
    · exact absurd rfl ‹¬ _›

theorem b64Check_b64Encode (a : Alphabet) (x : List Byte) : b64Check a (b64Encode a x) = none := by
  rw [b64Check, if_neg (by rw [b64Encode_length]; omega)]
  exact b64Scan_none a 0 fun i hi => legalAt_b64Encode a x hi

/-- The padding count of an encoded text (43_base64_codec.md R173). -/
theorem b64Pads_b64Encode (a : Alphabet) (x : List Byte) : b64Pads (b64Encode a x) = (3 - x.length % 3) % 3 := by
  have hl := b64Encode_length a x
  rw [b64Pads_eq, hl]
  by_cases hx : x.length = 0
  · simp [hx]
  · obtain ⟨-, -, h2, h3⟩ := b64Encode_getD a x (i := (x.length - 1) / 3) (by omega)
    rw [show 4 * ((x.length - 1) / 3) + 2 = 4 * ((x.length + 2) / 3) - 2 by omega] at h2
    rw [show 4 * ((x.length - 1) / 3) + 3 = 4 * ((x.length + 2) / 3) - 1 by omega] at h3
    rw [h2, h3]
    have p1 : 1 ≤ 4 * ((x.length + 2) / 3) := by omega
    have p2 : 2 ≤ 4 * ((x.length + 2) / 3) := by omega
    have hr : x.length % 3 = 0 ∨ x.length % 3 = 1 ∨ x.length % 3 = 2 := by omega
    rcases hr with hr | hr | hr
    · rw [if_pos (by omega : 3 * ((x.length - 1) / 3) + 1 < x.length),
        if_pos (by omega : 3 * ((x.length - 1) / 3) + 2 < x.length)]
      simp [sym_ne_pad, hr]
    · rw [if_neg (by omega : ¬ 3 * ((x.length - 1) / 3) + 1 < x.length),
        if_neg (by omega : ¬ 3 * ((x.length - 1) / 3) + 2 < x.length)]
      simp [hr, p1, p2]
    · rw [if_pos (by omega : 3 * ((x.length - 1) / 3) + 1 < x.length),
        if_neg (by omega : ¬ 3 * ((x.length - 1) / 3) + 2 < x.length)]
      simp [sym_ne_pad, hr, p1]

theorem b64Need_b64Encode (a : Alphabet) (x : List Byte) : b64Need (b64Encode a x) = x.length := by
  rw [b64Need, b64Pads_b64Encode, b64Encode_length]; omega

/-- `decode(encode(b)) = b` (43_base64_codec.md R179). -/
theorem b64Decode_b64Encode (a : Alphabet) (x : List Byte) : b64Decode a (b64Encode a x) = x := by
  have h4 : (b64Encode a x).length % 4 = 0 := by rw [b64Encode_length]; omega
  have hlen := b64Decode_length a _ h4
  rw [b64Need_b64Encode] at hlen
  refine List.ext_getElem hlen fun i h1 h2 => ?_
  have := b64Decode_getD a _ h4 (i := i) (by rw [b64Need_b64Encode]; exact h2)
  rw [List.getD_eq_getElem _ _ h1] at this
  rw [this]
  obtain ⟨g0, g1, g2, g3⟩ := b64Encode_getD a x (i := i / 3) (by omega)
  -- byte `i` lies in the slices that are there; the slices that are not would be 0 anyway
  have hv : valuesOf a (b64Encode a x) (i / 3) = groupOfValues (groupSlice (chunkOf x (i / 3)) 0)
      (groupSlice (chunkOf x (i / 3)) 1)
      (if 3 * (i / 3) + 1 < x.length then groupSlice (chunkOf x (i / 3)) 2 else 0)
      (if 3 * (i / 3) + 2 < x.length then groupSlice (chunkOf x (i / 3)) 3 else 0) := by
    rw [valuesOf, g0, g1, g2, g3]
    congr 1
    · simp
    · simp
    · split <;> simp
    · split <;> simp
  rw [hv]
  obtain ⟨e0, e1, e2⟩ := groupByte_groupOfBytes (x.getD (3 * (i / 3)) 0) (x.getD (3 * (i / 3) + 1) 0)
    (x.getD (3 * (i / 3) + 2) 0)
  have hs := groupOfValues_groupSlice (chunkOf x (i / 3))
  have hr : i % 3 = 0 ∨ i % 3 = 1 ∨ i % 3 = 2 := by omega
  rcases hr with hr | hr | hr
  · rw [hr, ← firstByte_eq, firstByte_eq _ _ (groupSlice (chunkOf x (i / 3)) 2) (groupSlice (chunkOf x (i / 3)) 3), hs,
      chunkOf, e0, show 3 * (i / 3) = i by omega, List.getD_eq_getElem _ _ h2]
  · rw [hr, if_pos (by omega), ← secondByte_eq,
      secondByte_eq (groupSlice (chunkOf x (i / 3)) 0) _ _ (groupSlice (chunkOf x (i / 3)) 3), hs, chunkOf, e1,
      show 3 * (i / 3) + 1 = i by omega, List.getD_eq_getElem _ _ h2]
  · rw [hr, if_pos (by omega), if_pos (by omega), hs, chunkOf, e2, show 3 * (i / 3) + 2 = i by omega,
      List.getD_eq_getElem _ _ h2]

end Sys2Proof.Machine
end

