-- ==== Sys2Proof/Laws/Engine.lean ====
section
/-! SUPPORT. The pure functions of the Mixing Engine: they keep lengths, decode undoes encode round by round, and the step
view computes the same words. -/

namespace Sys2Proof.Machine

/-- Word `q` after word `p` was set. -/
theorem wordAt_set (v : List Word) (p q : Nat) (x : Word) :
    wordAt (v.set p x) q = if q = p ∧ p < v.length then x else wordAt v q := by
  simp only [wordAt, List.getD_eq_getElem?_getD, List.getElem?_set]
  by_cases h : p = q
  · subst h
    by_cases hl : p < v.length
    · simp [hl]
    · simp [hl]
  · simp [h, Ne.symm h]

theorem wordAt_set_self {v : List Word} {p : Nat} (h : p < v.length) (x : Word) : wordAt (v.set p x) p = x := by
  rw [wordAt_set, if_pos ⟨rfl, h⟩]

theorem wordAt_set_ne {v : List Word} {p q : Nat} (h : q ≠ p) (x : Word) : wordAt (v.set p x) q = wordAt v q := by
  rw [wordAt_set, if_neg (by simp [h])]

/-- Setting a word to what it already is changes nothing. -/
theorem set_wordAt (v : List Word) (p : Nat) : v.set p (wordAt v p) = v := by
  by_cases h : p < v.length
  · simp [wordAt, List.getD_eq_getElem?_getD, h]
  · exact List.set_eq_of_length_le (by omega)

/-! ### Lengths -/

@[simp] theorem encodeStep_length (sum : Word) (e : BitVec 2) (k : Key) (vz : List Word × Word) (p : Nat) :
    (encodeStep sum e k vz p).1.length = vz.1.length := by simp [encodeStep]

theorem foldl_encodeStep_length (sum : Word) (e : BitVec 2) (k : Key) (ps : List Nat) (vz : List Word × Word) :
    (ps.foldl (encodeStep sum e k) vz).1.length = vz.1.length := by
  induction ps generalizing vz with
  | nil => rfl
  | cons p ps ih => rw [List.foldl_cons, ih, encodeStep_length]

@[simp] theorem encodeRound_length (n : Nat) (sum : Word) (k : Key) (vz : List Word × Word) :
    (encodeRound n sum k vz).1.length = vz.1.length := by simp [encodeRound, foldl_encodeStep_length]

theorem encodeRounds_length (n : Nat) (k : Key) (r : Nat) (sum : Word) (vz : List Word × Word) :
    (encodeRounds n k r sum vz).1.length = vz.1.length := by
  induction r generalizing sum vz with
  | zero => rfl
  | succ r ih => rw [encodeRounds, ih, encodeRound_length]

@[simp] theorem xxteaEncode_length (v : List Word) (k : Key) (base : BitVec 8) :
    (xxteaEncode v k base).length = v.length := encodeRounds_length ..

@[simp] theorem decodeStep_length (sum : Word) (e : BitVec 2) (k : Key) (vy : List Word × Word) (p : Nat) :
    (decodeStep sum e k vy p).1.length = vy.1.length := by simp [decodeStep]

theorem decodeSweep_length (sum : Word) (e : BitVec 2) (k : Key) (p : Nat) (vy : List Word × Word) :
    (decodeSweep sum e k p vy).1.length = vy.1.length := by
  induction p generalizing vy with
  | zero => rfl
  | succ p ih => rw [decodeSweep, ih, decodeStep_length]

@[simp] theorem decodeRound_length (n : Nat) (sum : Word) (k : Key) (vy : List Word × Word) :
    (decodeRound n sum k vy).1.length = vy.1.length := by simp [decodeRound, decodeSweep_length]

theorem decodeRounds_length (n : Nat) (k : Key) (r : Nat) (sum : Word) (vy : List Word × Word) :
    (decodeRounds n k r sum vy).1.length = vy.1.length := by
  induction r generalizing sum vy with
  | zero => rfl
  | succ r ih => rw [decodeRounds, ih, decodeRound_length]

@[simp] theorem xxteaDecode_length (v : List Word) (k : Key) (base : BitVec 8) :
    (xxteaDecode v k base).length = v.length := decodeRounds_length ..

theorem padSingle_of_two_le {v : List Word} (h : 2 ≤ v.length) : padSingle v = v := by
  match v, h with
  | _ :: _ :: _, _ => rfl

theorem padSingle_length {v : List Word} (h : v ≠ []) : (padSingle v).length = max 2 v.length := by
  match v, h with
  | [_], _ => rfl
  | _ :: _ :: _, _ => simp [padSingle]

/-- The engine on a sequence of two words or more (42_mixing_engine.md R147). -/
theorem engine_of_two_le (dir : List Word → Key → BitVec 8 → List Word) {v : List Word} (h : 2 ≤ v.length) (k : Key)
    (base : BitVec 8) : engine dir v k base = dir v k base := by
  rw [engine, if_neg (by omega), padSingle_of_two_le h]

/-- The engine leaves the empty sequence alone (42_mixing_engine.md R147). -/
@[simp] theorem engine_nil (dir : List Word → Key → BitVec 8 → List Word) (k : Key) (base : BitVec 8) :
    engine dir [] k base = [] := rfl

theorem engine_single (dir : List Word → Key → BitVec 8 → List Word) (x : Word) (k : Key) (base : BitVec 8) :
    engine dir [x] k base = dir [x, 0] k base := rfl

/-- The output has the input's length, but 2 for a length of 1 (42_mixing_engine.md R140, R147). -/
theorem engine_length {dir : List Word → Key → BitVec 8 → List Word}
    (hd : ∀ v k base, (dir v k base).length = v.length) (v : List Word) (k : Key) (base : BitVec 8) :
    (engine dir v k base).length = if v.length = 0 then 0 else max 2 v.length := by
  by_cases h : v.length = 0
  · rw [engine, if_pos h, if_pos h, h]
  · rw [engine, if_neg h, if_neg h, hd, padSingle_length (by rintro rfl; exact h rfl)]

theorem engine_length_le {dir : List Word → Key → BitVec 8 → List Word}
    (hd : ∀ v k base, (dir v k base).length = v.length) (v : List Word) (k : Key) (base : BitVec 8) {cap : Nat}
    (h2 : 2 ≤ cap) (hv : v.length ≤ cap) : (engine dir v k base).length ≤ cap := by
  rw [engine_length hd]; split <;> omega

/-! ### Decode undoes one round of encode -/

section Round

variable (sum : Word) (e : BitVec 2) (k : Key)

/-- The inner loop of encode up to position `m`. -/
def encodeTo (v : List Word) (z : Word) (m : Nat) : List Word × Word := (List.range m).foldl (encodeStep sum e k) (v, z)

theorem encodeTo_succ (v : List Word) (z : Word) (m : Nat) :
    encodeTo sum e k v z (m + 1) = encodeStep sum e k (encodeTo sum e k v z m) m := by
  simp [encodeTo, List.range_succ]

@[simp] theorem encodeTo_length (v : List Word) (z : Word) (m : Nat) :
    (encodeTo sum e k v z m).1.length = v.length := foldl_encodeStep_length ..

/-- Positions from `m` on still hold their old word. -/
theorem encodeTo_above (v : List Word) (z : Word) {m q : Nat} (h : m ≤ q) :
    wordAt (encodeTo sum e k v z m).1 q = wordAt v q := by
  induction m with
  | zero => rfl
  | succ m ih => rw [encodeTo_succ]; simp only [encodeStep]; rw [wordAt_set_ne (by omega), ih (by omega)]

/-- `z` is the word just updated. -/
theorem encodeTo_z (v : List Word) (z : Word) {m : Nat} (h : m < v.length) :
    (encodeTo sum e k v z (m + 1)).2 = wordAt (encodeTo sum e k v z (m + 1)).1 m := by
  rw [encodeTo_succ]; simp only [encodeStep]; rw [wordAt_set_self (by simpa using h)]

/-- Decode's step at `m ≥ 1` undoes encode's step at `m` (42_mixing_engine.md R150). -/
theorem decodeStep_encodeTo (v : List Word) (z : Word) {m : Nat} (h0 : 1 ≤ m) (hm : m < v.length) :
    decodeStep sum e k ((encodeTo sum e k v z (m + 1)).1, wordAt (encodeTo sum e k v z (m + 1)).1 (m + 1)) m =
      ((encodeTo sum e k v z m).1, wordAt (encodeTo sum e k v z m).1 m) := by
  obtain ⟨j, rfl⟩ : ∃ j, m = j + 1 := ⟨m - 1, by omega⟩
  have hz := encodeTo_z sum e k v z (m := j) (by omega)
  have hl := encodeTo_length sum e k v z (j + 1)
  rw [encodeTo_succ]
  generalize encodeTo sum e k v z (j + 1) = st at hz hl
  obtain ⟨w, zz⟩ := st
  simp only at hz hl
  subst hz
  simp only [decodeStep, encodeStep, Nat.add_sub_cancel]
  rw [wordAt_set_self (by omega), wordAt_set_ne (by omega), wordAt_set_ne (by omega), add_sub_cancel_right,
    List.set_set, set_wordAt]

/-- Decode's inner loop from `m` down undoes encode's steps `m .. 1`. -/
theorem decodeSweep_encodeTo (v : List Word) (z : Word) {m : Nat} (hm : m < v.length) :
    decodeSweep sum e k m ((encodeTo sum e k v z (m + 1)).1, wordAt (encodeTo sum e k v z (m + 1)).1 (m + 1)) =
      ((encodeTo sum e k v z 1).1, wordAt (encodeTo sum e k v z 1).1 1) := by
  induction m with
  | zero => rfl
  | succ m ih => rw [decodeSweep, decodeStep_encodeTo sum e k v z (by omega) hm, ih (by omega)]

end Round

/-- After a round `z` is the last word. -/
theorem encodeRound_z {n : Nat} (hn : 1 ≤ n) (sum : Word) (k : Key) (vz : List Word × Word) (hl : vz.1.length = n) :
    (encodeRound n sum k vz).2 = wordAt (encodeRound n sum k vz).1 (n - 1) := by
  simp only [encodeRound]
  rw [wordAt_set_self]
  rw [foldl_encodeStep_length]; omega

/-- Decode's round undoes encode's round with the same `sum` (42_mixing_engine.md R150). -/
theorem decodeRound_encodeRound {n : Nat} (hn : 2 ≤ n) (sum : Word) (k : Key) (v : List Word) (hl : v.length = n) :
    decodeRound n sum k
        ((encodeRound n sum k (v, wordAt v (n - 1))).1, wordAt (encodeRound n sum k (v, wordAt v (n - 1))).1 0) =
      (v, wordAt v 0) := by
  obtain ⟨m, rfl⟩ : ∃ m, n = m + 2 := ⟨n - 2, by omega⟩
  set e := keyModifier sum with he
  set z := wordAt v (m + 1) with hz
  -- the whole inner loop, then the wrap-around
  have henc : (encodeRound (m + 2) sum k (v, wordAt v (m + 2 - 1))).1 =
      (encodeTo sum e k v z (m + 1)).1.set (m + 1) (wordAt (encodeTo sum e k v z (m + 1)).1 (m + 1) +
        mx sum (wordAt (encodeTo sum e k v z (m + 1)).1 0) (encodeTo sum e k v z (m + 1)).2 (m + 1) e k) := rfl
  have hlen := encodeTo_length sum e k v z (m + 1)
  have hzz := encodeTo_z sum e k v z (m := m) (by omega)
  have hsw := decodeSweep_encodeTo sum e k v z (m := m) (by omega)
  rw [henc, decodeRound, ← he]
  -- the step at position m + 1 restores the last word
  have hfirst : decodeStep sum e k
      ((encodeTo sum e k v z (m + 1)).1.set (m + 1) (wordAt (encodeTo sum e k v z (m + 1)).1 (m + 1) +
        mx sum (wordAt (encodeTo sum e k v z (m + 1)).1 0) (encodeTo sum e k v z (m + 1)).2 (m + 1) e k),
      wordAt ((encodeTo sum e k v z (m + 1)).1.set (m + 1) (wordAt (encodeTo sum e k v z (m + 1)).1 (m + 1) +
        mx sum (wordAt (encodeTo sum e k v z (m + 1)).1 0) (encodeTo sum e k v z (m + 1)).2 (m + 1) e k)) 0) (m + 1) =
      ((encodeTo sum e k v z (m + 1)).1, wordAt (encodeTo sum e k v z (m + 1)).1 (m + 1)) := by
    rw [hzz]
    generalize (encodeTo sum e k v z (m + 1)).1 = w at hlen
    simp only [decodeStep, Nat.add_sub_cancel]
    rw [wordAt_set_self (by omega), wordAt_set_ne (by omega), wordAt_set_ne (by omega), add_sub_cancel_right,
      List.set_set, set_wordAt]
  simp only [show m + 2 - 1 = m + 1 by omega, decodeSweep]
  rw [hfirst, hsw]
  -- index 0
  have h1 : encodeTo sum e k v z 1 = encodeStep sum e k (v, z) 0 := rfl
  simp only [h1, encodeStep, Nat.zero_add]
  rw [wordAt_set_self (by omega), wordAt_set_ne (by omega), wordAt_set_ne (by omega), ← hz, add_sub_cancel_right,
    List.set_set, set_wordAt]

/-! ### Decode undoes encode -/

theorem ofNat_one_mul (x : Word) : BitVec.ofNat 32 1 * x = x := one_mul x

/-- The last round of encode, split off: its `sum` is `r + 1` increments above the start. -/
theorem encodeRounds_succ (n : Nat) (k : Key) (r : Nat) (sum : Word) (vz : List Word × Word) :
    encodeRounds n k (r + 1) sum vz =
      encodeRound n (sum + BitVec.ofNat 32 (r + 1) * Config.delta) k (encodeRounds n k r sum vz) := by
  induction r generalizing sum vz with
  | zero => rw [encodeRounds, encodeRounds, encodeRounds, Nat.zero_add, ofNat_one_mul]
  | succ r ih =>
    rw [encodeRounds, ih, ← encodeRounds, BitVec.ofNat_add (r + 1) 1, add_mul, ofNat_one_mul, add_assoc,
      add_comm Config.delta]

theorem encodeRounds_z {n : Nat} (hn : 1 ≤ n) (k : Key) (r : Nat) (sum : Word) {v : List Word} (hl : v.length = n) :
    (encodeRounds n k r sum (v, wordAt v (n - 1))).2 = wordAt (encodeRounds n k r sum (v, wordAt v (n - 1))).1 (n - 1) := by
  cases r with
  | zero => rfl
  | succ r => rw [encodeRounds_succ]; exact encodeRound_z hn _ _ _ (by rw [encodeRounds_length]; exact hl)

theorem decodeRounds_encodeRounds {n : Nat} (hn : 2 ≤ n) (k : Key) (r : Nat) (sum : Word) {v : List Word}
    (hl : v.length = n) :
    (decodeRounds n k r (sum + BitVec.ofNat 32 r * Config.delta)
      ((encodeRounds n k r sum (v, wordAt v (n - 1))).1, wordAt (encodeRounds n k r sum (v, wordAt v (n - 1))).1 0)).1 =
      v := by
  induction r with
  | zero => rfl
  | succ r ih =>
    have hz := encodeRounds_z (by omega : 1 ≤ n) k r sum hl
    have hlen := encodeRounds_length n k r sum (v, wordAt v (n - 1))
    rw [encodeRounds_succ, decodeRounds]
    generalize encodeRounds n k r sum (v, wordAt v (n - 1)) = st at hz hlen ih
    obtain ⟨w, z⟩ := st
    simp only at hz hlen ih
    subst hz
    rw [decodeRound_encodeRound hn _ k w (by omega), BitVec.ofNat_add r 1]
    rw [show sum + (BitVec.ofNat 32 r + BitVec.ofNat 32 1) * Config.delta - Config.delta =
      sum + BitVec.ofNat 32 r * Config.delta by
      rw [add_mul, ofNat_one_mul, ← add_assoc, add_sub_cancel_right]]
    exact ih

/-- `decode(encode(v)) = v` for two words or more (42_mixing_engine.md R150). -/
theorem xxteaDecode_xxteaEncode {v : List Word} (h : 2 ≤ v.length) (k : Key) (base : BitVec 8) :
    xxteaDecode (xxteaEncode v k base) k base = v := by
  have := decodeRounds_encodeRounds h k (roundCount base v.length) 0 (v := v) rfl
  rw [xxteaDecode, xxteaEncode_length]
  simpa [xxteaEncode] using this

/-- `encode(decode(v)) = v` for two words or more: encode is injective on the finitely many sequences of a length, so it
is onto, and decode undoes it (42_mixing_engine.md R150). -/
theorem xxteaEncode_xxteaDecode {v : List Word} (h : 2 ≤ v.length) (k : Key) (base : BitVec 8) :
    xxteaEncode (xxteaDecode v k base) k base = v := by
  let f : List.Vector Word v.length → List.Vector Word v.length := fun w =>
    ⟨xxteaEncode w.1 k base, by rw [xxteaEncode_length, w.2]⟩
  have hinj : Function.Injective f := by
    intro a b hab
    have := congrArg (fun w : List.Vector Word v.length => xxteaDecode w.1 k base) hab
    simp only [f] at this
    rw [xxteaDecode_xxteaEncode (by rw [a.2]; exact h), xxteaDecode_xxteaEncode (by rw [b.2]; exact h)] at this
    exact Subtype.ext this
  have : Finite Word := Finite.of_injective BitVec.toFin (fun _ _ => BitVec.eq_of_toFin_eq)
  have : Finite (List.Vector Word v.length) :=
    Finite.of_injective (fun w : List.Vector Word v.length => w.get) (fun a b hab => List.Vector.ext fun i => congrFun hab i)
  obtain ⟨w, hw⟩ := (Finite.injective_iff_surjective.1 hinj) ⟨v, rfl⟩
  have hv : xxteaEncode w.1 k base = v := congrArg Subtype.val hw
  rw [← hv, xxteaDecode_xxteaEncode (by rw [w.2]; exact h)]

/-- The inverse law of the whole engine, the length-1 padding with it (42_mixing_engine.md R150): a sequence of two words
or more comes back, the empty one comes back, and `[x]` comes back as `[x, 0]`. -/
theorem engine_decode_encode (v : List Word) (k : Key) (base : BitVec 8) :
    engine xxteaDecode (engine xxteaEncode v k base) k base = padSingle v := by
  by_cases hv : v = []
  · subst hv; rfl
  · have h := padSingle_length hv
    have he : engine xxteaEncode v k base = xxteaEncode (padSingle v) k base := by rw [engine, if_neg (by simpa using hv)]
    rw [he, engine_of_two_le _ (by simp [h]), xxteaDecode_xxteaEncode (by omega)]

/-! ### The step view -/

theorem steps_add (next : EngineRegs → EngineRegs) (a b : Nat) (r : EngineRegs) :
    EngineRegs.steps next (a + b) r = EngineRegs.steps next b (EngineRegs.steps next a r) := by
  induction a generalizing r with
  | zero => simp [EngineRegs.steps]
  | succ a ih => rw [Nat.succ_add, EngineRegs.steps, EngineRegs.steps, ih]

theorem steps_succ (next : EngineRegs → EngineRegs) (a : Nat) (r : EngineRegs) :
    EngineRegs.steps next (a + 1) r = next (EngineRegs.steps next a r) := steps_add next a 1 r

/-- `m` steps of a round of encode are its inner loop up to `m`. -/
theorem steps_encode_inner (k : Key) (v : List Word) (sum : Word) (e : BitVec 2) (y z : Word) (q : Nat) {m : Nat}
    (hm : m ≤ v.length - 1) :
    ∃ y', EngineRegs.steps (EngineRegs.encodeNext k) m
        { v := v, sum := sum, e := e, y := y, z := z, p := 0, q := q } =
      { v := (encodeTo sum e k v z m).1, sum := sum, e := e, y := y', z := (encodeTo sum e k v z m).2, p := m, q := q } := by
  induction m with
  | zero => exact ⟨y, rfl⟩
  | succ m ih =>
    obtain ⟨y', hy⟩ := ih (by omega)
    rw [steps_succ, hy]
    have hne : ¬ m = (encodeTo sum e k v z m).1.length - 1 := by rw [encodeTo_length]; omega
    simp only [EngineRegs.encodeNext, hne, if_false]
    exact ⟨_, by rw [encodeTo_succ]; rfl⟩

/-- `n` steps are one round of encode. -/
theorem steps_encode_round (k : Key) (v : List Word) (hv : 1 ≤ v.length) (sum : Word) (y z : Word) (q : Nat) :
    ∃ y', EngineRegs.steps (EngineRegs.encodeNext k) v.length
        { v := v, sum := sum, e := keyModifier sum, y := y, z := z, p := 0, q := q } =
      { v := (encodeRound v.length sum k (v, z)).1, sum := sum + Config.delta, e := keyModifier (sum + Config.delta),
        y := y', z := (encodeRound v.length sum k (v, z)).2, p := 0, q := q + 1 } := by
  obtain ⟨y', hy⟩ := steps_encode_inner k v sum (keyModifier sum) y z q (m := v.length - 1) le_rfl
  have hs : EngineRegs.steps (EngineRegs.encodeNext k) v.length
      { v := v, sum := sum, e := keyModifier sum, y := y, z := z, p := 0, q := q } = _ :=
    (congrArg (fun c => EngineRegs.steps (EngineRegs.encodeNext k) c _) (show v.length = v.length - 1 + 1 by omega)).trans
      (steps_succ _ _ _)
  rw [hs, hy]
  have heq : (v.length - 1) = (encodeTo sum (keyModifier sum) k v z (v.length - 1)).1.length - 1 := by
    rw [encodeTo_length]
  simp only [EngineRegs.encodeNext, ← heq, if_true]
  exact ⟨_, rfl⟩

theorem steps_encode_rounds (k : Key) (n : Nat) (hn : 1 ≤ n) (r : Nat) :
    ∀ (v : List Word) (_ : v.length = n) (sum : Word) (y z : Word) (q : Nat),
      (EngineRegs.steps (EngineRegs.encodeNext k) (r * n)
        { v := v, sum := sum + Config.delta, e := keyModifier (sum + Config.delta), y := y, z := z, p := 0, q := q }).v =
      (encodeRounds n k r sum (v, z)).1 := by
  induction r with
  | zero => intro v _ sum y z q; simp [EngineRegs.steps, encodeRounds]
  | succ r ih =>
    intro v hv sum y z q
    obtain ⟨y', hy⟩ := steps_encode_round k v (by omega) (sum + Config.delta) y z q
    rw [hv] at hy
    rw [Nat.succ_mul, Nat.add_comm, steps_add, hy, encodeRounds]
    have hl := encodeRound_length n (sum + Config.delta) k (v, z)
    generalize encodeRound n (sum + Config.delta) k (v, z) = st at hl
    exact ih st.1 (by rw [hl]; exact hv) _ _ _ _

/-- The step view of encode and the function view agree (42_mixing_engine.md R152). -/
theorem steps_encode (k : Key) (base : BitVec 8) {v : List Word} (hv : 1 ≤ v.length) :
    (EngineRegs.steps (EngineRegs.encodeNext k) (roundCount base v.length * v.length) (EngineRegs.encodeStart v)).v =
      xxteaEncode v k base := by
  have := steps_encode_rounds k v.length hv (roundCount base v.length) v rfl 0 0 (wordAt v (v.length - 1)) 1
  simpa [EngineRegs.encodeStart, xxteaEncode] using this

/-- The inner loop of decode, run step by step from position `p` down to 0. -/
theorem steps_decode_inner (k : Key) (sum : Word) (e : BitVec 2) (q : Nat) (p : Nat) :
    ∀ (v : List Word) (_ : p < v.length) (y z : Word),
      ∃ z', EngineRegs.steps (EngineRegs.decodeNext k) p
          { v := v, sum := sum, e := e, y := y, z := z, p := p, q := q } =
        { v := (decodeSweep sum e k p (v, y)).1, sum := sum, e := e, y := (decodeSweep sum e k p (v, y)).2, z := z',
          p := 0, q := q } := by
  induction p with
  | zero => intro v _ y z; exact ⟨z, rfl⟩
  | succ p ih =>
    intro v hp y z
    have hne : ¬ p + 1 = 0 := by omega
    simp only [EngineRegs.steps, EngineRegs.decodeNext, hne, if_false, Nat.add_sub_cancel, decodeSweep, decodeStep]
    exact ih _ (by simp; omega) _ _

/-- `n` steps are one round of decode. -/
theorem steps_decode_round (k : Key) (v : List Word) (hv : 1 ≤ v.length) (sum : Word) (y z : Word) (q : Nat) :
    ∃ z', EngineRegs.steps (EngineRegs.decodeNext k) v.length
        { v := v, sum := sum, e := keyModifier sum, y := y, z := z, p := v.length - 1, q := q } =
      { v := (decodeRound v.length sum k (v, y)).1, sum := sum - Config.delta, e := keyModifier (sum - Config.delta),
        y := (decodeRound v.length sum k (v, y)).2, z := z', p := v.length - 1, q := q + 1 } := by
  obtain ⟨z', hz⟩ := steps_decode_inner k sum (keyModifier sum) q (v.length - 1) v (by omega) y z
  have hs : EngineRegs.steps (EngineRegs.decodeNext k) v.length
      { v := v, sum := sum, e := keyModifier sum, y := y, z := z, p := v.length - 1, q := q } = _ :=
    (congrArg (fun c => EngineRegs.steps (EngineRegs.decodeNext k) c _) (show v.length = v.length - 1 + 1 by omega)).trans
      (steps_succ _ _ _)
  rw [hs, hz]
  simp only [EngineRegs.decodeNext, if_true, decodeSweep_length]
  exact ⟨_, rfl⟩

theorem steps_decode_rounds (k : Key) (n : Nat) (hn : 1 ≤ n) (r : Nat) :
    ∀ (v : List Word) (_ : v.length = n) (sum : Word) (y z : Word) (q : Nat),
      (EngineRegs.steps (EngineRegs.decodeNext k) (r * n)
        { v := v, sum := sum, e := keyModifier sum, y := y, z := z, p := n - 1, q := q }).v =
      (decodeRounds n k r sum (v, y)).1 := by
  induction r with
  | zero => intro v _ sum y z q; simp [EngineRegs.steps, decodeRounds]
  | succ r ih =>
    intro v hv sum y z q
    obtain ⟨z', hz⟩ := steps_decode_round k v (by omega) sum y z q
    rw [hv] at hz
    rw [Nat.succ_mul, Nat.add_comm, steps_add, hz, decodeRounds]
    have hl := decodeRound_length n sum k (v, y)
    generalize decodeRound n sum k (v, y) = st at hl
    exact ih st.1 (by rw [hl]; exact hv) _ _ _ _

/-- The step view of decode and the function view agree (42_mixing_engine.md R152). -/
theorem steps_decode (k : Key) (base : BitVec 8) {v : List Word} (hv : 1 ≤ v.length) :
    (EngineRegs.steps (EngineRegs.decodeNext k) (roundCount base v.length * v.length)
      (EngineRegs.decodeStart v base)).v = xxteaDecode v k base :=
  steps_decode_rounds k v.length hv (roundCount base v.length) v rfl _ (wordAt v 0) 0 1

end Sys2Proof.Machine
end

