-- ==== Sys2Proof/Laws/Memory.lean ====
section
/-! SUPPORT. The laws of the memories: read after write, the canonical form every operation keeps, and that equal reads
of canonical memories make equal memories. -/

namespace Sys2Proof.Machine

variable {width : Nat}

@[simp] theorem read_nil (i : Nat) : Memory.read ([] : Memory width) i = 0 := rfl

@[simp] theorem take_length (m : Memory width) (len : Nat) : (m.take len).length = len := by simp [Memory.take]

theorem take_getD (m : Memory width) {len i : Nat} (h : i < len) (d : BitVec width) :
    (m.take len).getD i d = m.read i := by
  simp [Memory.take, List.getD_eq_getElem?_getD, h]

theorem take_getElem (m : Memory width) {len i : Nat} (h : i < (m.take len).length) : (m.take len)[i] = m.read i := by
  simp [Memory.take]

/-- What a canonical form from `lo` on says of its head and tail. -/
theorem wfFrom_cons {cap lo i : Nat} {x : BitVec width} {m : Memory width} :
    Memory.wfFrom cap lo ((i, x) :: m) = true ↔
      lo ≤ i ∧ i < cap ∧ x ≠ 0 ∧ Memory.wfFrom cap (i + 1) m = true := by
  change (_ && decide (x ≠ Memory.unlisted width) && _) = true ↔ _
  rw [Bool.and_eq_true, Bool.and_eq_true, Bool.and_eq_true, decide_eq_true_iff, decide_eq_true_iff, decide_eq_true_iff,
    and_assoc, and_assoc]
  rfl

theorem wfFrom_mono {cap lo lo' : Nat} {m : Memory width} (h : Memory.wfFrom cap lo m = true) (hl : lo' ≤ lo) :
    Memory.wfFrom cap lo' m = true := by
  cases m with
  | nil => rfl
  | cons c m => obtain ⟨i, x⟩ := c; rw [wfFrom_cons] at h ⊢; exact ⟨hl.trans h.1, h.2⟩

/-- A cell outside `lo..cap-1` is not listed. -/
theorem read_of_wfFrom {cap lo i : Nat} {m : Memory width} (h : Memory.wfFrom cap lo m = true)
    (hi : i < lo ∨ cap ≤ i) : m.read i = 0 := by
  induction m generalizing lo with
  | nil => rfl
  | cons c m ih =>
    obtain ⟨j, x⟩ := c
    rw [wfFrom_cons] at h
    rw [Memory.read, if_neg (by omega)]
    exact ih h.2.2.2 (by omega)

theorem read_of_cap_le {cap i : Nat} {m : Memory width} (h : m.wf cap = true) (hi : cap ≤ i) : m.read i = 0 :=
  read_of_wfFrom h (.inr hi)

theorem read_consCell {cap lo i j : Nat} {x : BitVec width} {m : Memory width}
    (h : Memory.wfFrom cap lo m = true) (hi : i < lo) :
    (Memory.consCell i x m).read j = if j = i then x else m.read j := by
  unfold Memory.consCell
  split
  · next hx =>
    split
    · next hj => subst hj; rw [hx]; exact read_of_wfFrom h (.inl hi)
    · rfl
  · rfl

/-- Read after write: the cell written holds the value, every other cell what it held. -/
theorem read_write_from {cap lo i j : Nat} {x : BitVec width} {m : Memory width}
    (h : Memory.wfFrom cap lo m = true) : (m.write i x).read j = if j = i then x else m.read j := by
  induction m generalizing lo with
  | nil => exact read_consCell (cap := i) (lo := i + 1) rfl (Nat.lt_succ_self i)
  | cons c m ih =>
    obtain ⟨a, y⟩ := c
    have hc := h
    rw [wfFrom_cons] at h
    unfold Memory.write
    split
    · next hlt =>
      exact read_consCell (lo := a) (wfFrom_cons.2 ⟨le_rfl, h.2⟩) hlt
    · split
      · next hlt heq =>
        subst heq
        rw [read_consCell h.2.2.2 (Nat.lt_succ_self _)]
        simp only [Memory.read]
        split <;> rfl
      · next hlt hne =>
        simp only [Memory.read, ih h.2.2.2]
        split <;> split <;> first | rfl | omega

theorem read_write {cap i j : Nat} {x : BitVec width} {m : Memory width} (h : m.wf cap = true) :
    (m.write i x).read j = if j = i then x else m.read j := read_write_from h

theorem wfFrom_consCell {cap lo i : Nat} {x : BitVec width} {m : Memory width}
    (h : Memory.wfFrom cap (i + 1) m = true) (hl : lo ≤ i) (hi : i < cap) :
    Memory.wfFrom cap lo (Memory.consCell i x m) = true := by
  unfold Memory.consCell
  split
  · exact wfFrom_mono h (by omega)
  · next hx => exact wfFrom_cons.2 ⟨hl, hi, hx, h⟩

/-- A write below the capacity keeps the canonical form. -/
theorem wfFrom_write {cap lo i : Nat} {x : BitVec width} {m : Memory width} (h : Memory.wfFrom cap lo m = true)
    (hl : lo ≤ i) (hi : i < cap) : Memory.wfFrom cap lo (m.write i x) = true := by
  induction m generalizing lo with
  | nil => exact wfFrom_consCell rfl hl hi
  | cons c m ih =>
    obtain ⟨a, y⟩ := c
    have hc := h
    rw [wfFrom_cons] at h
    unfold Memory.write
    split
    · exact wfFrom_consCell (wfFrom_cons.2 ⟨by omega, h.2⟩) hl hi
    · split
      · next hlt heq => subst heq; exact wfFrom_consCell h.2.2.2 hl hi
      · next hlt hne => exact wfFrom_cons.2 ⟨h.1, h.2.1, h.2.2.1, ih h.2.2.2 (by omega)⟩

theorem wf_write {cap i : Nat} {x : BitVec width} {m : Memory width} (h : m.wf cap = true) (hi : i < cap) :
    (m.write i x).wf cap = true := wfFrom_write h (Nat.zero_le i) hi

/-- A write of a result that fits keeps the canonical form. -/
theorem wf_fill {cap : Nat} {xs : List (BitVec width)} {m : Memory width} {lo : Nat} (h : m.wf cap = true)
    (hi : lo + xs.length ≤ cap) : (m.fill lo xs).wf cap = true := by
  induction xs generalizing m lo with
  | nil => exact h
  | cons x xs ih =>
    simp only [List.length_cons] at hi
    exact ih (wf_write h (by omega)) (by omega)

/-- What a cell holds after a result was written from `lo` on. -/
theorem read_fill {cap : Nat} {xs : List (BitVec width)} {m : Memory width} {lo j : Nat} (h : m.wf cap = true)
    (hi : lo + xs.length ≤ cap) :
    (m.fill lo xs).read j = if lo ≤ j ∧ j < lo + xs.length then xs.getD (j - lo) 0 else m.read j := by
  induction xs generalizing m lo with
  | nil => simp only [Memory.fill, List.length_nil]; rw [if_neg (by omega)]
  | cons x xs ih =>
    simp only [List.length_cons] at hi ⊢
    rw [Memory.fill, ih (wf_write h (by omega)) (by omega), read_write h]
    by_cases hj : j = lo
    · subst hj; rw [if_neg (by omega), if_pos rfl, if_pos (by omega)]; simp
    · rw [if_neg hj]
      by_cases hr : lo + 1 ≤ j ∧ j < lo + 1 + xs.length
      · rw [if_pos hr, if_pos (by omega), show j - lo = (j - (lo + 1)) + 1 by omega, List.getD_cons_succ]
      · rw [if_neg hr, if_neg (by omega)]

/-- The case every command uses: a result written from cell 0 on. -/
theorem read_fill_zero {cap : Nat} {xs : List (BitVec width)} {m : Memory width} {j : Nat} (h : m.wf cap = true)
    (hi : xs.length ≤ cap) : (m.fill 0 xs).read j = if j < xs.length then xs.getD j 0 else m.read j := by
  rw [read_fill h (by omega)]; simp

/-- Two canonical memories that read the same are the same. -/
theorem eq_of_read_from {cap lo : Nat} {m m' : Memory width} (h : Memory.wfFrom cap lo m = true)
    (h' : Memory.wfFrom cap lo m' = true) (hr : ∀ i, m.read i = m'.read i) : m = m' := by
  induction m generalizing lo m' with
  | nil =>
    cases m' with
    | nil => rfl
    | cons c m' =>
      obtain ⟨a, y⟩ := c
      have := hr a
      simp only [Memory.read, if_pos] at this
      exact absurd this.symm (wfFrom_cons.1 h').2.2.1
  | cons c m ih =>
    obtain ⟨a, y⟩ := c
    have hm := wfFrom_cons.1 h
    cases m' with
    | nil =>
      have := hr a
      simp only [Memory.read, if_pos] at this
      exact absurd this hm.2.2.1
    | cons c' m' =>
      obtain ⟨a', y'⟩ := c'
      have hm' := wfFrom_cons.1 h'
      have key : a = a' := by
        rcases Nat.lt_trichotomy a a' with hlt | heq | hlt
        · have := hr a
          rw [read_of_wfFrom (lo := a') (wfFrom_cons.2 ⟨le_rfl, hm'.2⟩) (.inl hlt)] at this
          simp only [Memory.read, if_pos] at this
          exact absurd this hm.2.2.1
        · exact heq
        · have := hr a'
          rw [read_of_wfFrom (lo := a) (wfFrom_cons.2 ⟨le_rfl, hm.2⟩) (.inl hlt)] at this
          simp only [Memory.read, if_pos] at this
          exact absurd this.symm hm'.2.2.1
      subst key
      have hy : y = y' := by simpa [Memory.read] using hr a
      subst hy
      rw [ih hm.2.2.2 hm'.2.2.2]
      intro i
      by_cases hi : i = a
      · subst hi
        rw [read_of_wfFrom hm.2.2.2 (.inl (Nat.lt_succ_self _)), read_of_wfFrom hm'.2.2.2 (.inl (Nat.lt_succ_self _))]
      · have := hr i
        simpa only [Memory.read, if_neg hi] using this

theorem eq_of_read {cap : Nat} {m m' : Memory width} (h : m.wf cap = true) (h' : m'.wf cap = true)
    (hr : ∀ i, m.read i = m'.read i) : m = m' := eq_of_read_from h h' hr

/-- Writing back what the cells hold changes nothing. -/
theorem fill_take {cap len : Nat} {m : Memory width} (h : m.wf cap = true) (hl : len ≤ cap) :
    m.fill 0 (m.take len) = m := by
  refine eq_of_read (wf_fill h (by simpa using hl)) h fun i => ?_
  rw [read_fill_zero h (by simpa using hl), take_length]
  split
  · next hi => exact take_getD m hi 0
  · rfl

/-- The source a later command reads is the result an earlier one wrote. -/
theorem take_fill {cap : Nat} {xs : List (BitVec width)} {m : Memory width} (h : m.wf cap = true)
    (hi : xs.length ≤ cap) : (m.fill 0 xs).take xs.length = xs := by
  refine List.ext_getElem (by simp) fun i h1 h2 => ?_
  rw [take_getElem, read_fill_zero h hi, if_pos h2]
  simp [List.getD_eq_getElem?_getD, h2]

/-- A store over a store of the same length. -/
theorem fill_fill {cap : Nat} {m : Memory width} (h : m.wf cap = true) {xs ys : List (BitVec width)}
    (hx : xs.length ≤ cap) (hy : ys.length = xs.length) : (m.fill 0 xs).fill 0 ys = m.fill 0 ys := by
  have h1 := wf_fill (xs := xs) (lo := 0) h (by omega)
  refine eq_of_read (wf_fill h1 (by omega)) (wf_fill h (by omega)) fun i => ?_
  rw [read_fill_zero h1 (by omega), read_fill_zero h (by omega), read_fill_zero h (by omega), hy]
  split <;> rfl

end Sys2Proof.Machine
end

