-- ==== Sys2Proof/Laws/State.lean ====
section
/-! SUPPORT. One lemma per field of the block per shared update, all by `rfl`. -/

namespace Sys2Proof.Machine

section

variable (c : Cause) (info cmd : Word) (b : Block)

@[simp] theorem raiseFault_params : (raiseFault c info cmd b).params = b.params := rfl

@[simp] theorem raiseFault_k : (raiseFault c info cmd b).k = b.k := rfl

@[simp] theorem raiseFault_v : (raiseFault c info cmd b).v = b.v := rfl

@[simp] theorem raiseFault_n : (raiseFault c info cmd b).n = b.n := rfl

@[simp] theorem raiseFault_b : (raiseFault c info cmd b).b = b.b := rfl

@[simp] theorem raiseFault_blen : (raiseFault c info cmd b).blen = b.blen := rfl

@[simp] theorem raiseFault_t : (raiseFault c info cmd b).t = b.t := rfl

@[simp] theorem raiseFault_tlen : (raiseFault c info cmd b).tlen = b.tlen := rfl

@[simp] theorem raiseFault_cfg : (raiseFault c info cmd b).cfg = b.cfg := rfl

@[simp] theorem raiseFault_status : (raiseFault c info cmd b).status = Status.faulted c := rfl

@[simp] theorem raiseFault_errCode : (raiseFault c info cmd b).errCode = c.code := rfl

@[simp] theorem raiseFault_errInfo : (raiseFault c info cmd b).errInfo = info := rfl

@[simp] theorem raiseFault_errCmd : (raiseFault c info cmd b).errCmd = cmd := rfl

@[simp] theorem ackFault_params : (ackFault b).params = b.params := rfl

@[simp] theorem ackFault_k : (ackFault b).k = b.k := rfl

@[simp] theorem ackFault_v : (ackFault b).v = b.v := rfl

@[simp] theorem ackFault_n : (ackFault b).n = b.n := rfl

@[simp] theorem ackFault_b : (ackFault b).b = b.b := rfl

@[simp] theorem ackFault_blen : (ackFault b).blen = b.blen := rfl

@[simp] theorem ackFault_t : (ackFault b).t = b.t := rfl

@[simp] theorem ackFault_tlen : (ackFault b).tlen = b.tlen := rfl

@[simp] theorem ackFault_cfg : (ackFault b).cfg = b.cfg := rfl

@[simp] theorem ackFault_status : (ackFault b).status = Status.ready := rfl

@[simp] theorem ackFault_errCode : (ackFault b).errCode = 0 := rfl

@[simp] theorem ackFault_errInfo : (ackFault b).errInfo = 0 := rfl

@[simp] theorem ackFault_errCmd : (ackFault b).errCmd = 0 := rfl

end

section

variable (p : Config.Params)

@[simp] theorem reset_params : (Block.reset p).params = p := rfl

@[simp] theorem reset_k : (Block.reset p).k = Key.zero := rfl

@[simp] theorem reset_v : (Block.reset p).v = [] := rfl

@[simp] theorem reset_n : (Block.reset p).n = 0 := rfl

@[simp] theorem reset_b : (Block.reset p).b = [] := rfl

@[simp] theorem reset_blen : (Block.reset p).blen = 0 := rfl

@[simp] theorem reset_t : (Block.reset p).t = [] := rfl

@[simp] theorem reset_tlen : (Block.reset p).tlen = 0 := rfl

@[simp] theorem reset_cfg : (Block.reset p).cfg = Cfg.reset := rfl

@[simp] theorem reset_status : (Block.reset p).status = Status.ready := rfl

@[simp] theorem reset_errCode : (Block.reset p).errCode = 0 := rfl

@[simp] theorem reset_errInfo : (Block.reset p).errInfo = 0 := rfl

@[simp] theorem reset_errCmd : (Block.reset p).errCmd = 0 := rfl

end

@[simp] theorem faulted_err (c : Cause) : (Status.faulted c).err = true := rfl

@[simp] theorem faulted_eclass (c : Cause) : (Status.faulted c).eclass = c.eclass := rfl

@[simp] theorem ready_err : Status.ready.err = false := rfl

@[simp] theorem ready_eclass : Status.ready.eclass = false := rfl

theorem tableWord_of_lt (nbits w : Nat) (h : w < 2 ^ nbits) :
    tableWord nbits w = BitVec.ofNat 32 w := by rw [tableWord, Nat.mod_eq_of_lt h]

end Sys2Proof.Machine
end

