-- ==== Sys2Proof/Laws/Ops.lean ====
section
/-! SUPPORT. What the shared operations do: the frame of a command, the three destinations, and the parts of a
well-formed block. -/

namespace Sys2Proof.Machine

/-! ### The frame of a command -/

theorem whenReady_ready {s : State} (h : s.Ready) (f : Block → Block) :
    whenReady s f = .next { s with block := f s.block } := by
  unfold State.Ready at h
  simp [whenReady, h]

theorem whenReady_faulted {s : State} (h : s.Faulted) (f : Block → Block) : whenReady s f = .next s := by
  unfold State.Faulted at h
  simp [whenReady, h]

/-- Everything a command can do: it always completes; FAULTED it changes nothing, READY it changes the block only. -/
theorem whenReady_cases {s t : State} {f : Block → Block} (h : whenReady s f = .next t) :
    (s.Faulted ∧ t = s) ∨ (s.Ready ∧ t = { s with block := f s.block }) := by
  unfold State.Faulted State.Ready
  cases hs : s.block.status.err <;> simp_all [whenReady]

/-- READY and FAULTED exclude each other. -/
theorem ready_or_faulted (s : State) : s.Ready ∨ s.Faulted := by
  unfold State.Faulted State.Ready; cases s.block.status.err <;> simp

/-! ### Destinations -/

theorem storeWords_fits {b : Block} {w : List Word} (cmd : Word) (h : w.length ≤ b.params.nmax) :
    storeWords cmd w b = { b with v := b.v.fill 0 w, n := BitVec.ofNat 32 w.length } := by
  rw [storeWords, if_neg (by omega)]

theorem storeBytes_fits {b : Block} {x : List Byte} (cmd : Word) (h : x.length ≤ b.params.bmax) :
    storeBytes cmd x b = { b with b := b.b.fill 0 x, blen := BitVec.ofNat 32 x.length } := by
  rw [storeBytes, if_neg (by omega)]

theorem storeText_fits {b : Block} {x : List Byte} (cmd : Word) (h : x.length ≤ b.params.tmax) :
    storeText cmd x b = { b with t := b.t.fill 0 x, tlen := BitVec.ofNat 32 x.length } := by
  rw [storeText, if_neg (by omega)]

/-! Everything a store to a destination can do. -/

theorem storeWords_cases (cmd : Word) (w : List Word) (b : Block) :
    (b.params.nmax < w.length ∧ storeWords cmd w b = raiseFault .capacity (BitVec.ofNat 32 w.length) cmd b) ∨
      (w.length ≤ b.params.nmax ∧
        storeWords cmd w b = { b with v := b.v.fill 0 w, n := BitVec.ofNat 32 w.length }) := by
  by_cases h : w.length ≤ b.params.nmax
  · exact .inr ⟨h, storeWords_fits cmd h⟩
  · exact .inl ⟨by omega, by rw [storeWords, if_pos (by omega)]⟩

theorem storeBytes_cases (cmd : Word) (x : List Byte) (b : Block) :
    (b.params.bmax < x.length ∧ storeBytes cmd x b = raiseFault .capacity (BitVec.ofNat 32 x.length) cmd b) ∨
      (x.length ≤ b.params.bmax ∧
        storeBytes cmd x b = { b with b := b.b.fill 0 x, blen := BitVec.ofNat 32 x.length }) := by
  by_cases h : x.length ≤ b.params.bmax
  · exact .inr ⟨h, storeBytes_fits cmd h⟩
  · exact .inl ⟨by omega, by rw [storeBytes, if_pos (by omega)]⟩

theorem storeText_cases (cmd : Word) (x : List Byte) (b : Block) :
    (b.params.tmax < x.length ∧ storeText cmd x b = raiseFault .capacity (BitVec.ofNat 32 x.length) cmd b) ∨
      (x.length ≤ b.params.tmax ∧
        storeText cmd x b = { b with t := b.t.fill 0 x, tlen := BitVec.ofNat 32 x.length }) := by
  by_cases h : x.length ≤ b.params.tmax
  · exact .inr ⟨h, storeText_fits cmd h⟩
  · exact .inl ⟨by omega, by rw [storeText, if_pos (by omega)]⟩

/-! ### A well-formed block -/

/-- The parts of `Block.wf`, each as a proposition. -/
structure Block.WfParts (b : Block) : Prop where
  nmax_ge : 2 ≤ b.params.nmax
  nmax_le : b.params.nmax ≤ 1024
  n_le : b.n.toNat ≤ b.params.nmax
  blen_le : b.blen.toNat ≤ b.params.bmax
  tlen_le : b.tlen.toNat ≤ b.params.tmax
  v_wf : b.v.wf b.params.nmax = true
  b_wf : b.b.wf b.params.bmax = true
  t_wf : b.t.wf b.params.tmax = true
  fault_wf : b.faultWf = true

theorem Block.wf_iff (b : Block) : b.wf = true ↔ b.WfParts := by
  simp only [Block.wf, Block.lengthsWf, Block.memoriesWf, Config.Params.wellFormed, Bool.and_eq_true,
    decide_eq_true_iff]
  constructor
  · rintro ⟨⟨⟨⟨h1, h2⟩, ⟨h3, h4⟩, h5⟩, ⟨h6, h7⟩, h8⟩, h9⟩
    exact ⟨h1, h2, h3, h4, h5, h6, h7, h8, h9⟩
  · rintro ⟨h1, h2, h3, h4, h5, h6, h7, h8, h9⟩
    exact ⟨⟨⟨⟨h1, h2⟩, ⟨h3, h4⟩, h5⟩, ⟨h6, h7⟩, h8⟩, h9⟩

theorem State.Inv.parts {s : State} (h : s.Inv) : s.block.WfParts := (Block.wf_iff _).1 h

theorem Block.WfParts.bmax_le {b : Block} (h : b.WfParts) : b.params.bmax ≤ 4096 := by
  have := h.nmax_le; unfold Config.Params.bmax; omega

theorem Block.WfParts.tmax_le {b : Block} (h : b.WfParts) : b.params.tmax ≤ 5464 := by
  have := h.bmax_le; unfold Config.Params.tmax; omega

/-- Lengths within a capacity survive the 32-bit registers. -/
theorem toNat_ofNat_of_le {k cap : Nat} (h : k ≤ cap) (hc : cap ≤ 5464) : (BitVec.ofNat 32 k).toNat = k := by
  rw [BitVec.toNat_ofNat]; exact Nat.mod_eq_of_lt (by omega)

/-- The fault registers of a READY block are all 0. -/
theorem Block.faultWf_ready {b : Block} (h : b.faultWf = true) (hr : b.status.err = false) :
    b.status = Status.ready ∧ b.errCode = 0 ∧ b.errInfo = 0 ∧ b.errCmd = 0 := by
  obtain ⟨_, _, _, _, _, _, _, _, _, ⟨err, eclass⟩, errCode, errInfo, errCmd⟩ := b
  simp only at hr
  subst hr
  simp only [Block.faultWf, Bool.false_eq_true, if_false, Bool.and_eq_true, beq_iff_eq] at h
  obtain ⟨⟨⟨h1, h2⟩, h3⟩, h4⟩ := h
  exact ⟨by rw [h1]; rfl, h2, h3, h4⟩

@[simp] theorem ofCode_code (c : Cause) : Cause.ofCode c.code = some c := by cases c <;> rfl

/-- Fault entry of a cause its command word can raise leaves consistent fault registers. -/
theorem Block.faultWf_raiseFault (c : Cause) (info cmd : Word) (b : Block) (h : c.raisedBy cmd = true) :
    (raiseFault c info cmd b).faultWf = true := by
  simp [Block.faultWf, h]

theorem Block.faultWf_ackFault (b : Block) : (ackFault b).faultWf = true := by
  simp [Block.faultWf]

/-- `faultWf` looks at the fault registers only. -/
theorem Block.faultWf_congr {a b : Block} (h1 : a.status = b.status) (h2 : a.errCode = b.errCode)
    (h3 : a.errInfo = b.errInfo) (h4 : a.errCmd = b.errCmd) : a.faultWf = b.faultWf := by
  simp [Block.faultWf, h1, h2, h3, h4]

theorem Block.WfParts.storeWords {b : Block} {w : List Word} (h : b.WfParts) (cmd : Word)
    (hl : w.length ≤ b.params.nmax) : (storeWords cmd w b).WfParts := by
  rw [storeWords_fits cmd hl]
  have hk := toNat_ofNat_of_le hl (by have := h.nmax_le; omega)
  exact { h with n_le := by simpa only [hk], v_wf := wf_fill h.v_wf (by simpa using hl) }

theorem Block.WfParts.storeBytes {b : Block} {x : List Byte} (h : b.WfParts) (cmd : Word)
    (hl : x.length ≤ b.params.bmax) : (storeBytes cmd x b).WfParts := by
  rw [storeBytes_fits cmd hl]
  have hk := toNat_ofNat_of_le hl (by have := h.bmax_le; omega)
  exact { h with blen_le := by simpa only [hk], b_wf := wf_fill h.b_wf (by simpa using hl) }

theorem Block.WfParts.storeText {b : Block} {x : List Byte} (h : b.WfParts) (cmd : Word)
    (hl : x.length ≤ b.params.tmax) : (storeText cmd x b).WfParts := by
  rw [storeText_fits cmd hl]
  have hk := toNat_ofNat_of_le hl (by have := h.tmax_le; omega)
  exact { h with tlen_le := by simpa only [hk], t_wf := wf_fill h.t_wf (by simpa using hl) }

theorem Block.WfParts.raiseFault {b : Block} (h : b.WfParts) (c : Cause) (info cmd : Word)
    (hc : c.raisedBy cmd = true) : (raiseFault c info cmd b).WfParts :=
  { h with fault_wf := Block.faultWf_raiseFault c info cmd b hc }

theorem Block.WfParts.ackFault {b : Block} (h : b.WfParts) : (ackFault b).WfParts :=
  { h with fault_wf := Block.faultWf_ackFault b }

/-- The sources below their lengths. -/
@[simp] theorem words_length (b : Block) : b.words.length = b.n.toNat := take_length _ _

@[simp] theorem bytes_length (b : Block) : b.bytes.length = b.blen.toNat := take_length _ _

@[simp] theorem text_length (b : Block) : b.text.length = b.tlen.toNat := take_length _ _

end Sys2Proof.Machine
end

