-- ==== Sys2Proof/Laws/Packer.lean ====
section
/-! SUPPORT. The pure functions of the Block Packer: lengths, what stands at each index, and their inverse laws. -/

namespace Sys2Proof.Machine

theorem byteOfWord_wordOfBytes (b0 b1 b2 b3 : Byte) :
    bytesOfWord (wordOfBytes b0 b1 b2 b3) = [b0, b1, b2, b3] := by
  simp only [bytesOfWord, byteOfWord, wordOfBytes, List.cons.injEq, and_true]
  refine ⟨?_, ?_, ?_, ?_⟩ <;> · ext i hi; interval_cases i <;> simp

theorem wordOfBytes_byteOfWord (w : Word) :
    wordOfBytes (byteOfWord w 0) (byteOfWord w 1) (byteOfWord w 2) (byteOfWord w 3) = w := by
  simp only [byteOfWord, wordOfBytes]
  ext i hi; simp; interval_cases i <;> simp

/-! ### Grouping and expansion -/

/-- What the grouping leaves over is shorter than a word. -/
theorem length_lt_of_no_group {x : List Byte}
    (h : ∀ (b0 b1 b2 b3 : Byte) (rest : List Byte), x = b0 :: b1 :: b2 :: b3 :: rest → False) : x.length < 4 := by
  match x, h with
  | [], _ => simp
  | [_], _ => simp
  | [_, _], _ => simp
  | [_, _, _], _ => simp
  | _ :: _ :: _ :: _ :: _, h => exact (h _ _ _ _ _ rfl).elim

theorem groupWords_length (x : List Byte) : (groupWords x).length = x.length / 4 := by
  induction x using groupWords.induct with
  | case1 b0 b1 b2 b3 rest ih => simp only [groupWords, List.length_cons, ih]; omega
  | case2 x h =>
    have := length_lt_of_no_group h
    rw [groupWords]
    · simp; omega
    · exact h

/-- Word `i` of a grouping is made of bytes `4i .. 4i+3` (20_memory.md R61). -/
theorem groupWords_getD (x : List Byte) {i : Nat} (h : i < x.length / 4) :
    (groupWords x).getD i 0 =
      wordOfBytes (x.getD (4 * i) 0) (x.getD (4 * i + 1) 0) (x.getD (4 * i + 2) 0) (x.getD (4 * i + 3) 0) := by
  induction x using groupWords.induct generalizing i with
  | case1 b0 b1 b2 b3 rest ih =>
    cases i with
    | zero => simp [groupWords]
    | succ i =>
      simp only [List.length_cons] at h
      simp only [groupWords, List.getD_cons_succ]
      rw [ih (by omega), show 4 * (i + 1) = 4 * i + 1 + 1 + 1 + 1 by ring]
      simp only [List.getD_cons_succ]
  | case2 x hx =>
    have := length_lt_of_no_group hx
    omega

@[simp] theorem ser_nil : ser [] = [] := rfl

@[simp] theorem ser_cons (x : Word) (w : List Word) :
    ser (x :: w) = byteOfWord x 0 :: byteOfWord x 1 :: byteOfWord x 2 :: byteOfWord x 3 :: ser w := rfl

@[simp] theorem ser_length (w : List Word) : (ser w).length = 4 * w.length := by
  induction w with
  | nil => rfl
  | cons x w ih => simp [ih]; ring

theorem ser_append (w w' : List Word) : ser (w ++ w') = ser w ++ ser w' := by simp [ser]

/-- Byte `j` of an expansion is byte `j mod 4` of word `j div 4` (40_block_packer.md R111). -/
theorem ser_getD (w : List Word) {j : Nat} (h : j < 4 * w.length) :
    (ser w).getD j 0 = byteOfWord (w.getD (j / 4) 0) (j % 4) := by
  induction w generalizing j with
  | nil => simp at h
  | cons x w ih =>
    simp only [List.length_cons] at h
    match j, h with
    | 0, _ => rfl
    | 1, _ => rfl
    | 2, _ => rfl
    | 3, _ => rfl
    | j + 4, h =>
      simp only [ser_cons, List.getD_cons_succ]
      rw [ih (by omega), show (j + 4) / 4 = j / 4 + 1 by omega, show (j + 4) % 4 = j % 4 by omega,
        List.getD_cons_succ]

/-- `deser(ser(w)) = w` (40_block_packer.md R115). -/
theorem groupWords_ser (w : List Word) : groupWords (ser w) = w := by
  induction w with
  | nil => rfl
  | cons x w ih => simp only [ser_cons, groupWords, ih, wordOfBytes_byteOfWord]

/-- `ser(deser(b)) = b` for whole words (40_block_packer.md R115). -/
theorem ser_groupWords (x : List Byte) (h : x.length % 4 = 0) : ser (groupWords x) = x := by
  induction x using groupWords.induct with
  | case1 b0 b1 b2 b3 rest ih =>
    have := byteOfWord_wordOfBytes b0 b1 b2 b3
    simp only [bytesOfWord, List.cons.injEq, and_true] at this
    simp only [List.length_cons] at h
    simp only [groupWords, ser_cons, ih (by omega), this.1, this.2.1, this.2.2.1, this.2.2.2]
  | case2 x hx =>
    have := length_lt_of_no_group hx
    have : x = [] := List.eq_nil_of_length_eq_zero (by omega)
    subst this
    rfl

/-! ### Padding -/

theorem padBytes_length (x : List Byte) : (padBytes x).length = 4 * ((x.length + 3) / 4) := by
  simp only [padBytes, List.length_append, List.length_replicate]; omega

theorem padBytes_getD (x : List Byte) {j : Nat} (h : j < (padBytes x).length) :
    (padBytes x).getD j 0 = if j < x.length then x.getD j 0 else Config.padByte := by
  rw [padBytes_length] at h
  unfold padBytes
  split
  · next hj => rw [List.getD_append _ _ _ _ hj]
  · next hj =>
    rw [List.getD_append_right _ _ _ _ (by omega), List.getD_eq_getElem?_getD,
      List.getElem?_replicate_of_lt (by omega)]
    rfl

theorem padBytes_of_mod_eq_zero (x : List Byte) (h : x.length % 4 = 0) : padBytes x = x := by simp [padBytes, h]

theorem pack_nil : pack [] = [0x00000000#32] := rfl

theorem pack_of_ne_nil {x : List Byte} (h : x ≠ []) : pack x = groupWords (padBytes x) := by
  have := List.length_pos_iff.2 h
  rw [pack, if_neg (by rw [padBytes_length]; omega)]

/-- The packed sequence has `max(1, ceil(L/4))` words (40_block_packer.md R110). -/
theorem pack_length (x : List Byte) : (pack x).length = max 1 ((x.length + 3) / 4) := by
  by_cases h : x = []
  · subst h; rfl
  · have := List.length_pos_iff.2 h
    rw [pack_of_ne_nil h, groupWords_length, padBytes_length]; omega

/-- `deser(b) = pack(b)` for whole words, `b` not empty (40_block_packer.md R115). -/
theorem pack_eq_deser {x : List Byte} (h : x ≠ []) (h4 : x.length % 4 = 0) : pack x = deser x := by
  rw [pack_of_ne_nil h, padBytes_of_mod_eq_zero x h4, deser]

/-- Word `i` of a packed sequence that is not empty (40_block_packer.md R110). -/
theorem pack_getD {x : List Byte} (h : x ≠ []) {i : Nat} (hi : i < (x.length + 3) / 4) (pb : Nat → Byte)
    (hpb : ∀ j, pb j = if j < x.length then x.getD j 0 else Config.padByte) :
    (pack x).getD i 0 = wordOfBytes (pb (4 * i)) (pb (4 * i + 1)) (pb (4 * i + 2)) (pb (4 * i + 3)) := by
  rw [pack_of_ne_nil h, groupWords_getD _ (by rw [padBytes_length]; omega)]
  simp only [hpb]
  rw [padBytes_getD _ (by rw [padBytes_length]; omega), padBytes_getD _ (by rw [padBytes_length]; omega),
    padBytes_getD _ (by rw [padBytes_length]; omega), padBytes_getD _ (by rw [padBytes_length]; omega)]

/-! ### Truncation -/

theorem unpack_length_le (w : List Word) : (unpack w).length ≤ 4 * w.length := by
  rw [← ser_length]; exact (List.takeWhile_prefix _).length_le

end Sys2Proof.Machine
end

