-- ==== Sys2Proof/Laws/Commands.lean ====
section
/-! SUPPORT. What each command does to the block, said once: `exec` is the frame of Ops over one effect per command, and
on a well-formed block every result but one of `B64D` fits its destination. -/

namespace Sys2Proof.Machine

/-- The effect of a command on a READY block. -/
def effect : Instr → Block → Block
  | .nop, b => b
  | .clr, b => { b with k := Key.zero, v := [], b := [], t := [], n := 0, blen := 0, tlen := 0 }
  | .pack, b => storeWords (encode .pack) (pack b.bytes) b
  | .unpack, b => storeBytes (encode .unpack) (unpack b.words) b
  | .keynorm, b =>
    if b.cfg.keychk ∧ normalizeKey b.bytes = Key.zero then raiseFault .emptyKey b.blen (encode .keynorm) b
    else { b with k := normalizeKey b.bytes }
  | .ser, b => storeBytes (encode .ser) (ser b.words) b
  | .deser, b =>
    if b.blen.toNat % 4 ≠ 0 then raiseFault .wordLength b.blen (encode .deser) b
    else storeWords (encode .deser) (deser b.bytes) b
  | .xenc, b => storeWords (encode .xenc) (engine xxteaEncode b.words b.k b.cfg.roundsBase) b
  | .xdec, b => storeWords (encode .xdec) (engine xxteaDecode b.words b.k b.cfg.roundsBase) b
  | .b64e, b => storeText (encode .b64e) (b64Encode b.cfg.alph b.bytes) b
  | .b64d, b =>
    match b64Check b.cfg.alph b.text with
    | some (cause, info) => raiseFault cause (BitVec.ofNat 32 info) (encode .b64d) b
    | none =>
      if b.params.bmax < b64Need b.text then raiseFault .capacity (BitVec.ofNat 32 (b64Need b.text)) (encode .b64d) b
      else storeBytes (encode .b64d) (b64Decode b.cfg.alph b.text) b

theorem exec_eq (i : Instr) (s : State) : exec i s = whenReady s (effect i) := by cases i <;> rfl

theorem exec_ready {s : State} (h : s.Ready) (i : Instr) : exec i s = .next { s with block := effect i s.block } := by
  rw [exec_eq, whenReady_ready h]

theorem exec_faulted {s : State} (h : s.Faulted) (i : Instr) : exec i s = .next s := by
  rw [exec_eq, whenReady_faulted h]

/-- Everything a command can do. -/
theorem exec_cases {i : Instr} {s t : State} (h : exec i s = .next t) :
    (s.Faulted ∧ t = s) ∨ (s.Ready ∧ t = { s with block := effect i s.block }) :=
  whenReady_cases ((exec_eq i s).symm.trans h)

@[simp] theorem execAll_nil (s : State) : execAll [] s = .next s := rfl

theorem execAll_cons {b : Block} (h : b.status.err = false) (i : Instr) (rest : List Instr) (p : List HostAccess)
    (r : List Word) :
    execAll (i :: rest) { block := b, pending := p, returned := r } =
      execAll rest { block := effect i b, pending := p, returned := r } := by
  rw [execAll, exec_ready h]

/-! ### Every result fits (00_scope.md R7) -/

theorem pack_fits {b : Block} (h : b.WfParts) : (pack b.bytes).length ≤ b.params.nmax := by
  have := h.nmax_ge; have h1 := h.blen_le
  rw [pack_length, bytes_length]; unfold Config.Params.bmax at h1; omega

theorem ser_fits {b : Block} (h : b.WfParts) : (ser b.words).length ≤ b.params.bmax := by
  have h1 := h.n_le
  rw [ser_length, words_length]; unfold Config.Params.bmax; omega

theorem unpack_fits {b : Block} (h : b.WfParts) : (unpack b.words).length ≤ b.params.bmax :=
  (unpack_length_le _).trans ((ser_length b.words).symm.le.trans (ser_fits h))

theorem deser_fits {b : Block} (h : b.WfParts) : (deser b.bytes).length ≤ b.params.nmax := by
  have h1 := h.blen_le
  rw [deser, groupWords_length, bytes_length]; unfold Config.Params.bmax at h1; omega

theorem xenc_fits {b : Block} (h : b.WfParts) :
    (engine xxteaEncode b.words b.k b.cfg.roundsBase).length ≤ b.params.nmax :=
  engine_length_le xxteaEncode_length _ _ _ h.nmax_ge (by rw [words_length]; exact h.n_le)

theorem xdec_fits {b : Block} (h : b.WfParts) :
    (engine xxteaDecode b.words b.k b.cfg.roundsBase).length ≤ b.params.nmax :=
  engine_length_le xxteaDecode_length _ _ _ h.nmax_ge (by rw [words_length]; exact h.n_le)

theorem b64e_fits {b : Block} (h : b.WfParts) : (b64Encode b.cfg.alph b.bytes).length ≤ b.params.tmax := by
  have h1 := h.blen_le
  rw [b64Encode_length, bytes_length]; unfold Config.Params.tmax; omega

theorem b64Check_length {a : Alphabet} {t : List Byte} (h : b64Check a t = none) : t.length % 4 = 0 := by
  by_contra h4; simp [b64Check, h4] at h

theorem b64d_fits {b : Block} (hc : b64Check b.cfg.alph b.text = none) (hn : ¬ b.params.bmax < b64Need b.text) :
    (b64Decode b.cfg.alph b.text).length ≤ b.params.bmax := by
  rw [b64Decode_length _ _ (b64Check_length hc)]; omega

/-- The result of `B64D` is at most two bytes too long (43_base64_codec.md R178). -/
theorem b64Need_le {b : Block} (h : b.WfParts) : b64Need b.text ≤ b.params.bmax + 2 := by
  have h1 := h.tlen_le
  rw [b64Need, text_length]; unfold Config.Params.tmax at h1; omega

/-- Every command keeps a block well formed. -/
theorem Block.WfParts.effect {b : Block} (h : b.WfParts) (i : Instr) : (Machine.effect i b).WfParts := by
  cases i <;> simp only [Machine.effect]
  · exact h
  · exact { h with n_le := by simp, blen_le := by simp, tlen_le := by simp, v_wf := rfl, b_wf := rfl, t_wf := rfl }
  · exact h.storeWords _ (pack_fits h)
  · exact h.storeBytes _ (unpack_fits h)
  · split
    · exact h.raiseFault _ _ _ (by decide)
    · exact { h with }
  · exact h.storeBytes _ (ser_fits h)
  · split
    · exact h.raiseFault _ _ _ (by decide)
    · exact h.storeWords _ (deser_fits h)
  · exact h.storeWords _ (xenc_fits h)
  · exact h.storeWords _ (xdec_fits h)
  · exact h.storeText _ (b64e_fits h)
  · split
    · next hc => exact h.raiseFault _ _ _ (by rcases b64Check_cause _ hc with rfl | rfl | rfl <;> decide)
    · next hc =>
      split
      · exact h.raiseFault _ _ _ (by decide)
      · next hn => exact h.storeBytes _ (b64d_fits hc hn)

end Sys2Proof.Machine
end

