-- ==== Sys2Proof/Laws/PerInstr.lean ====
section
/-! SUPPORT. Per command: it is well formed and its encoding decodes to it (30_encoding.md R91). -/

namespace Sys2Proof.Laws.RoundTrip

/-- The command is well formed and the decoder gives it back from its encoding. -/
def Statement (i : Instr) : Prop := i.wellFormed = true ∧ decode (encode i) = .ok i

theorem nop : Statement .nop := ⟨rfl, rfl⟩

theorem clr : Statement .clr := ⟨rfl, rfl⟩

theorem pack : Statement .pack := ⟨rfl, rfl⟩

theorem unpack : Statement .unpack := ⟨rfl, rfl⟩

theorem keynorm : Statement .keynorm := ⟨rfl, rfl⟩

theorem ser : Statement .ser := ⟨rfl, rfl⟩

theorem deser : Statement .deser := ⟨rfl, rfl⟩

theorem xenc : Statement .xenc := ⟨rfl, rfl⟩

theorem xdec : Statement .xdec := ⟨rfl, rfl⟩

theorem b64e : Statement .b64e := ⟨rfl, rfl⟩

theorem b64d : Statement .b64d := ⟨rfl, rfl⟩

end Sys2Proof.Laws.RoundTrip
end

