-- ==== Sys2Proof/Laws/Window.lean ====
section
/-! SUPPORT. The window and the step: where each offset lands, what an access of the interface does, and everything a step
can do. -/

namespace Sys2Proof.Machine

/-! ### The address map (20_memory.md R66) -/

theorem regAt_offset (r : Reg) : regAt r.offset = some r := by cases r <;> rfl

/-- A row of a map, or the rows below it. -/
theorem of_ite_some {α : Type} {c : Prop} [Decidable c] {a r : α} {e : Option α}
    (h : (if c then some a else e) = some r) : c ∧ a = r ∨ e = some r := by
  by_cases hc : c
  · rw [if_pos hc] at h; exact .inl ⟨hc, Option.some.inj h⟩
  · rw [if_neg hc] at h; exact .inr h

theorem offset_of_regAt {off : Nat} {r : Reg} (h : regAt off = some r) : off = r.offset := by
  unfold regAt at h
  repeat (rcases of_ite_some h with ⟨rfl, rfl⟩ | h; · rfl)
  exact absurd h (by simp)

theorem locate_reg (r : Reg) : locate r.offset = some (.reg r) := by cases r <;> rfl

theorem locate_v {off : Nat} (h : 0x1000 ≤ off) (h' : off < 0x2000) :
    locate off = some (.vCell ((off - 0x1000) / 4)) := by
  rw [locate, if_neg (by omega), if_pos (by omega)]

theorem locate_b {off : Nat} (h : 0x4000 ≤ off) (h' : off < 0x8000) :
    locate off = some (.bCell ((off - 0x4000) / 4)) := by
  rw [locate, if_neg (by omega), if_neg (by omega), if_neg (by omega), if_pos (by omega)]

theorem locate_t {off : Nat} (h : 0x8000 ≤ off) (h' : off < 0x10000) :
    locate off = some (.tCell ((off - 0x8000) / 4)) := by
  rw [locate, if_neg (by omega), if_neg (by omega), if_neg (by omega), if_neg (by omega), if_pos (by omega)]

theorem locate_gap {off : Nat} (h : 0x2000 ≤ off) (h' : off < 0x4000) : locate off = none := by
  rw [locate, if_neg (by omega), if_neg (by omega), if_pos (by omega)]

theorem locate_vCell {i : Nat} (h : i < 1024) : locate (0x1000 + 4 * i) = some (.vCell i) := by
  rw [locate_v (by omega) (by omega), show (0x1000 + 4 * i - 0x1000) / 4 = i by omega]

theorem locate_bCell {i : Nat} (h : i < 4096) : locate (0x4000 + 4 * i) = some (.bCell i) := by
  rw [locate_b (by omega) (by omega), show (0x4000 + 4 * i - 0x4000) / 4 = i by omega]

theorem locate_tCell {i : Nat} (h : i < 8192) : locate (0x8000 + 4 * i) = some (.tCell i) := by
  rw [locate_t (by omega) (by omega), show (0x8000 + 4 * i - 0x8000) / 4 = i by omega]

/-- Where an offset that lands somewhere lies. -/
theorem locate_some {off : Nat} {l : Loc} (h : locate off = some l) :
    (∃ r, l = .reg r ∧ off = r.offset) ∨ (∃ i, l = .vCell i ∧ 0x1000 ≤ off ∧ off < 0x2000) ∨
      (∃ i, l = .bCell i ∧ 0x4000 ≤ off ∧ off < 0x8000) ∨ (∃ i, l = .tCell i ∧ 0x8000 ≤ off ∧ off < 0x10000) := by
  unfold locate at h
  repeat' split at h
  · obtain ⟨r, hr, rfl⟩ := Option.map_eq_some_iff.1 h
    exact .inl ⟨r, rfl, offset_of_regAt hr⟩
  · injection h with h; subst h; exact .inr (.inl ⟨_, rfl, by omega, by omega⟩)
  · injection h
  · injection h with h; subst h; exact .inr (.inr (.inl ⟨_, rfl, by omega, by omega⟩))
  · injection h with h; subst h; exact .inr (.inr (.inr ⟨_, rfl, by omega, by omega⟩))
  · injection h

/-! ### The access check (20_memory.md R64) -/

theorem accessRefusal_none {off bytes : Nat} :
    accessRefusal off bytes = none ↔ bytes = 4 ∧ off % 4 = 0 ∧ off ≤ 0xFFFC := by
  unfold accessRefusal
  split_ifs <;> simp <;> omega

/-! ### The step -/

theorem step_cons {s : State} {a : HostAccess} {rest : List HostAccess} (h : s.pending = a :: rest) :
    step s = runAccess a { s with pending := rest } := by simp [step, advance, h]

theorem step_write {s : State} {off : Nat} {x : Word} {rest : List HostAccess} (h : s.pending = .write off 4 x :: rest)
    (h4 : off % 4 = 0) (hle : off ≤ 0xFFFC) : step s = memWrite { s with pending := rest } off x := by
  rw [step_cons h]; simp [runAccess, accessRefusal_none.2 ⟨rfl, h4, hle⟩]

theorem step_read {s : State} {off : Nat} {rest : List HostAccess} (h : s.pending = .read off 4 :: rest)
    (h4 : off % 4 = 0) (hle : off ≤ 0xFFFC) :
    step s = .next { s with pending := rest, returned := memRead s.block off :: s.returned } := by
  rw [step_cons h]; simp [runAccess, accessRefusal_none.2 ⟨rfl, h4, hle⟩]

theorem step_cmd {s : State} {w : Word} {rest : List HostAccess} (h : s.pending = .write 0x008 4 w :: rest) :
    step s = writeCmd { s with pending := rest } w := by rw [step_write h (by decide) (by decide)]; rfl

/-- Everything a write to `CMD` can do (30_encoding.md R100). -/
theorem writeCmd_cases {s t : State} {w : Word} (h : writeCmd s w = .next t) :
    (s.Faulted ∧ t = s) ∨
    (s.Ready ∧ ∃ i, decode w = .ok i ∧ t = { s with block := effect i s.block }) ∨
    (s.Ready ∧ (∃ e, decode w = .error e) ∧ t = { s with block := raiseFault .illegalCommand 0 w s.block }) := by
  unfold writeCmd at h
  rcases ready_or_faulted s with hr | hf
  · rw [if_neg (by unfold State.Ready at hr; simp [hr])] at h
    cases hd : decode w with
    | ok i =>
      simp only [hd] at h
      rw [exec_ready hr] at h
      injection h with h
      exact .inr (.inl ⟨hr, i, rfl, h.symm⟩)
    | error e =>
      simp only [hd] at h
      injection h with h
      exact .inr (.inr ⟨hr, ⟨e, rfl⟩, h.symm⟩)
  · rw [if_pos hf] at h
    injection h with h
    exact .inl ⟨hf, h.symm⟩

/-- Everything a step can do. -/
theorem step_cases {s t : State} (h : step s = .next t) :
    (s.pending = [] ∧ t = s) ∨
    (∃ off rest, s.pending = .read off 4 :: rest ∧ off % 4 = 0 ∧ off ≤ 0xFFFC ∧
      t = { s with pending := rest, returned := memRead s.block off :: s.returned }) ∨
    (∃ rest, s.pending = .reset :: rest ∧ t = { s with pending := rest, block := Block.reset s.block.params }) ∨
    (∃ w rest, s.pending = .write 0x008 4 w :: rest ∧ writeCmd { s with pending := rest } w = .next t) ∨
    (∃ off x rest l, s.pending = .write off 4 x :: rest ∧ locate off = some l ∧ l ≠ .reg .cmd ∧
      t = { s with pending := rest, block := writeLoc s.block x l }) ∨
    (∃ off x rest, s.pending = .write off 4 x :: rest ∧ locate off = none ∧ t = { s with pending := rest }) := by
  cases hp : s.pending with
  | nil =>
    rw [step, advance, hp] at h
    injection h with h
    exact .inl ⟨rfl, h.symm⟩
  | cons a rest =>
    rw [step_cons hp] at h
    cases a with
    | read off bytes =>
      simp only [runAccess] at h
      cases hr : accessRefusal off bytes with
      | some r => simp [hr] at h
      | none =>
        obtain ⟨rfl, h4, hle⟩ := accessRefusal_none.1 hr
        simp only [hr] at h
        injection h with h
        exact .inr (.inl ⟨off, rest, rfl, h4, hle, h.symm⟩)
    | reset =>
      simp only [runAccess] at h
      injection h with h
      exact .inr (.inr (.inl ⟨rest, rfl, h.symm⟩))
    | write off bytes x =>
      simp only [runAccess] at h
      cases hr : accessRefusal off bytes with
      | some r => simp [hr] at h
      | none =>
        obtain ⟨rfl, -, -⟩ := accessRefusal_none.1 hr
        simp only [hr, memWrite] at h
        cases hl : locate off with
        | none =>
          simp only [hl] at h
          injection h with h
          exact .inr (.inr (.inr (.inr (.inr ⟨off, x, rest, rfl, hl, h.symm⟩))))
        | some l =>
          by_cases hc : l = .reg .cmd
          · subst hc
            simp only [hl] at h
            obtain ⟨r, hr', ho⟩ | ⟨_, h', _⟩ | ⟨_, h', _⟩ | ⟨_, h', _⟩ := locate_some hl
            · injection hr' with hr'
              subst hr' ho
              exact .inr (.inr (.inr (.inl ⟨x, rest, rfl, h⟩)))
            all_goals injection h'
          · refine .inr (.inr (.inr (.inr (.inl ⟨off, x, rest, l, rfl, hl, hc, ?_⟩))))
            simp only [hl] at h
            injection h with h
            exact h.symm

end Sys2Proof.Machine
end

