-- ==== Sys2Proof/Laws/Script.lean ====
section
/-! SUPPORT. Runs of host scripts: runs in sequence, one access, and the write of one location. -/

namespace Sys2Proof.Machine

theorem run_add (a b : Nat) {s t : State} (h : Host.Core.run core a s = .next t) :
    Host.Core.run core (a + b) s = Host.Core.run core b t := by
  induction a generalizing s with
  | zero => simp only [Host.Core.run] at h; injection h with h; subst h; rw [Nat.zero_add]
  | succ a ih =>
    rw [Nat.succ_add]
    simp only [Host.Core.run] at h ⊢
    cases hs : core.step s with
    | next u => rw [hs] at h; exact ih h
    | fault r => rw [hs] at h; simp at h
    | refused r => rw [hs] at h; simp at h

theorem run_one {s t : State} (h : step s = .next t) : Host.Core.run core 1 s = .next t := by
  simp only [Host.Core.run]
  have h' : core.step s = .next t := h
  rw [h']

/-- The step on `wr` of a location that is not `CMD`. -/
theorem step_wrAccess {s : State} {l : Loc} {x : Word} {rest : List HostAccess} (h : s.pending = wrAccess l x :: rest)
    (hl : locate l.offset = some l) (hc : l ≠ .reg .cmd) (h4 : l.offset % 4 = 0) (hle : l.offset ≤ 0xFFFC) :
    step s = .next { s with pending := rest, block := writeLoc s.block x l } := by
  rw [step_write h h4 hle, memWrite, hl]
  split
  · next h' => injection h' with h'; exact absurd h' hc
  · next h' => injection h' with h'; subst h'; rfl
  · next h' => injection h'

/-- The step on the issue of a command to a READY block. -/
theorem step_issue {s : State} {i : Instr} {rest : List HostAccess} (h : s.pending = issue i :: rest) (hr : s.Ready) :
    step s = .next { s with pending := rest, block := effect i s.block } := by
  have h' : s.pending = .write 0x008 4 (encode i) :: rest := h
  have hd : decode (encode i) = .ok i := by cases i <;> rfl
  have hr' : s.block.status.err = false := hr
  rw [step_cmd h', writeCmd, if_neg (by simp [hr']), hd]
  exact exec_ready (s := { s with pending := rest }) hr i

/-- What `CFG` is written as is what its fields become (10_state.md R27). -/
theorem Cfg.ofWord_word (c : Cfg) : Cfg.ofWord c.word = c := by
  obtain ⟨r, a, k⟩ := c
  have h : ∀ x : BitVec 8, Cfg.ofWord (Cfg.word ⟨x, a, k⟩) = ⟨x, a, k⟩ := by cases a <;> cases k <;> decide
  exact h r

/-- The default contract's prefix leaves the block with the standard alphabet and changes nothing else of it
(45_api_sequences.md R200). -/
theorem run_standardAlphabet (s : State) (rest : List HostAccess)
    (h : s.pending = scriptAccesses (standardAlphabet s.block.cfg) ++ rest) :
    Host.Core.run core (scriptAccesses (standardAlphabet s.block.cfg)).length s = .next { s with
      pending := rest, block := { s.block with cfg := { s.block.cfg with alph := .standard } } } := by
  obtain ⟨b, p, r⟩ := s
  rcases hc : b.cfg with ⟨base, alph, chk⟩
  cases alph with
  | standard =>
    simp only [hc, standardAlphabet, if_true, scriptAccesses, List.flatMap_nil, List.nil_append] at h ⊢
    subst h
    rw [← hc]
    rfl
  | urlSafe =>
    simp only [hc, standardAlphabet, if_neg (show Alphabet.urlSafe ≠ .standard by decide), scriptAccesses, List.flatMap_cons,
      List.flatMap_nil, Stmt.accesses, List.append_nil, List.singleton_append] at h ⊢
    refine run_one ?_
    rw [step_wrAccess h rfl (by simp) (by decide) (by decide)]
    simp only [writeLoc, writeReg, Cfg.ofWord_word]

@[simp] theorem wrCells_length (cell : Nat → Loc) (i : Nat) (xs : List Word) : (wrCells cell i xs).length = xs.length := by
  induction xs generalizing i with
  | nil => rfl
  | cons x xs ih => simp [wrCells, ih]

end Sys2Proof.Machine
end

