-- ==== Sys2Proof/Laws/Sources.lean ====
section
/-! SUPPORT. The sources and destinations of the commands in the terms of Safety.lean: what each pure function gives at
an index of the block's cells, and what a stored result reads back as. -/

namespace Sys2Proof.Machine

/-! ### Block Packer and Key Normalizer -/

/-- Byte `j` of an expanded `V[0..N)` (40_block_packer.md R111). -/
theorem serialByte_eq (b : Block) {j : Nat} (h : j < 4 * b.n.toNat) : (ser b.words).getD j 0 = b.serialByte j := by
  rw [ser_getD _ (by simpa using h), Block.words, take_getD _ (by omega)]; rfl

theorem paddedByte_eq (b : Block) (j : Nat) :
    b.paddedByte j = if j < b.bytes.length then b.bytes.getD j 0 else Config.padByte := by
  rw [bytes_length, Block.paddedByte]
  split
  · next h => rw [Block.bytes, take_getD _ h]
  · rfl

theorem bytes_eq_nil {b : Block} : b.bytes = [] ↔ b.blen.toNat = 0 := by
  rw [← List.length_eq_zero_iff, bytes_length]

/-- Word `i` of a packed `B[0..BLEN)`, 0 where it has none. -/
theorem packedWord_eq (b : Block) (i : Nat) : (pack b.bytes).getD i 0 = b.packedWord i := by
  unfold Block.packedWord
  split
  · next h =>
    have hne : b.bytes ≠ [] := by rw [Ne, bytes_eq_nil]; omega
    exact pack_getD hne (by rw [bytes_length]; omega) _ (paddedByte_eq b)
  · next h =>
    by_cases hne : b.bytes = []
    · rw [hne, pack_nil]; cases i <;> simp
    · rw [List.getD_eq_default]; rw [pack_length, bytes_length]; rw [bytes_eq_nil] at hne; omega

/-- The key of the password in `B` (41_key_normalizer.md R130). -/
theorem key_eq (b : Block) : normalizeKey b.bytes = b.passwordKey := by
  simp only [normalizeKey, Block.passwordKey, packedWord_eq]

/-- The bytes before a cut are the bytes that were there, and none of them is where to cut. -/
theorem takeWhile_getD {x : List Byte} {p : Byte → Bool} {j : Nat} (h : j < (x.takeWhile p).length) :
    (x.takeWhile p).getD j 0 = x.getD j 0 ∧ p (x.getD j 0) = true := by
  induction x generalizing j with
  | nil => simp at h
  | cons c x ih =>
    rw [List.takeWhile_cons] at h ⊢
    split at h
    · next hc =>
      rw [if_pos hc]
      cases j with
      | zero => simpa using hc
      | succ j => simpa using ih (by simpa using h)
    · simp at h

/-- A cut that is not at the end is at the first byte where to cut. -/
theorem takeWhile_stop {x : List Byte} {p : Byte → Bool} (h : (x.takeWhile p).length < x.length) :
    p (x.getD (x.takeWhile p).length 0) = false := by
  induction x with
  | nil => simp at h
  | cons c x ih =>
    rw [List.takeWhile_cons] at h ⊢
    split at h
    · next hc => rw [if_pos hc]; simpa using ih (by simpa using h)
    · next hc => rw [if_neg hc]; simpa using hc

theorem deser_getD (b : Block) {i : Nat} (h : i < b.blen.toNat / 4) : (deser b.bytes).getD i 0 =
      wordOfBytes (b.b.read (4 * i)) (b.b.read (4 * i + 1)) (b.b.read (4 * i + 2)) (b.b.read (4 * i + 3)) := by
  rw [deser, groupWords_getD _ (by simpa using h), Block.bytes, take_getD _ (by omega), take_getD _ (by omega),
    take_getD _ (by omega), take_getD _ (by omega)]

/-! ### What a stored result reads back as -/

theorem words_store (b : Block) (h : b.WfParts) {w : List Word} (hf : w.length ≤ b.params.nmax) :
   Block.words { b with v := b.v.fill 0 w, n := BitVec.ofNat 32 w.length } = w := by
  have hk := toNat_ofNat_of_le hf (by have := h.nmax_le; omega)
  simp only [Block.words, hk]; exact take_fill h.v_wf hf

theorem bytes_store (b : Block) (h : b.WfParts) {w : List Byte} (hf : w.length ≤ b.params.bmax) :
   Block.bytes { b with b := b.b.fill 0 w, blen := BitVec.ofNat 32 w.length } = w := by
  have hk := toNat_ofNat_of_le hf (by have := h.bmax_le; omega)
  simp only [Block.bytes, hk]; exact take_fill h.b_wf hf

theorem text_store (b : Block) (h : b.WfParts) {w : List Byte} (hf : w.length ≤ b.params.tmax) :
   Block.text { b with t := b.t.fill 0 w, tlen := BitVec.ofNat 32 w.length } = w := by
  have hk := toNat_ofNat_of_le hf (by have := h.tmax_le; omega)
  simp only [Block.text, hk]; exact take_fill h.t_wf hf

/-- Storing the words that are there changes nothing. -/
theorem storeWords_words (cmd : Word) (b : Block) (h : b.WfParts) : storeWords cmd b.words b = b := by
  rw [storeWords_fits _ (by simpa using h.n_le), words_length]
  have : b.v.fill 0 b.words = b.v := fill_take h.v_wf h.n_le
  simp [this]

theorem storeBytes_bytes (cmd : Word) (b : Block) (h : b.WfParts) : storeBytes cmd b.bytes b = b := by
  rw [storeBytes_fits _ (by simpa using h.blen_le), bytes_length]
  have : b.b.fill 0 b.bytes = b.b := fill_take h.b_wf h.blen_le
  simp [this]

/-! ### The sentinel -/

theorem takeWhile_append_replicate (x : List Byte) (r : Nat) :
    ((x ++ List.replicate r Config.padByte).takeWhile fun c => decide (c ≠ Config.padByte)) =
      x.takeWhile fun c => decide (c ≠ Config.padByte) := by
  induction x with
  | nil => cases r <;> simp [List.replicate_succ]
  | cons c x ih => simp only [List.cons_append, List.takeWhile_cons, ih]

/-- `unpack(pack(b))` cuts `b` before its first sentinel (40_block_packer.md R113). -/
theorem unpack_pack {x : List Byte} (h : x ≠ []) :
    unpack (pack x) = x.takeWhile fun c => decide (c ≠ Config.padByte) := by
  rw [unpack, pack_of_ne_nil h, ser_groupWords _ (by rw [padBytes_length]; omega), padBytes, takeWhile_append_replicate]

theorem takeWhile_eq_self {x : List Byte} :
    (x.takeWhile fun c => decide (c ≠ Config.padByte)) = x ↔ 0x03#8 ∉ x := by
  rw [List.takeWhile_eq_self_iff]
  constructor
  · intro h hm; simpa [Config.padByte] using h _ hm
  · intro h c hc; simp only [decide_eq_true_eq]; rintro rfl; exact h hc

/-! ### Mixing Engine -/

theorem words_eq_nil {b : Block} : b.words = [] ↔ b.n.toNat = 0 := by
  rw [← List.length_eq_zero_iff, words_length]

/-- The length-1 padding by length (42_mixing_engine.md R147). -/
theorem padSingle_eq {v : List Word} (h : v ≠ []) : padSingle v = v ++ List.replicate (2 - v.length) 0 := by
  match v, h with
  | [x], _ => rfl
  | x :: y :: v, _ => simp [padSingle]

/-! ### Base64 Codec -/

theorem bytes_getD_eq_chunkByte (b : Block) (j : Nat) : b.bytes.getD j 0 = b.chunkByte j := by
  unfold Block.chunkByte
  split
  · next h => rw [Block.bytes, take_getD _ h]
  · next h => rw [List.getD_eq_default _ _ (by simpa using h)]

theorem text_getD (b : Block) {j : Nat} (h : j < b.tlen.toNat) : b.text.getD j 0 = b.t.read j := take_getD _ h _

theorem legalAt_text_iff (b : Block) {j : Nat} (h : j < b.tlen.toNat) :
    legalAt b.cfg.alph b.text j ↔ b.symbolLegal j := by
  unfold legalAt Block.symbolLegal
  rw [text_getD b h, text_length]
  have h1 : (j + 2 = b.tlen.toNat ∧ b.text.getD (j + 1) 0 = Config.b64Pad) ↔
      (j + 2 = b.tlen.toNat ∧ b.t.read (j + 1) = Config.b64Pad) := by
    constructor <;> rintro ⟨h1, h2⟩ <;> refine ⟨h1, ?_⟩
    · rw [text_getD b (by omega)] at h2; exact h2
    · rw [text_getD b (by omega)]; exact h2
  rw [h1]
  split
  · next hc => simp [hc]
  · next hc => simp [hc]

theorem b64Check_text_none {b : Block} (h4 : b.tlen.toNat % 4 = 0) (hl : ∀ j < b.tlen.toNat, b.symbolLegal j) :
    b64Check b.cfg.alph b.text = none := by
  rw [b64Check, text_length, if_neg (by omega)]
  refine b64Scan_none _ _ fun i h => (legalAt_text_iff b ?_).2 (hl i ?_) <;> simpa using h

theorem b64Pads_text (b : Block) : b64Pads b.text = b.textPads := by
  rw [b64Pads_eq, text_length, Block.textPads]
  congr 1
  · by_cases h : 1 ≤ b.tlen.toNat
    · rw [text_getD b (by omega)]
    · simp [h]
  · by_cases h : 2 ≤ b.tlen.toNat
    · rw [text_getD b (by omega)]
    · simp [h]

theorem b64Need_text (b : Block) : b64Need b.text = b.textNeed := by rw [b64Need, b64Pads_text, text_length]; rfl

theorem valuesOf_text (b : Block) {i : Nat} (h4 : b.tlen.toNat % 4 = 0) (h : i < b.tlen.toNat / 4) :
    valuesOf b.cfg.alph b.text i = b.textGroup i := by
  unfold valuesOf Block.textGroup
  rw [text_getD b (by omega), text_getD b (by omega), text_getD b (by omega), text_getD b (by omega)]

/-- A symbol of an encoded text is `=` or of its alphabet. -/
theorem b64Encode_char (a : Alphabet) (x : List Byte) {j : Nat} (hj : j < (b64Encode a x).length) :
    (b64Encode a x).getD j 0 = Config.b64Pad ∨ ∃ s, (b64Encode a x).getD j 0 = a.sym s := by
  have := legalAt_b64Encode a x hj
  unfold legalAt at this
  split at this
  · next h => exact .inl h
  · obtain ⟨s, hs⟩ := Option.ne_none_iff_exists'.1 this
    exact .inr ⟨s, (sym_of_val a hs).symm⟩

theorem b64Pads_append (t u : List Byte) (h : 2 ≤ u.length) : b64Pads (t ++ u) = b64Pads u := by
  simp only [b64Pads, List.length_append]
  rw [List.drop_append, List.drop_eq_nil_of_le (by omega), List.nil_append]
  congr 2; omega

end Sys2Proof.Machine
end

