-- ==== Sys2Proof/Tests/Slice0.lean ====
section
/-! SUPPORT. The model's own tests: the checks of WellFormed and of an access, decoding of words written out from the spec's
opcode map, one or two steps per command with results taken from the spec's vectors (95_test_vectors.md), and for each
obligation with hypotheses a state and operands that meet them. -/

namespace Sys2Proof.Machine

/-! ### Helpers -/

/-- A small instance: `NMAX = 2`, `BMAX = 8`, `TMAX = 12`. -/
def small : Block := Block.reset { nmax := 2 }

/-- An instance with `NMAX = 6`, `BMAX = 24`. -/
def wide : Block := Block.reset { nmax := 6 }

def withBytes (x : List Byte) (b : Block) : Block := { b with b := b.b.fill 0 x, blen := BitVec.ofNat 32 x.length }

def withText (x : List Byte) (b : Block) : Block := { b with t := b.t.fill 0 x, tlen := BitVec.ofNat 32 x.length }

def withWords (x : List Word) (b : Block) : Block := { b with v := b.v.fill 0 x, n := BitVec.ofNat 32 x.length }

/-- A state with the block and the accesses still to come. -/
def st (b : Block) (pending : List HostAccess) : State := { block := b, pending := pending, returned := [] }

/-- The block after a step that goes on. -/
def blockAfter : Host.Outcome State Fault Refusal → Option Block
  | .next s => some s.block
  | .fault _ => none
  | .refused _ => none

/-- `STATUS`, `ERRCODE`, `ERRINFO`, `ERRCMD` as a host reads them. -/
def faultRecord (b : Block) : List Word := [memRead b 0x00C, memRead b 0x010, memRead b 0x014, memRead b 0x018]

/-- The key `k1` of 95_test_vectors.md. -/
def key1 : Key := { k0 := 0x01234567, k1 := 0x89ABCDEF, k2 := 0xFEDCBA98, k3 := 0x76543210 }

/-! ### Well-formedness: each check refuses an ill-formed term -/

theorem test_nmax_too_small : Config.Params.wellFormed { nmax := 1 } = false := by decide

theorem test_nmax_too_large : Config.Params.wellFormed { nmax := 1025 } = false := by decide

theorem test_nmax_limits : Config.Params.wellFormed { nmax := 2 } = true ∧ Config.Params.wellFormed { nmax := 1024 } = true := by
  decide

theorem test_access_width : accessRefusal 0x010 2 = some .accessWidth := by decide

theorem test_access_alignment : accessRefusal 0x012 4 = some .accessAlignment := by decide

theorem test_access_window : accessRefusal 0x10000 4 = some .accessWindow := by decide

theorem test_access_limits : accessRefusal 0x0000 4 = none ∧ accessRefusal 0xFFFC 4 = none := by decide

/-- R7: the capacities of the default instance. -/
theorem test_default_capacities : Config.Params.default.bmax = 1024 ∧ Config.Params.default.tmax = 1368 := by decide

/-! ### Decoding: words written out bit by bit from 30_encoding.md R90 and R91 -/

theorem test_decode_system : decode 0b00000000000000000000000000000001#32 = .ok .clr := by rfl

theorem test_decode_packer : decode 0b00000000000000000000000000010011#32 = .ok .ser := by rfl

theorem test_decode_key : decode 0b00000000000000000000000000010010#32 = .ok .keynorm := by rfl

theorem test_decode_engine : decode 0b00000000000000000000000000100001#32 = .ok .xdec := by rfl

theorem test_decode_codec : decode 0b00000000000000000000000000110000#32 = .ok .b64e := by rfl

theorem test_decode_every_word :
    [0x00, 0x01, 0x10, 0x11, 0x12, 0x13, 0x14, 0x20, 0x21, 0x30, 0x31].map (decodeTableWord 32) =
      [some .nop, some .clr, some .pack, some .unpack, some .keynorm, some .ser, some .deser, some .xenc, some .xdec,
        some .b64e, some .b64d] := by decide

/-- R93: unassigned opcodes, and a word with a reserved bit set. -/
theorem test_decode_rejects : [0x02, 0x15, 0x22, 0x32, 0xFF, 0x120, 0x80000001, 0xFFFFFFFF].map (decodeTableWord 32) =
    List.replicate 8 none := by decide

/-- R93: the two reasons. -/
theorem test_decode_reasons :
    decode 0x02#32 = .error .opcodeUnassigned ∧ decode 0x102#32 = .error .zeroFieldNonzero := ⟨rfl, rfl⟩

/-- A word put with `withFetchWord` is what the next step runs (here `CLR` after reset). -/
theorem test_fetch_word : blockAfter (step ((st (withWords [5] small) []).withFetchWord 32 0x01)) = some small := by decide

/-! ### One step per command -/

/-- SY1: `NOP`. -/
theorem test_nop : blockAfter (exec .nop (st (withWords [7] small) [])) = some (withWords [7] small) := by decide

/-- SY3: `CLR` keeps `CFG`. -/
theorem test_clr :
    blockAfter (exec .clr (st { small with cfg := Cfg.ofWord 0x1FF, k := key1, v := [(1, 9)], n := 2 } [])) =
      some { small with cfg := Cfg.ofWord 0x1FF } := by decide

/-- SY4: a FAULTED block drops `CLR`. -/
theorem test_clr_dropped : blockAfter (exec .clr (st (raiseFault .invalidPadding 1 0x31 (withWords [7] small)) [])) =
    some (raiseFault .invalidPadding 1 0x31 (withWords [7] small)) := by decide

/-- PK6. -/
theorem test_pack : (blockAfter (exec .pack (st (withBytes [0x74, 0x65, 0x73, 0x74, 0x65] small) []))).map Block.words =
    some [0x74736574, 0x03030365] := by decide

/-- PK1: the empty buffer packs to one zero word. -/
theorem test_pack_empty : (blockAfter (exec .pack (st small []))).map Block.words = some [0x00000000] := by decide

/-- UP5, with the frame check under it: the discarded sentinels are not written. -/
theorem test_unpack : blockAfter (exec .unpack (st (withBytes [0xF6, 0xF4, 0xE4, 0x5B, 0xE4, 0x8C, 0x9E, 0x29]
      (withWords [0x74736574, 0x03030365] small)) [])) =
    some { (withBytes [0x74, 0x65, 0x73, 0x74, 0x65, 0x8C, 0x9E, 0x29] (withWords [0x74736574, 0x03030365] small)) with
      blen := 5 } := by decide

/-- UP10 in part: `SER` of two words. -/
theorem test_ser : (blockAfter (exec .ser (st (withWords [0x11223344, 0x55660377] small) []))).map Block.bytes =
    some [0x44, 0x33, 0x22, 0x11, 0x77, 0x03, 0x66, 0x55] := by decide

/-- DS1. -/
theorem test_deser :
    (blockAfter (exec .deser (st (withBytes [0xF6, 0xF4, 0xE4, 0x5B, 0xE4, 0x8C, 0x9E, 0x29] small) []))).map Block.words =
      some [0x5BE4F4F6, 0x299E8CE4] := by decide

/-- DS4. -/
theorem test_deser_fault :
    (blockAfter (exec .deser (st (withBytes [0x61, 0x62, 0x63, 0x64, 0x65] small) []))).map faultRecord =
      some [1, 7, 5, 0x14] := by decide

/-- KN4. -/
theorem test_keynorm :
    (blockAfter (exec .keynorm (st (withBytes [0x70, 0x61, 0x73, 0x61, 0x73, 0x73] small) []))).map Block.k =
      some { k0 := 0x61736170, k1 := 0x03037373, k2 := 0, k3 := 0 } := by decide

/-- KN8: the key is all zero though the password is not empty. -/
theorem test_keynorm_fault :
    (blockAfter (exec .keynorm (st (withBytes [0, 0, 0, 0] small) []))).map faultRecord = some [3, 4, 4, 0x12] := by decide

/-- X1. -/
theorem test_xenc : (blockAfter (exec .xenc (st (withWords [0, 0] small) []))).map Block.words =
    some [0x053704AB, 0x575D8C80] := by decide +kernel

/-- X3: one word is padded to two. -/
theorem test_xenc_single :
    (blockAfter (exec .xenc (st (withWords [0xDEADBEEF] { small with k := key1 }) []))).map Block.words =
      some [0x5A027753, 0x43F6CE31] := by decide +kernel

/-- XD1: three words. -/
theorem test_xdec :
    (blockAfter (exec .xdec (st (withWords [0x4842F63B, 0x9FE71AB1, 0x57B6914E] { wide with k := key1 }) []))).map
      Block.words = some [1, 2, 3] := by decide +kernel

/-- MX2 and MX4. -/
theorem test_mx :
    mx 0x9E3779B9 0x00000001 0x80000000 1 2 { k0 := 0x11111111, k1 := 0x22222222, k2 := 0x33333333, k3 := 0x44444444 } =
      0x667BBDF8 ∧
    mx 0x3C6EF372 0x12345678 0x9ABCDEF0 6 0 key1 = 0x672B2D94 := by decide

/-- BE8 under both alphabets: `+/8=` and `-_8=`. -/
theorem test_b64e :
    (blockAfter (exec .b64e (st (withBytes [0xFB, 0xFF] small) []))).map Block.text = some [0x2B, 0x2F, 0x38, 0x3D] ∧
    (blockAfter (exec .b64e (st (withBytes [0xFB, 0xFF] { small with cfg := { Cfg.reset with alph := .urlSafe } }) []))).map
      Block.text = some [0x2D, 0x5F, 0x38, 0x3D] := by decide

/-- BE5: `Zm9vYg==`. -/
theorem test_b64e_partial : (blockAfter (exec .b64e (st (withBytes [0x66, 0x6F, 0x6F, 0x62] small) []))).map Block.text =
    some [0x5A, 0x6D, 0x39, 0x76, 0x59, 0x67, 0x3D, 0x3D] := by decide

/-- BD9: the unused low bits of `QR==` are ignored. -/
theorem test_b64d : (blockAfter (exec .b64d (st (withText [0x51, 0x52, 0x3D, 0x3D] small) []))).map Block.bytes =
    some [0x41] := by decide

/-- BD25: a line feed at 2 comes before the misplaced `=` at 5. -/
theorem test_b64d_fault :
    (blockAfter (exec .b64d (st (withText [0x5A, 0x6D, 0x0A, 0x39, 0x76, 0x3D, 0x3D, 0x3D] small) []))).map faultRecord =
      some [1, 3, 2, 0x31] := by decide

/-! ### The window -/

/-- 10_state.md R23: a length above the capacity is ignored. -/
theorem test_length_write :
    (blockAfter (step (st small [.write 0x024 4 9]))).map Block.blen = some 0 ∧
    (blockAfter (step (st small [.write 0x024 4 8]))).map Block.blen = some 8 := by decide

/-- 10_state.md R27: bits 31:10 of `CFG` are not stored. -/
theorem test_cfg_write : (blockAfter (step (st small [.write 0x004 4 0xFFFFFFFF]))).map (memRead · 0x004) =
    some 0x000003FF := by decide

/-- 60_exceptions.md R226, then R234: an illegal word faults; the acknowledge clears the record. -/
theorem test_illegal_and_ack :
    (blockAfter (step (st small [.write 0x008 4 0x120]))).map faultRecord = some [3, 6, 0, 0x120] ∧
    blockAfter (step (st (raiseFault .illegalCommand 0 0x120 small) [.write 0x00C 4 1])) = some small := by decide

/-- 45_api_sequences.md R200: the unsuffixed form on a block with the URL-safe alphabet first writes `CFG` with `ALPH = 0`
and the other fields kept; on one with the standard alphabet it is the `.B64` form. -/
theorem test_default_alphabet :
    ((encryptDefault small.params (Cfg.ofWord 0x306) [0x61] [0x62]).map fun p => p.map Stmt.accesses |>.head?) =
      some (some [.write 0x004 4 0x206]) ∧
    encryptDefault small.params (Cfg.ofWord 0x206) [0x61] [0x62] = encryptB64 small.params [0x61] [0x62] := by decide

/-- 45_api_sequences.md R205: empty data issue nothing, whatever the alphabet is. -/
theorem test_default_empty :
    encryptDefault small.params (Cfg.ofWord 0x306) [] [0x62] = some [] ∧
    decryptDefault small.params (Cfg.ofWord 0x306) [] [0x62] = some [] := by decide

/-! ### States and operands that meet the hypotheses of each obligation -/

/-- `small` with its two words. -/
def two : Block := withWords [0x74736574, 0x03030365] small

/-- `small` FAULTED by an illegal word. -/
def faulted : Block := raiseFault .illegalCommand 0 0x120 small

def pw16 : List Byte := [0x30, 0x31, 0x32, 0x33, 0x34, 0x35, 0x36, 0x37, 0x38, 0x39, 0x61, 0x62, 0x63, 0x64, 0x65, 0x66]

theorem test_hyp_ClrRestoresResetData : (st two []).Inv ∧ (st two []).Ready ∧ (st faulted []).Faulted := by decide

/-- The empty buffer, and a full one. -/
theorem test_hyp_PackWritesPaddedWords :
    ((st small []).Inv ∧ (st small []).Ready ∧ small.blen = 0) ∧
    ((st (withBytes (pw16.take 8) small) []).Inv ∧ (st (withBytes (pw16.take 8) small) []).Ready ∧
      (withBytes (pw16.take 8) small).blen.toNat = small.params.bmax) := by decide

/-- A sentinel that cuts; none, with every byte kept; the empty sequence. -/
theorem test_hyp_UnpackCutsAtFirstSentinel :
    ((st two []).Inv ∧ (st two []).Ready ∧ two.serialByte 5 = 0x03 ∧ ∀ j < 5, two.serialByte j ≠ 0x03) ∧
    ((st (withWords [0] small) []).Inv ∧ ∀ j < 4, (withWords [0] small).serialByte j ≠ 0x03) ∧
    ((st small []).Inv ∧ (st small []).Ready) := by decide

theorem test_hyp_SerExpandsEveryWord :
    ((st two []).Inv ∧ (st two []).Ready ∧ two.n.toNat = two.params.nmax) ∧ ((st small []).Inv ∧ (st small []).Ready) := by
  decide

/-- `BLEN` 0 and `BMAX`; and no multiple of 4. -/
theorem test_hyp_DeserGroupsWholeWords :
    ((st small []).Inv ∧ (st small []).Ready ∧ small.blen.toNat % 4 = 0) ∧
    ((st (withBytes (pw16.take 8) small) []).Inv ∧ (withBytes (pw16.take 8) small).blen.toNat % 4 = 0) ∧
    ((st (withBytes [1, 2, 3] small) []).Ready ∧ (withBytes [1, 2, 3] small).blen.toNat % 4 ≠ 0) := by decide

theorem test_hyp_SerAndDeserAreInverse :
    ((st (withBytes (pw16.take 8) two) []).Inv ∧ (st (withBytes (pw16.take 8) two) []).Ready ∧
      (withBytes (pw16.take 8) two).blen.toNat % 4 = 0 ∧ (withBytes (pw16.take 8) two).blen.toNat ≠ 0) ∧
    ((st small []).Inv ∧ small.blen.toNat % 4 = 0) ∧
    (([] : List Byte).length % 4 = 0 ∧ (pw16.take 4).length % 4 = 0 ∧ (pw16.take 4).length ≠ 0 ∧
      0 < (pw16.take 4).length / 4) := by decide

/-- Bytes without a sentinel, with one, and none at all. -/
theorem test_hyp_UnpackInvertsPackExactly :
    ((st (withBytes [0x61] small) []).Inv ∧ (st (withBytes [0x61] small) []).Ready ∧
      (withBytes [0x61] small).bytes ≠ [] ∧ 0x03#8 ∉ (withBytes [0x61] small).bytes) ∧
    ((st (withBytes [1, 3, 2] small) []).Inv ∧ 0x03#8 ∈ (withBytes [1, 3, 2] small).bytes) ∧
    ((st small []).Inv ∧ (st small []).Ready ∧ small.bytes = []) := by decide

/-- A key that is not zero, a zero key with the check off, and one with the check on. -/
theorem test_hyp_KeynormLoadsFourWords :
    ((st (withBytes [0x61] small) []).Ready ∧ (withBytes [0x61] small).cfg.keychk = true ∧
      (withBytes [0x61] small).passwordKey ≠ Key.zero) ∧
    ((st { small with cfg := Cfg.ofWord 0x006 } []).Ready ∧ (Cfg.ofWord 0x006).keychk = false ∧
      small.passwordKey = Key.zero) ∧
    ((st (withBytes [0, 0, 0, 0] small) []).Ready ∧ small.cfg.keychk = true ∧
      (withBytes [0, 0, 0, 0] small).passwordKey = Key.zero) := by decide

/-- Passwords of 16 and of 17 bytes. -/
theorem test_hyp_KeyIgnoresBytesFromSixteen :
    (st (withBytes pw16 wide) []).Ready ∧ (st (withBytes (pw16 ++ [0x51]) wide) []).Ready ∧
    16 ≤ (withBytes pw16 wide).blen.toNat ∧ 16 ≤ (withBytes (pw16 ++ [0x51]) wide).blen.toNat ∧
    (∀ j < 16, (withBytes pw16 wide).b.read j = (withBytes (pw16 ++ [0x51]) wide).b.read j) ∧
    (withBytes pw16 wide).cfg.keychk = (withBytes (pw16 ++ [0x51]) wide).cfg.keychk ∧
    (withBytes pw16 wide).passwordKey ≠ Key.zero := by decide

theorem test_hyp_RunningSumNeverZeroEarly :
    (0 < 1 ∧ 1 < 2 ^ 32) ∧ (0 < 2 ^ 32 - 1 ∧ 2 ^ 32 - 1 < 2 ^ 32) ∧
    BitVec.ofNat 32 (2 ^ 32 - 1) * Config.delta = 0x61C88647 ∧
    2 ≤ ([1, 2] : List Word).length ∧ 64 ≤ roundCount 6 ([1, 2] : List Word).length * ([1, 2] : List Word).length := by
  decide

/-- The shortest sequence; and no round at all, at 53 words. -/
theorem test_hyp_RoundCountTable :
    let b : Block := { Block.reset { nmax := 53 } with n := 53, cfg := Cfg.ofWord 0x200 }
    2 ≤ 2 ∧ roundCount 255 2 = 281 ∧ (st b []).Inv ∧ (st b []).Ready ∧ b.cfg.roundsBase = 0 ∧ 53 ≤ b.n.toNat := by decide

/-- No word, one word, and a full `V`. -/
theorem test_hyp_XencRunsEncodeSteps :
    ((st small []).Inv ∧ (st small []).Ready ∧ small.n = 0) ∧
    ((st (withWords [5] small) []).Inv ∧ (st (withWords [5] small) []).Ready ∧ (withWords [5] small).n ≠ 0) ∧
    ((st two []).Inv ∧ (st two []).Ready ∧ two.n ≠ 0) := by decide

theorem test_hyp_XdecRunsDecodeSteps :
    ((st small []).Inv ∧ (st small []).Ready ∧ small.n = 0) ∧
    ((st (withWords [5] small) []).Inv ∧ (st (withWords [5] small) []).Ready ∧ (withWords [5] small).n ≠ 0) ∧
    ((st two []).Inv ∧ (st two []).Ready ∧ two.n ≠ 0) := by decide

theorem test_hyp_DecodeIsExactInverse :
    ((st two []).Inv ∧ (st two []).Ready ∧ 2 ≤ two.n.toNat) ∧ ((st small []).Inv ∧ small.n = 0) ∧
    ((st (withWords [5] small) []).Inv ∧ (st (withWords [5] small) []).Ready ∧ (withWords [5] small).n = 1) ∧
    2 ≤ ([1, 2] : List Word).length := by decide

/-- The values at which the clauses meet. -/
theorem test_hyp_SymbolTable : ∀ a : Alphabet,
    [0, 25, 26, 51, 52, 61].map (fun s => a.sym (BitVec.ofNat 6 s)) = [0x41, 0x5A, 0x61, 0x7A, 0x30, 0x39] := by
  intro a; cases a <;> decide

theorem test_hyp_GroupsAreMostSignificantFirst : (3 < 4) ∧ groupSlice 0x3F#24 3 = 63 ∧ groupSlice 0xFC0000#24 0 = 63 := by
  decide

/-- Two bytes: one chunk, with its third byte missing. -/
theorem test_hyp_B64eEmitsSymbols :
    (st (withBytes [0xFB, 0xFF] small) []).Inv ∧ (st (withBytes [0xFB, 0xFF] small) []).Ready ∧
    3 * 0 + 1 < (withBytes [0xFB, 0xFF] small).blen.toNat ∧ ¬ 3 * 0 + 2 < (withBytes [0xFB, 0xFF] small).blen.toNat := by
  decide

/-- The empty text, and a text of `TMAX` symbols that fills `B`. -/
theorem test_hyp_B64dRecoversBytes :
    ((st small []).Inv ∧ (st small []).Ready ∧ small.tlen.toNat % 4 = 0 ∧ small.textNeed ≤ small.params.bmax) ∧
    (let b := withText [0x39, 0x76, 0x54, 0x6B, 0x57, 0x2B, 0x53, 0x4D, 0x6E, 0x69, 0x6B, 0x3D] small;
      (st b []).Inv ∧ (st b []).Ready ∧ b.tlen.toNat % 4 = 0 ∧ (∀ j < b.tlen.toNat, b.symbolLegal j) ∧
        b.textNeed = b.params.bmax) := by decide

theorem test_hyp_B64dReportsFirstOffender_length :
    (st (withText [0x5A, 0x6D, 0x39] small) []).Ready ∧ (withText [0x5A, 0x6D, 0x39] small).tlen.toNat % 4 ≠ 0 := by decide

/-- A misplaced `=` at index 0. -/
theorem test_hyp_B64dReportsFirstOffender_first :
    (st (withText [0x3D, 0x51, 0x51, 0x51] small) []).Ready ∧ (withText [0x3D, 0x51, 0x51, 0x51] small).tlen.toNat = 4 ∧
      ¬ (withText [0x3D, 0x51, 0x51, 0x51] small).symbolLegal 0 := by decide

/-- A `=` at the last index but one, before a symbol. -/
theorem test_hyp_B64dReportsFirstOffender_padding :
    (∀ i < 2, (withText [0x51, 0x51, 0x3D, 0x51] small).symbolLegal i) ∧
      ¬ (withText [0x51, 0x51, 0x3D, 0x51] small).symbolLegal 2 := by decide

/-- A code outside the alphabet at the last index. -/
theorem test_hyp_B64dReportsFirstOffender_character :
    (∀ i < 3, (withText [0x41, 0x41, 0x41, 0x2A] small).symbolLegal i) ∧
      ¬ (withText [0x41, 0x41, 0x41, 0x2A] small).symbolLegal 3 := by decide

/-- `BMAX + 1` bytes and `BMAX + 2` bytes. -/
theorem test_hyp_B64dRaisesCapacity :
    (let b := withText (List.replicate 12 0x41) small;
      (st b []).Inv ∧ (st b []).Ready ∧ b.tlen.toNat % 4 = 0 ∧ (∀ j < b.tlen.toNat, b.symbolLegal j) ∧
        b.textNeed = b.params.bmax + 1) ∧
    (let b := withText (List.replicate 24 0x41) (Block.reset { nmax := 4 });
      (st b []).Inv ∧ (st b []).Ready ∧ b.tlen.toNat % 4 = 0 ∧ (∀ j < b.tlen.toNat, b.symbolLegal j) ∧
        b.textNeed = b.params.bmax + 2) := by decide

theorem test_hyp_B64dInvertsB64e :
    (st (withBytes [0xFB, 0xFF] small) []).Inv ∧ (st (withBytes [0xFB, 0xFF] small) []).Ready ∧
    (st { (withText [0x2B, 0x2F, 0x38, 0x3D] small) with b := [(7, 9)], blen := 8 } []).Inv := by decide

/-- A text without and one with a symbol of value 62. -/
theorem test_hyp_OtherAlphabetIsRejected :
    Alphabet.urlSafe ≠ small.cfg.alph ∧ (st (withBytes [0x66] small) []).Inv ∧ (st (withBytes [0x66] small) []).Ready ∧
    (b64Encode .standard [0x66]).map Alphabet.standard.val = [some 25, some 32, none, none] ∧
    (st (withBytes [0xFB] small) []).Inv ∧ (st (withBytes [0xFB] small) []).Ready ∧
    (b64Encode .standard [0xFB]).map Alphabet.standard.val = [some 62, some 48, none, none] := by decide

/-- BD8 beside BD10, and BD11 beside BD13. -/
theorem test_hyp_UnusedBitsAreIgnored :
    (Alphabet.standard.val 0x51 = some 16 ∧ Alphabet.standard.val 0x66 = some 31 ∧ 16 / 16 = 31 / 16 ∧
      b64Check .standard [0x51, 0x51, 0x3D, 0x3D] = none) ∧
    (Alphabet.standard.val 0x51 = some 16 ∧ Alphabet.standard.val 0x54 = some 19 ∧ 16 / 4 = 19 / 4 ∧
      b64Check .standard [0x51, 0x51, 0x51, 0x3D] = none) := by decide

theorem test_hyp_FaultedBlockDropsCommands :
    (st faulted [.write 0x008 4 0]).Faulted ∧ (st faulted [.write 0x008 4 0]).pending = .write 0x008 4 0 :: [] := by decide

theorem test_hyp_IllegalWordRaisesFault :
    (st small [.write 0x008 4 0x32]).Ready ∧ (st small [.write 0x008 4 0x32]).pending = .write 0x008 4 0x32 :: [] ∧
    0x32#32 ∉ [0x00#32, 0x01#32, 0x10#32, 0x11#32, 0x12#32, 0x13#32, 0x14#32, 0x20#32, 0x21#32, 0x30#32, 0x31#32] := by decide

theorem test_hyp_AckClearsFaultRecord :
    (st faulted [.write 0x00C 4 1]).pending = .write 0x00C 4 1 :: [] ∧ (1#32).toNat % 2 = 1 ∧
    (st faulted [.write 0x00C 4 2]).pending = .write 0x00C 4 2 :: [] ∧ (2#32).toNat % 2 = 0 := by decide

/-- `KEYNORM` faults on the empty password. -/
theorem test_hyp_FaultsArePrecise :
    (st small []).Ready ∧ (blockAfter (exec .keynorm (st small []))).map (·.status.err) = some true := by decide

/-- One fault of each kind. -/
theorem test_hyp_OnlyThreeCommandsFault :
    ((st (withText [0x5A] small) []).Inv ∧
      (blockAfter (exec .b64d (st (withText [0x5A] small) []))).map faultRecord = some [1, 1, 1, 0x31]) ∧
    ((st (withText (List.replicate 12 0x41) small) []).Inv ∧
      (blockAfter (exec .b64d (st (withText (List.replicate 12 0x41) small) []))).map faultRecord = some [3, 5, 9, 0x31]) ∧
    ((st small []).Inv ∧ (blockAfter (exec .keynorm (st small []))).map faultRecord = some [3, 4, 0, 0x12]) ∧
    ((st (withBytes [1] small) []).Inv ∧
      (blockAfter (exec .deser (st (withBytes [1] small) []))).map faultRecord = some [1, 7, 1, 0x14]) := by decide

/-- Into FAULTED by a write to `CMD`; out of it by an acknowledge, and by reset. -/
theorem test_hyp_ModeChangesOnlyAsStated :
    ((st small [.write 0x008 4 0x02]).Ready ∧
      (blockAfter (step (st small [.write 0x008 4 0x02]))).map (·.status.err) = some true) ∧
    ((st faulted [.write 0x00C 4 1]).Faulted ∧
      (blockAfter (step (st faulted [.write 0x00C 4 1]))).map (·.status.err) = some false) ∧
    ((st faulted [.reset]).Faulted ∧ (blockAfter (step (st faulted [.reset]))).map (·.status.err) = some false) := by decide

theorem test_hyp_RetryFaultsTheSameWay :
    (st small []).Inv ∧ (st small []).Ready ∧
    (blockAfter (exec .keynorm (st small []))).map (·.status.err) = some true := by decide

/-- The first location and the last one. -/
theorem test_hyp_ReadsHaveNoSideEffect :
    (0x0000 % 4 = 0 ∧ 0x0000 ≤ 0xFFFC ∧ (st small [.read 0x0000 4]).pending = .read 0x0000 4 :: []) ∧
    (0xFFFC % 4 = 0 ∧ 0xFFFC ≤ 0xFFFC ∧ (st small [.read 0xFFFC 4]).pending = .read 0xFFFC 4 :: []) := by decide

/-- The last cell in capacity and the first beyond it, in each window; the ends of the reserved ranges. -/
theorem test_hyp_ReadsReturnTheCells :
    small.WfParams ∧ (1 < small.params.nmax ∧ ¬ 2 < small.params.nmax) ∧ (7 < small.params.bmax ∧ ¬ 8 < small.params.bmax) ∧
    (11 < small.params.tmax ∧ ¬ 12 < small.params.tmax) ∧ (0x044 < 0x1000 ∧ 0xFFC < 0x1000 ∧ 0xFFC % 4 = 0) ∧
    (0x2000 ≤ 0x3FFC ∧ 0x3FFC < 0x4000) := by decide

/-- The last cell of each memory. -/
theorem test_hyp_CellWritesStore :
    (st two []).Inv ∧ (1 < two.params.nmax ∧ 0x1000 + 4 * 1 = 0x1004) ∧ (7 < two.params.bmax ∧ 0x4000 + 4 * 7 = 0x401C) ∧
    (11 < two.params.tmax ∧ 0x8000 + 4 * 11 = 0x802C) ∧
    (st two [.write 0x1004 4 9]).pending = .write 0x1004 4 9 :: [] := by decide

/-- An offset of each clause, at the ends of the ranges. -/
theorem test_hyp_OtherWritesAreIgnored :
    (st small [.write 0x010 4 9]).pending = .write 0x010 4 9 :: [] ∧
    (∀ off ∈ [0x000, 0x02C, 0x040, 0xFFC, 0x1008, 0x1FFC, 0x2000, 0x3FFC, 0x4020, 0x7FFC, 0x8030, 0xFFFC],
      off % 4 = 0 ∧ off ≤ 0xFFFC) ∧
    0x1008 = 0x1000 + 4 * small.params.nmax ∧ 0x4020 = 0x4000 + 4 * small.params.bmax ∧
    0x8030 = 0x8000 + 4 * small.params.tmax := by decide

/-- The capacity itself and one more. -/
theorem test_hyp_LengthWritesAreBounded :
    ((2#32).toNat ≤ small.params.nmax ∧ ¬ (3#32).toNat ≤ small.params.nmax) ∧
    ((8#32).toNat ≤ small.params.bmax ∧ ¬ (9#32).toNat ≤ small.params.bmax) ∧
    ((12#32).toNat ≤ small.params.tmax ∧ ¬ (13#32).toNat ≤ small.params.tmax) ∧
    (st small [.write 0x020 4 2]).pending = .write 0x020 4 2 :: [] := by decide

theorem test_hyp_CfgWriteKeepsTenBits : (st small [.write 0x004 4 0x400]).pending = .write 0x004 4 0x400 :: [] := by decide

theorem test_hyp_KeyWritesBypassTheCheck :
    (st faulted [.write 0x030 4 0]).pending = .write 0x030 4 0 :: [] ∧
    (st faulted [.write 0x03C 4 0]).pending = .write 0x03C 4 0 :: [] := by decide

/-- Each kind of access outside the interface, as a read and as a write. -/
theorem test_hyp_OutsideAccessesAreRefused :
    ((st small [.read 0 2]).pending = .read 0 2 :: [] ∧ 2 ≠ 4) ∧
    ((st small [.write 0x006 4 1]).pending = .write 0x006 4 1 :: [] ∧ 0x006 % 4 ≠ 0) ∧
    ((st small [.read 0x10000 4]).pending = .read 0x10000 4 :: [] ∧ 0x10000 % 4 = 0 ∧ 0xFFFC < 0x10000) := by decide

theorem test_hyp_OffsetsLocateTheirCells :
    locate 0x1FFC = some (.vCell 1023) ∧ locate 0x7FFC = some (.bCell 4095) ∧ locate 0xFFFC = some (.tCell 8191) := by decide

theorem test_hyp_ResetStateReadsZero :
    Config.Params.wellFormed { nmax := 2 } = true ∧ Config.Params.wellFormed { nmax := 1024 } = true := by decide

theorem test_hyp_ResetFromAnyState : (st faulted [.reset]).pending = .reset :: [] := by decide

theorem test_hyp_IdleBlockKeepsState : (st two []).pending = [] := by decide

theorem test_hyp_StepRunsDecodedCommand :
    (st two [.write 0x008 4 0x20]).pending = .write 0x008 4 0x20 :: [] ∧ decodeTableWord 32 0x31 = some .b64d := by decide

theorem test_hyp_StepKeepsInvariant :
    (st two [.write 0x008 4 0x11]).Inv ∧ (blockAfter (step (st two [.write 0x008 4 0x11]))).map Block.blen = some 5 := by decide

theorem test_hyp_SafeStatesStep : (st two [.write 0x008 4 0x11, .read 0x024 4, .reset]).Safe := by decide

theorem test_hyp_KeyWritersAreListed :
    (blockAfter (step (st (withBytes [0x61] small) [.write 0x008 4 0x12]))).map (·.k.k0) = some 0x03030361 ∧
    (blockAfter (step (st small [.write 0x034 4 7]))).map (·.k.k1) = some 7 := by decide

theorem test_hyp_MemoryWritersAreListed :
    (blockAfter (step (st (withBytes [0x61] small) [.write 0x008 4 0x10]))).map (·.v) = some [(0, 0x03030361)] ∧
    (blockAfter (step (st two [.write 0x008 4 0x13]))).map (·.blen) = some 8 ∧
    (blockAfter (step (st small [.write 0x802C 4 0x141]))).map (·.t) = some [(11, 0x41)] := by decide

/-- Two blocks that differ in a cell at the length. -/
theorem test_hyp_CommandsSeeOnlyBelowLengths :
    (let a := withWords [5] small;
      let b := { a with v := [(0, 5), (1, 9)] };
      a ≠ b ∧ (st a []).Inv ∧ (st b []).Inv ∧ a.AgreesBelow b) ∧
    ((st two []).Inv ∧ Instr.unpack ≠ .clr) := by decide

/-- A plaintext that comes back, one with a sentinel, one of four bytes. -/
theorem test_hyp_RoundTripExactlyWhenStated :
    ((st (withBytes [0x61] small) []).Inv ∧ (st (withBytes [0x61] small) []).Ready ∧ (withBytes [0x61] small).bytes ≠ []) ∧
    ((st (withBytes [1, 3, 2] small) []).Inv ∧ 0x03#8 ∈ (withBytes [1, 3, 2] small).bytes) ∧
    ((st (withBytes (pw16.take 4) small) []).Inv ∧ 0x03#8 ∉ (withBytes (pw16.take 4) small).bytes ∧
      (withBytes (pw16.take 4) small).bytes.length = 4) := by decide

/-- Data that fill their buffer. -/
theorem test_hyp_DirectivesLoadBuffers :
    ((st small (Stmt.bytes (pw16.take 8)).accesses).Inv ∧ (pw16.take 8).length ≤ small.params.bmax) ∧
    ((st small (Stmt.text (pw16.take 12)).accesses).Inv ∧ (pw16.take 12).length ≤ small.params.tmax) ∧
    ((st small (Stmt.words [1, 2]).accesses).Inv ∧ [1, 2].length ≤ small.params.nmax) ∧
    (st small (Stmt.key key1).accesses).pending = (Stmt.key key1).accesses ++ [] := by decide

theorem test_hyp_ApiRoundTripOnTheBlock :
    (st small []).Inv ∧ (st small []).Ready ∧ ([0x61] : List Byte) ≠ [] ∧ normalizeKey [0x62] ≠ Key.zero ∧
    (encryptB64 small.params [0x61] [0x62]).isSome = true := by decide

theorem test_hyp_ApiRawRoundTripOnTheBlock :
    (st small []).Inv ∧ (st small []).Ready ∧ ([0x61] : List Byte) ≠ [] ∧ normalizeKey [0x62] ≠ Key.zero ∧
    (encryptRaw small.params [0x61] [0x62]).isSome = true := by decide

/-- Data one longer than their buffer; and a password of four zero bytes with each of the scripts. -/
theorem test_hyp_ApiSequencesRefuseOrFault :
    (small.params.bmax < 9 ∧ small.params.nmax < 3 ∧ small.params.tmax < 13) ∧
    (st small []).Inv ∧ (st small []).Ready ∧ small.cfg.keychk = true ∧ normalizeKey [0, 0, 0, 0] = Key.zero ∧
    passwordLoad small.params [0, 0, 0, 0] = some [0, 0, 0, 0] ∧
    (encryptRaw small.params [0x61] [0, 0, 0, 0]).isSome = true ∧
    (encryptB64 small.params [0x61] [0, 0, 0, 0]).isSome = true ∧
    (decryptRaw small.params [5, 6] [0, 0, 0, 0]).isSome = true ∧
    (decryptB64 small.params [0x51] [0, 0, 0, 0]).isSome = true := by decide

end Sys2Proof.Machine
end

/-! The family 10_state.md: the reset state, host writes of registers, who writes each part of the state, the invariant,
and what a command sees. -/

namespace Sys2Proof.Machine

/-! ### The reset block -/

/-- The state of R41 is well formed for every legal capacity. -/
theorem Block.wfParts_reset {p : Config.Params} (hge : 2 ≤ p.nmax) (hle : p.nmax ≤ 1024) : (Block.reset p).WfParts where
  nmax_ge := hge
  nmax_le := hle
  n_le := Nat.zero_le _
  blen_le := Nat.zero_le _
  tlen_le := Nat.zero_le _
  v_wf := rfl
  b_wf := rfl
  t_wf := rfl
  fault_wf := rfl

@[simp] theorem ready_word : Status.ready.word = 0 := by decide

/-- Only `ID`, `CFG` and `NMAX` read as anything but 0 after reset. -/
theorem readReg_reset (p : Config.Params) {r : Reg} (hid : r ≠ .id) (hcfg : r ≠ .cfg) (hnmax : r ≠ .nmax) :
    readReg (Block.reset p) r = 0 := by
  cases r with
  | id => exact absurd rfl hid
  | cfg => exact absurd rfl hcfg
  | nmax => exact absurd rfl hnmax
  | status => exact ready_word
  | _ => rfl

/-- Every offset but those three reads 0 after reset. -/
theorem memRead_reset (p : Config.Params) {off : Nat} (hid : off ≠ 0x000) (hcfg : off ≠ 0x004) (hnmax : off ≠ 0x040) :
    memRead (Block.reset p) off = 0 := by
  unfold memRead
  cases hl : locate off with
  | none => rfl
  | some l =>
    obtain ⟨r, rfl, rfl⟩ | ⟨i, rfl, -⟩ | ⟨i, rfl, -⟩ | ⟨i, rfl, -⟩ := locate_some hl
    · exact readReg_reset p (by rintro rfl; exact hid rfl) (by rintro rfl; exact hcfg rfl)
        (by rintro rfl; exact hnmax rfl)
    all_goals
      simp only [readLoc]
      split <;> rfl

/-! ### Host writes of registers -/

/-- The step on a host write of a register that is not `CMD`. -/
theorem step_writeReg {s : State} {r : Reg} {x : Word} {rest : List HostAccess}
    (h : s.pending = .write r.offset 4 x :: rest) (hc : r ≠ .cmd) :
    step s = .next { s with pending := rest, block := writeReg s.block x r } :=
  step_wrAccess (l := .reg r) h (locate_reg r) (by simpa using hc) (by cases r <;> decide) (by cases r <;> decide)

@[simp] theorem Alphabet.bit_ofBit (c : Bool) : (Alphabet.ofBit c).bit = c := by cases c <;> rfl

/-- `CFG` reads as bits 9:0 of the value written (10_state.md R27). -/
theorem Cfg.word_ofWord (x : Word) : (Cfg.ofWord x).word = (x.setWidth 10).setWidth 32 := by
  simp only [Cfg.word, Cfg.ofWord, Alphabet.bit_ofBit]
  refine BitVec.eq_of_getLsbD_eq fun i hi => ?_
  rw [BitVec.getLsbD_setWidth, BitVec.getLsbD_append, BitVec.getLsbD_append]
  interval_cases i <;> simp

theorem Cfg.word_ofWord_toNat (x : Word) : (Cfg.ofWord x).word.toNat = x.toNat % 1024 := by
  rw [Cfg.word_ofWord, BitVec.toNat_setWidth, BitVec.toNat_setWidth]
  omega

/-! ### The invariant through host writes -/

theorem writeLength_le {cap : Nat} {old : Word} (h : old.toNat ≤ cap) (x : Word) :
    (writeLength cap old x).toNat ≤ cap := by
  unfold writeLength
  split
  · assumption
  · exact h

/-- A host write of a register keeps a block well formed. -/
theorem Block.WfParts.writeReg {b : Block} (h : b.WfParts) (x : Word) (r : Reg) : (writeReg b x r).WfParts := by
  cases r with
  | status =>
    simp only [Machine.writeReg]
    split
    · exact h.ackFault
    · exact h
  | n => exact { h with n_le := writeLength_le h.n_le x }
  | blen => exact { h with blen_le := writeLength_le h.blen_le x }
  | tlen => exact { h with tlen_le := writeLength_le h.tlen_le x }
  | _ => exact { h with }

/-- A host write of a location keeps a block well formed: a cell is written only below its capacity. -/
theorem Block.WfParts.writeLoc {b : Block} (h : b.WfParts) (x : Word) (l : Loc) : (writeLoc b x l).WfParts := by
  cases l with
  | reg r => exact h.writeReg x r
  | vCell i =>
    simp only [Machine.writeLoc]
    split
    · next hi => exact { h with v_wf := wf_write h.v_wf hi }
    · exact h
  | bCell i =>
    simp only [Machine.writeLoc]
    split
    · next hi => exact { h with b_wf := wf_write h.b_wf hi }
    · exact h
  | tCell i =>
    simp only [Machine.writeLoc]
    split
    · next hi => exact { h with t_wf := wf_write h.t_wf hi }
    · exact h

/-! ### What a step does to the block -/

/-- A word with a zero field of 0 is its opcode (30_encoding.md R90). -/
theorem eq_opcodeField_of_zeroField {w : Word} (h : zeroField w = 0) : w = (opcodeField w).setWidth 32 := by
  have hz : w.toNat / 256 % 16777216 = 0 := by
    simpa [zeroField, BitVec.extractLsb'_toNat, Nat.shiftRight_eq_div_pow] using congrArg BitVec.toNat h
  have hw := w.isLt
  refine BitVec.eq_of_toNat_eq ?_
  simp only [opcodeField, BitVec.toNat_setWidth, BitVec.extractLsb'_toNat, Nat.shiftRight_zero]
  omega

/-- A row of the opcode map, or the rows below it. -/
theorem of_ite_ok {ε α : Type} {c : Prop} [Decidable c] {a r : α} {e : Except ε α}
    (h : (if c then .ok a else e) = .ok r) : c ∧ a = r ∨ e = .ok r := by
  by_cases hc : c
  · rw [if_pos hc] at h; exact .inl ⟨hc, Except.ok.inj h⟩
  · rw [if_neg hc] at h; exact .inr h

theorem encode_of_decodeOpcode {op : BitVec 8} {i : Instr} (h : decodeOpcode op = .ok i) :
    op.setWidth 32 = encode i := by
  unfold decodeOpcode at h
  repeat (rcases of_ite_ok h with ⟨rfl, rfl⟩ | h; · rfl)
  cases h

/-- A word that decodes to a command is that command's word (30_encoding.md R91). -/
theorem eq_encode_of_decode {w : Word} {i : Instr} (h : decode w = .ok i) : w = encode i := by
  unfold decode at h
  split at h
  · next hz => exact (eq_opcodeField_of_zeroField hz).trans (encode_of_decodeOpcode h)
  · cases h

/-- Everything a step can do to the block: keep it, reset it, run a command on it while READY, record an illegal word, or
store a host write. -/
theorem step_block_cases {s t : State} (h : step s = .next t) :
    t.block = s.block ∨
    (∃ rest, s.pending = .reset :: rest ∧ t.block = Block.reset s.block.params) ∨
    (∃ i rest, s.Ready ∧ s.pending = .write 0x008 4 (encode i) :: rest ∧ t.block = effect i s.block) ∨
    (∃ w e, decode w = .error e ∧ t.block = raiseFault .illegalCommand 0 w s.block) ∨
    (∃ off x rest l, s.pending = .write off 4 x :: rest ∧ locate off = some l ∧ t.block = writeLoc s.block x l) := by
  obtain ⟨-, rfl⟩ | ⟨_, _, -, -, -, rfl⟩ | ⟨rest, hp, rfl⟩ | ⟨w, rest, hp, hw⟩ | ⟨off, x, rest, l, hp, hl, -, rfl⟩ |
    ⟨_, _, _, -, -, rfl⟩ := step_cases h
  · exact .inl rfl
  · exact .inl rfl
  · exact .inr (.inl ⟨rest, hp, rfl⟩)
  · obtain ⟨-, rfl⟩ | ⟨hr, i, hd, rfl⟩ | ⟨-, ⟨e, he⟩, rfl⟩ := writeCmd_cases hw
    · exact .inl rfl
    · exact .inr (.inr (.inl ⟨i, rest, hr, eq_encode_of_decode hd ▸ hp, rfl⟩))
    · exact .inr (.inr (.inr (.inl ⟨w, e, he, rfl⟩)))
  · exact .inr (.inr (.inr (.inr ⟨off, x, rest, l, hp, hl, rfl⟩)))
  · exact .inl rfl

/-- Every step keeps the block well formed. -/
theorem Block.WfParts.step {s t : State} (h : s.block.WfParts) (hs : step s = .next t) : t.block.WfParts := by
  obtain hb | ⟨-, -, hb⟩ | ⟨i, -, -, -, hb⟩ | ⟨w, e, he, hb⟩ | ⟨-, x, -, l, -, -, hb⟩ := step_block_cases hs <;> rw [hb]
  · exact h
  · exact Block.wfParts_reset h.nmax_ge h.nmax_le
  · exact h.effect i
  · exact h.raiseFault _ _ _ (by simp [Cause.raisedBy, he])
  · exact h.writeLoc x l

/-- Who can change a part `f` of the block that fault entry leaves alone, when a host write changes it only at the offsets
`offs` and a command only when it is one of `cmds`: reset, such a write, or such a command while READY. -/
theorem step_writers {α : Type} (f : Block → α) (offs : Nat → Prop) (cmds : List Instr)
    (hfault : ∀ c info cmd b, f (raiseFault c info cmd b) = f b)
    (hloc : ∀ {b x off l}, locate off = some l → f (writeLoc b x l) ≠ f b → offs off)
    (hcmd : ∀ {i b}, f (effect i b) ≠ f b → i ∈ cmds) {s t : State} (hs : step s = .next t)
    (hne : f t.block ≠ f s.block) :
    ∃ rest, s.pending = .reset :: rest ∨ (∃ x off, offs off ∧ s.pending = .write off 4 x :: rest) ∨
      (s.Ready ∧ ∃ i, i ∈ cmds ∧ s.pending = .write 0x008 4 (encode i) :: rest) := by
  obtain hb | ⟨rest, hp, -⟩ | ⟨i, rest, hr, hp, hb⟩ | ⟨w, -, -, hb⟩ | ⟨off, x, rest, l, hp, hl, hb⟩ :=
    step_block_cases hs
  · exact absurd (congrArg f hb) hne
  · exact ⟨rest, .inl hp⟩
  · exact ⟨rest, .inr (.inr ⟨hr, i, hcmd (hb ▸ hne), hp⟩)⟩
  · exact absurd (hb ▸ hfault _ _ _ _) hne
  · exact ⟨rest, .inr (.inl ⟨x, off, hloc hl (hb ▸ hne), hp⟩)⟩

/-! ### What a command does to the block -/

/-- What a command can make of the block `b`: it keeps it, raises a fault, clears the data, sets the key, or stores a
result that fits in its destination (10_state.md R22, R35 to R38). -/
inductive CommandResult (i : Instr) (b : Block) : Block → Prop
  | keep : CommandResult i b b
  | fault (c : Cause) (info cmd : Word) : CommandResult i b (raiseFault c info cmd b)
  | clear (hi : i = .clr) : CommandResult i b (effect .clr b)
  | key (hi : i = .keynorm) (k : Key) : CommandResult i b { b with k := k }
  | words (hi : i ∈ [Instr.pack, .deser, .xenc, .xdec]) (w : List Word) (hw : w.length ≤ b.params.nmax) :
    CommandResult i b { b with v := b.v.fill 0 w, n := BitVec.ofNat 32 w.length }
  | bytes (hi : i ∈ [Instr.unpack, .ser, .b64d]) (x : List Byte) (hx : x.length ≤ b.params.bmax) :
    CommandResult i b { b with b := b.b.fill 0 x, blen := BitVec.ofNat 32 x.length }
  | text (hi : i = .b64e) (x : List Byte) (hx : x.length ≤ b.params.tmax) :
    CommandResult i b { b with t := b.t.fill 0 x, tlen := BitVec.ofNat 32 x.length }

namespace CommandResult

variable {i : Instr} {b c : Block}

theorem storeWords (hi : i ∈ [Instr.pack, .deser, .xenc, .xdec]) (cmd : Word) (w : List Word) :
    CommandResult i b (storeWords cmd w b) := by
  obtain ⟨-, h⟩ | ⟨hw, h⟩ := storeWords_cases cmd w b <;> rw [h]
  · exact .fault _ _ _
  · exact .words hi w hw

theorem storeBytes (hi : i ∈ [Instr.unpack, .ser, .b64d]) (cmd : Word) (x : List Byte) :
    CommandResult i b (storeBytes cmd x b) := by
  obtain ⟨-, h⟩ | ⟨hx, h⟩ := storeBytes_cases cmd x b <;> rw [h]
  · exact .fault _ _ _
  · exact .bytes hi x hx

theorem storeText (hi : i = .b64e) (cmd : Word) (x : List Byte) : CommandResult i b (storeText cmd x b) := by
  obtain ⟨-, h⟩ | ⟨hx, h⟩ := storeText_cases cmd x b <;> rw [h]
  · exact .fault _ _ _
  · exact .text hi x hx

/-- The effect of every command is one of these. -/
theorem of_effect (i : Instr) (b : Block) : CommandResult i b (effect i b) := by
  cases i with
  | nop => exact .keep
  | clr => exact .clear rfl
  | pack => exact .storeWords (by decide) _ _
  | unpack => exact .storeBytes (by decide) _ _
  | keynorm =>
    simp only [effect]
    split
    · exact .fault _ _ _
    · exact .key rfl _
  | ser => exact .storeBytes (by decide) _ _
  | deser =>
    simp only [effect]
    split
    · exact .fault _ _ _
    · exact .storeWords (by decide) _ _
  | xenc => exact .storeWords (by decide) _ _
  | xdec => exact .storeWords (by decide) _ _
  | b64e => exact .storeText rfl _ _
  | b64d =>
    simp only [effect]
    split
    · exact .fault _ _ _
    · split
      · exact .fault _ _ _
      · exact .storeBytes (by decide) _ _

/-- `K` is written by `KEYNORM` and `CLR` only (10_state.md R22). -/
theorem of_k_ne (h : CommandResult i b c) (hne : c.k ≠ b.k) : i ∈ [Instr.keynorm, .clr] := by
  cases h with
  | clear hi => subst hi; decide
  | key hi => subst hi; decide
  | _ => exact absurd rfl hne

/-- The commands that write `V` (10_state.md R35). -/
theorem of_v_ne (h : CommandResult i b c) (hne : c.v ≠ b.v) : i ∈ [Instr.pack, .deser, .xenc, .xdec, .clr] := by
  cases h with
  | clear hi => subst hi; decide
  | words hi => exact List.mem_append_left [Instr.clr] hi
  | _ => exact absurd rfl hne

/-- The commands that write `B` (10_state.md R36). -/
theorem of_b_ne (h : CommandResult i b c) (hne : c.b ≠ b.b) : i ∈ [Instr.unpack, .ser, .b64d, .clr] := by
  cases h with
  | clear hi => subst hi; decide
  | bytes hi => exact List.mem_append_left [Instr.clr] hi
  | _ => exact absurd rfl hne

/-- The commands that write `T` (10_state.md R37). -/
theorem of_t_ne (h : CommandResult i b c) (hne : c.t ≠ b.t) : i ∈ [Instr.b64e, .clr] := by
  cases h with
  | clear hi => subst hi; decide
  | text hi => subst hi; decide
  | _ => exact absurd rfl hne

end CommandResult

/-! ### Where a host write changes each part of the block -/

theorem writeReg_v (b : Block) (x : Word) (r : Reg) : (writeReg b x r).v = b.v := by
  cases r with
  | status => simp only [writeReg]; split <;> rfl
  | _ => rfl

theorem writeReg_b (b : Block) (x : Word) (r : Reg) : (writeReg b x r).b = b.b := by
  cases r with
  | status => simp only [writeReg]; split <;> rfl
  | _ => rfl

theorem writeReg_t (b : Block) (x : Word) (r : Reg) : (writeReg b x r).t = b.t := by
  cases r with
  | status => simp only [writeReg]; split <;> rfl
  | _ => rfl

/-- `K` is written through `K0..K3` only (10_state.md R22). -/
theorem off_of_writeLoc_k_ne {b : Block} {x : Word} {off : Nat} {l : Loc} (hl : locate off = some l)
    (h : (writeLoc b x l).k ≠ b.k) : off ∈ [0x030, 0x034, 0x038, 0x03C] := by
  obtain ⟨r, rfl, rfl⟩ | ⟨_, rfl, -⟩ | ⟨_, rfl, -⟩ | ⟨_, rfl, -⟩ := locate_some hl
  · cases r with
    | k0 | k1 | k2 | k3 => decide
    | status => simp only [writeLoc, writeReg] at h; split at h <;> exact absurd rfl h
    | _ => exact absurd rfl h
  all_goals simp only [writeLoc] at h; split at h <;> exact absurd rfl h

/-- `V` is written through its own window only (10_state.md R35). -/
theorem off_of_writeLoc_v_ne {b : Block} {x : Word} {off : Nat} {l : Loc} (hl : locate off = some l)
    (h : (writeLoc b x l).v ≠ b.v) : 0x1000 ≤ off ∧ off < 0x2000 := by
  obtain ⟨r, rfl, -⟩ | ⟨_, rfl, hw⟩ | ⟨_, rfl, -⟩ | ⟨_, rfl, -⟩ := locate_some hl
  · exact absurd (writeReg_v b x r) h
  · exact hw
  · simp only [writeLoc] at h; split at h <;> exact absurd rfl h
  · simp only [writeLoc] at h; split at h <;> exact absurd rfl h

/-- `B` is written through its own window only (10_state.md R36). -/
theorem off_of_writeLoc_b_ne {b : Block} {x : Word} {off : Nat} {l : Loc} (hl : locate off = some l)
    (h : (writeLoc b x l).b ≠ b.b) : 0x4000 ≤ off ∧ off < 0x8000 := by
  obtain ⟨r, rfl, -⟩ | ⟨_, rfl, -⟩ | ⟨_, rfl, hw⟩ | ⟨_, rfl, -⟩ := locate_some hl
  · exact absurd (writeReg_b b x r) h
  · simp only [writeLoc] at h; split at h <;> exact absurd rfl h
  · exact hw
  · simp only [writeLoc] at h; split at h <;> exact absurd rfl h

/-- `T` is written through its own window only (10_state.md R37). -/
theorem off_of_writeLoc_t_ne {b : Block} {x : Word} {off : Nat} {l : Loc} (hl : locate off = some l)
    (h : (writeLoc b x l).t ≠ b.t) : 0x8000 ≤ off ∧ off < 0x10000 := by
  obtain ⟨r, rfl, -⟩ | ⟨_, rfl, -⟩ | ⟨_, rfl, -⟩ | ⟨_, rfl, hw⟩ := locate_some hl
  · exact absurd (writeReg_t b x r) h
  · simp only [writeLoc] at h; split at h <;> exact absurd rfl h
  · simp only [writeLoc] at h; split at h <;> exact absurd rfl h
  · exact hw

/-! ### Cells below and above a stored length -/

section

variable {width cap j : Nat} {m : Memory width} {xs : List (BitVec width)}

/-- Below the stored length a memory holds the result alone. -/
theorem read_fill_below (h : m.wf cap = true) (hl : xs.length ≤ cap) (hj : j < (BitVec.ofNat 32 xs.length).toNat) :
    (m.fill 0 xs).read j = xs.getD j 0 := by
  rw [BitVec.toNat_ofNat] at hj
  rw [read_fill_zero h hl, if_pos (hj.trans_le (Nat.mod_le ..))]

/-- From the stored length on a memory holds what it held. -/
theorem read_fill_above (h : m.wf cap = true) (hl : xs.length ≤ cap) (hc : cap ≤ 5464)
    (hj : (BitVec.ofNat 32 xs.length).toNat ≤ j) : (m.fill 0 xs).read j = m.read j := by
  rw [toNat_ofNat_of_le hl hc] at hj
  rw [read_fill_zero h hl, if_neg (by omega)]

/-- Memories that agree below a length give the same source. -/
theorem take_congr {m' : Memory width} {len : Nat} (h : ∀ i < len, m.read i = m'.read i) : m.take len = m'.take len :=
  List.map_congr_left fun i hi => h i (List.mem_range.1 hi)

end

/-- Every command but `CLR` leaves the cells from the length it leaves behind on as they were (10_state.md R38). -/
theorem CommandResult.cells_above {i : Instr} {b c : Block} (h : CommandResult i b c) (hb : b.WfParts) (hc : i ≠ .clr) :
    (∀ j, c.n.toNat ≤ j → c.v.read j = b.v.read j) ∧ (∀ j, c.blen.toNat ≤ j → c.b.read j = b.b.read j) ∧
      (∀ j, c.tlen.toNat ≤ j → c.t.read j = b.t.read j) := by
  cases h with
  | clear hi => exact absurd hi hc
  | words _ w hw =>
    exact ⟨fun j hj => read_fill_above hb.v_wf hw (hb.nmax_le.trans (by decide)) hj, fun _ _ => rfl, fun _ _ => rfl⟩
  | bytes _ x hx =>
    exact ⟨fun _ _ => rfl, fun j hj => read_fill_above hb.b_wf hx (hb.bmax_le.trans (by decide)) hj, fun _ _ => rfl⟩
  | text _ x hx => exact ⟨fun _ _ => rfl, fun _ _ => rfl, fun j hj => read_fill_above hb.t_wf hx hb.tmax_le hj⟩
  | _ => exact ⟨fun _ _ => rfl, fun _ _ => rfl, fun _ _ => rfl⟩

/-! ### What a command sees -/

/-- The parts of `Block.AgreesBelow`, by name. -/
structure Block.AgreesParts (a b : Block) : Prop where
  params : a.params = b.params
  k : a.k = b.k
  cfg : a.cfg = b.cfg
  status : a.status = b.status
  errCode : a.errCode = b.errCode
  errInfo : a.errInfo = b.errInfo
  errCmd : a.errCmd = b.errCmd
  n : a.n = b.n
  blen : a.blen = b.blen
  tlen : a.tlen = b.tlen
  v_read : ∀ i < b.n.toNat, a.v.read i = b.v.read i
  b_read : ∀ i < b.blen.toNat, a.b.read i = b.b.read i
  t_read : ∀ i < b.tlen.toNat, a.t.read i = b.t.read i

theorem Block.agreesBelow_iff (a b : Block) : a.AgreesBelow b ↔ a.AgreesParts b := by
  constructor
  · rintro ⟨h1, h2, h3, h4, h5, h6, h7, h8, h9, h10, h11, h12, h13⟩
    exact ⟨h1, h2, h3, h4, h5, h6, h7, h8, h9, h10, h11, h12, h13⟩
  · rintro ⟨h1, h2, h3, h4, h5, h6, h7, h8, h9, h10, h11, h12, h13⟩
    exact ⟨h1, h2, h3, h4, h5, h6, h7, h8, h9, h10, h11, h12, h13⟩

namespace Block.AgreesParts

variable {a b : Block}

/-! The sources of the commands are the same. -/

theorem words_eq (h : a.AgreesParts b) : a.words = b.words := by rw [Block.words, h.n]; exact take_congr h.v_read

theorem bytes_eq (h : a.AgreesParts b) : a.bytes = b.bytes := by rw [Block.bytes, h.blen]; exact take_congr h.b_read

theorem text_eq (h : a.AgreesParts b) : a.text = b.text := by rw [Block.text, h.tlen]; exact take_congr h.t_read

/-! The same result leaves agreeing blocks. -/

theorem raiseFault (h : a.AgreesParts b) (c : Cause) (info cmd : Word) :
    (raiseFault c info cmd a).AgreesParts (raiseFault c info cmd b) :=
  { h with status := rfl, errCode := rfl, errInfo := rfl, errCmd := rfl }

theorem storeWords (h : a.AgreesParts b) (ha : a.WfParts) (hb : b.WfParts) (cmd : Word) {w : List Word}
    (hw : w.length ≤ b.params.nmax) : (storeWords cmd w a).AgreesParts (storeWords cmd w b) := by
  have hw' : w.length ≤ a.params.nmax := h.params ▸ hw
  rw [storeWords_fits cmd hw, storeWords_fits cmd hw']
  exact { h with
    n := rfl
    v_read := fun i hi => (read_fill_below ha.v_wf hw' hi).trans (read_fill_below hb.v_wf hw hi).symm }

theorem storeBytes (h : a.AgreesParts b) (ha : a.WfParts) (hb : b.WfParts) (cmd : Word) {x : List Byte}
    (hx : x.length ≤ b.params.bmax) : (storeBytes cmd x a).AgreesParts (storeBytes cmd x b) := by
  have hx' : x.length ≤ a.params.bmax := h.params ▸ hx
  rw [storeBytes_fits cmd hx, storeBytes_fits cmd hx']
  exact { h with
    blen := rfl
    b_read := fun i hi => (read_fill_below ha.b_wf hx' hi).trans (read_fill_below hb.b_wf hx hi).symm }

theorem storeText (h : a.AgreesParts b) (ha : a.WfParts) (hb : b.WfParts) (cmd : Word) {x : List Byte}
    (hx : x.length ≤ b.params.tmax) : (storeText cmd x a).AgreesParts (storeText cmd x b) := by
  have hx' : x.length ≤ a.params.tmax := h.params ▸ hx
  rw [storeText_fits cmd hx, storeText_fits cmd hx']
  exact { h with
    tlen := rfl
    t_read := fun i hi => (read_fill_below ha.t_wf hx' hi).trans (read_fill_below hb.t_wf hx hi).symm }

/-- Every command takes agreeing well-formed blocks to agreeing blocks: it reads only its source below the length and the
registers, and its result replaces its destination below the new length. -/
theorem effect (h : a.AgreesParts b) (ha : a.WfParts) (hb : b.WfParts) (i : Instr) :
    (Machine.effect i a).AgreesParts (Machine.effect i b) := by
  cases i <;>
    simp only [Machine.effect, h.words_eq, h.bytes_eq, h.text_eq, h.k, h.cfg, h.blen, h.params]
  case nop => exact h
  case clr =>
    exact { h with
      params := rfl, k := rfl, cfg := rfl, n := rfl, blen := rfl, tlen := rfl
      v_read := fun _ _ => rfl, b_read := fun _ _ => rfl, t_read := fun _ _ => rfl }
  case pack => exact h.storeWords ha hb _ (pack_fits hb)
  case unpack => exact h.storeBytes ha hb _ (unpack_fits hb)
  case keynorm =>
    split
    · exact h.raiseFault _ _ _
    · exact { h with params := rfl, k := rfl, cfg := rfl, blen := rfl }
  case ser => exact h.storeBytes ha hb _ (ser_fits hb)
  case deser =>
    split
    · exact h.raiseFault _ _ _
    · exact h.storeWords ha hb _ (deser_fits hb)
  case xenc => exact h.storeWords ha hb _ (xenc_fits hb)
  case xdec => exact h.storeWords ha hb _ (xdec_fits hb)
  case b64e => exact h.storeText ha hb _ (b64e_fits hb)
  case b64d =>
    cases hc : b64Check b.cfg.alph b.text with
    | some ci => exact h.raiseFault _ _ _
    | none =>
      simp only
      split
      · exact h.raiseFault _ _ _
      · next hn => exact h.storeBytes ha hb _ (b64d_fits hc hn)

end Block.AgreesParts

/-! ### The obligations -/

/-- Settles O50: the reset block with the default capacity is well formed. -/
theorem resetStateIsWellFormed : Obligations.ResetStateIsWellFormed :=
  (Block.wf_iff _).2 (Block.wfParts_reset (by decide) (by decide))

/-- Settles O43: what each offset reads on the reset block. -/
theorem resetStateReadsZero : Obligations.ResetStateReadsZero := by
  refine ⟨rfl, fun p hp => ⟨rfl, ?_, ?_, ?_, ?_⟩⟩
  · exact (by decide : Cfg.reset.word = 0x00000206#32)
  · simp only [Config.Params.wellFormed, Bool.and_eq_true, decide_eq_true_iff] at hp
    exact toNat_ofNat_of_le hp.2 (by decide)
  · exact fun off hid hcfg hnmax => memRead_reset p hid hcfg hnmax
  · exact fun i => ⟨rfl, rfl, rfl⟩

/-- Settles O38, by what a host write of each length register stores. -/
theorem lengthWritesAreBounded : Obligations.LengthWritesAreBounded :=
  fun _ _ _ => ⟨fun h => step_writeReg (r := .n) h (by decide), fun h => step_writeReg (r := .blen) h (by decide),
    fun h => step_writeReg (r := .tlen) h (by decide)⟩

/-- Settles O39: `CFG` reads back as bits 9:0 of the value its write stores. -/
theorem cfgWriteKeepsTenBits : Obligations.CfgWriteKeepsTenBits :=
  fun _ x _ h => ⟨_, step_writeReg (r := .cfg) h (by decide), rfl, Cfg.word_ofWord_toNat x⟩

/-- Settles O53: a host write changes `K` only at `K0..K3`, a command only if it is `KEYNORM` or `CLR`. -/
theorem keyWritersAreListed : Obligations.KeyWritersAreListed := by
  intro s t hs hne
  obtain ⟨rest, hp | hp | ⟨hr, i, hi, hp⟩⟩ := step_writers Block.k (· ∈ [0x030, 0x034, 0x038, 0x03C])
    [.keynorm, .clr] (fun _ _ _ _ => rfl) off_of_writeLoc_k_ne (CommandResult.of_effect _ _).of_k_ne hs hne
  · exact ⟨rest, .inl hp⟩
  · exact ⟨rest, .inr (.inl hp)⟩
  · exact ⟨rest, .inr (.inr ⟨hr, encode i, List.mem_map_of_mem (f := encode) hi, hp⟩)⟩

/-- Settles O54: for each memory, a host write changes it only in its window, a command only if the rule lists it. -/
theorem memoryWritersAreListed : Obligations.MemoryWritersAreListed := by
  refine fun s t hs => ⟨fun hne => ?_, fun hne => ?_, fun hne => ?_⟩
  · simpa only [and_assoc] using step_writers Block.v (fun off => 0x1000 ≤ off ∧ off < 0x2000)
      [.pack, .deser, .xenc, .xdec, .clr] (fun _ _ _ _ => rfl) off_of_writeLoc_v_ne
      (CommandResult.of_effect _ _).of_v_ne hs hne
  · simpa only [and_assoc] using step_writers Block.b (fun off => 0x4000 ≤ off ∧ off < 0x8000)
      [.unpack, .ser, .b64d, .clr] (fun _ _ _ _ => rfl) off_of_writeLoc_b_ne
      (CommandResult.of_effect _ _).of_b_ne hs hne
  · exact step_writers Block.t (0x8000 ≤ ·) [.b64e, .clr] (fun _ _ _ _ => rfl)
      (fun hl h => (off_of_writeLoc_t_ne hl h).1) (CommandResult.of_effect _ _).of_t_ne hs hne

/-- Settles O51: each of the things a step can do to the block keeps its parts well formed. -/
theorem stepKeepsInvariant : Obligations.StepKeepsInvariant :=
  fun _ _ hs h => (Block.wf_iff _).2 (hs.parts.step h)

/-- Settles O55: the command's sources are the same on agreeing blocks, and so is its result; and a stored result stays
below the length it leaves behind. -/
theorem commandsSeeOnlyBelowLengths : Obligations.CommandsSeeOnlyBelowLengths := by
  refine ⟨fun i s s' hs hs' hag => ?_, fun i s t hs hi h => ?_⟩
  · have hag := (Block.agreesBelow_iff _ _).1 hag
    rcases ready_or_faulted s with hr | hf
    · have hr' : s'.Ready := (congrArg Status.err hag.status).symm.trans hr
      exact ⟨_, _, exec_ready hr i, exec_ready hr' i,
        (Block.agreesBelow_iff _ _).2 (hag.effect hs.parts hs'.parts i)⟩
    · have hf' : s'.Faulted := (congrArg Status.err hag.status).symm.trans hf
      exact ⟨_, _, exec_faulted hf i, exec_faulted hf' i, (Block.agreesBelow_iff _ _).2 hag⟩
  · obtain ⟨-, rfl⟩ | ⟨-, rfl⟩ := exec_cases h
    · exact ⟨fun _ _ => rfl, fun _ _ => rfl, fun _ _ => rfl⟩
    · exact (CommandResult.of_effect i s.block).cells_above hs.parts hi

end Sys2Proof.Machine

/-! The family 20_memory.md: byte order and group order, the address map, what a host read returns, what a host write
stores or ignores, and the accesses that have no step. -/

namespace Sys2Proof.Machine

/-! ### Words and groups as concatenations (20_memory.md R61, R62) -/

/-- The value of a concatenation: the left part stands above the right part. -/
theorem toNat_append_eq_add {m n : Nat} (x : BitVec m) (y : BitVec n) :
    (x ++ y).toNat = 2 ^ n * x.toNat + y.toNat := by
  rw [BitVec.toNat_append, ← Nat.shiftLeft_add_eq_or_of_lt y.isLt, Nat.shiftLeft_eq, Nat.mul_comm]

theorem wordOfBytes_eq_append (b0 b1 b2 b3 : Byte) : wordOfBytes b0 b1 b2 b3 = b3 ++ b2 ++ b1 ++ b0 := by
  refine BitVec.eq_of_getLsbD_eq fun i hi => ?_
  simp only [wordOfBytes, BitVec.getLsbD_append]
  interval_cases i <;> simp

theorem groupOfBytes_eq_append (b0 b1 b2 : Byte) : groupOfBytes b0 b1 b2 = b0 ++ b1 ++ b2 := by
  refine BitVec.eq_of_getLsbD_eq fun i hi => ?_
  simp only [groupOfBytes, BitVec.getLsbD_append]
  interval_cases i <;> simp

theorem groupOfValues_eq_append (s0 s1 s2 s3 : BitVec 6) : groupOfValues s0 s1 s2 s3 = s0 ++ s1 ++ s2 ++ s3 := by
  refine BitVec.eq_of_getLsbD_eq fun i hi => ?_
  simp only [groupOfValues, BitVec.getLsbD_append]
  interval_cases i <;> simp

/-! ### The address map (20_memory.md R66) -/

/-- Everything an offset that is a multiple of 4 can land at, with the offset of each. -/
theorem locate_cases {off : Nat} {l : Loc} (h4 : off % 4 = 0) (h : locate off = some l) :
    (∃ r, l = .reg r ∧ off = r.offset) ∨ (∃ i, l = .vCell i ∧ i < 1024 ∧ off = 0x1000 + 4 * i) ∨
      (∃ i, l = .bCell i ∧ i < 4096 ∧ off = 0x4000 + 4 * i) ∨
      (∃ i, l = .tCell i ∧ i < 8192 ∧ off = 0x8000 + 4 * i) := by
  obtain hr | ⟨_, -, hge, hlt⟩ | ⟨_, -, hge, hlt⟩ | ⟨_, -, hge, hlt⟩ := locate_some h
  · exact .inl hr
  · exact .inr (.inl ⟨_, Option.some.inj (h.symm.trans (locate_v hge hlt)), by omega, by omega⟩)
  · exact .inr (.inr (.inl ⟨_, Option.some.inj (h.symm.trans (locate_b hge hlt)), by omega, by omega⟩))
  · exact .inr (.inr (.inr ⟨_, Option.some.inj (h.symm.trans (locate_t hge hlt)), by omega, by omega⟩))

/-- An offset that is a multiple of 4 is the offset of the location it lands at. -/
theorem offset_of_locate {off : Nat} {l : Loc} (h4 : off % 4 = 0) (h : locate off = some l) : l.offset = off := by
  obtain ⟨_, rfl, rfl⟩ | ⟨_, rfl, -, rfl⟩ | ⟨_, rfl, -, rfl⟩ | ⟨_, rfl, -, rfl⟩ := locate_cases h4 h <;> rfl

/-- Below the `V` window only the registers' own offsets are not reserved (10_state.md R29). -/
theorem locate_reserved {off : Nat} (hlt : off < 0x1000) (hr : ∀ r : Reg, r.offset ≠ off) : locate off = none := by
  cases hl : locate off with
  | none => rfl
  | some l =>
    obtain ⟨r, -, rfl⟩ | ⟨_, -, hge, -⟩ | ⟨_, -, hge, -⟩ | ⟨_, -, hge, -⟩ := locate_some hl
    · exact absurd rfl (hr r)
    all_goals omega

/-- The access at the offset of a location is one of the interface. -/
theorem accessRefusal_offset {l : Loc} (h : locate l.offset = some l) : accessRefusal l.offset 4 = none := by
  obtain ⟨r, rfl, -⟩ | ⟨i, rfl, -, hlt⟩ | ⟨i, rfl, -, hlt⟩ | ⟨i, rfl, -, hlt⟩ := locate_some h
  · cases r <;> rfl
  all_goals
    simp only [Loc.offset] at hlt ⊢
    exact accessRefusal_none.2 ⟨rfl, by omega, by omega⟩

/-! ### Accesses without a step (20_memory.md R64) -/

/-- A read or a write that the access check refuses stops the step with the check's reason. -/
theorem step_refused {s : State} {off bytes : Nat} {x : Word} {rest : List HostAccess} {r : Refusal}
    (h : s.pending = .read off bytes :: rest ∨ s.pending = .write off bytes x :: rest)
    (hr : accessRefusal off bytes = some r) : step s = .refused r := by
  obtain h | h := h <;> rw [step_cons h] <;> simp [runAccess, hr]

/-! ### Host reads (20_memory.md R68) -/

theorem memRead_reg (b : Block) (r : Reg) : memRead b r.offset = readReg b r := by rw [memRead, locate_reg]; rfl

theorem memRead_vCell (b : Block) {i : Nat} (hi : i < 1024) :
    memRead b (0x1000 + 4 * i) = if i < b.params.nmax then b.v.read i else 0 := by rw [memRead, locate_vCell hi]; rfl

theorem memRead_bCell (b : Block) {i : Nat} (hi : i < 4096) :
    memRead b (0x4000 + 4 * i) = if i < b.params.bmax then (b.b.read i).setWidth 32 else 0 := by
  rw [memRead, locate_bCell hi]; rfl

theorem memRead_tCell (b : Block) {i : Nat} (hi : i < 8192) :
    memRead b (0x8000 + 4 * i) = if i < b.params.tmax then (b.t.read i).setWidth 32 else 0 := by
  rw [memRead, locate_tCell hi]; rfl

theorem memRead_none (b : Block) {off : Nat} (h : locate off = none) : memRead b off = 0 := by rw [memRead, h]

/-- The value of a narrower value read through the window, where there is a cell. -/
theorem toNat_ite_setWidth {c : Prop} [Decidable c] (x : Byte) :
    (if c then x.setWidth 32 else 0 : Word).toNat = if c then x.toNat else 0 := by
  split
  · exact BitVec.toNat_setWidth_of_le (by decide)
  · rfl

/-- `CFG` as a number: its three fields at bits 7:0, 8 and 9 (10_state.md R27). -/
theorem Cfg.word_toNat (c : Cfg) : c.word.toNat =
    c.roundsBase.toNat + (if c.alph = .urlSafe then 0x100 else 0) + (if c.keychk then 0x200 else 0) := by
  obtain ⟨base, alph, chk⟩ := c
  rw [Cfg.word, BitVec.toNat_setWidth_of_le (by decide), toNat_append_eq_add, toNat_append_eq_add]
  cases alph <;> cases chk <;> simp [Alphabet.bit] <;> omega

/-- `STATUS` as a number: `ERR` at bit 0, `ECLASS` at bit 1 (10_state.md R30). -/
theorem Status.word_toNat (s : Status) :
    s.word.toNat = (if s.err then 1 else 0) + (if s.eclass then 2 else 0) := by
  obtain ⟨err, eclass⟩ := s
  cases err <;> cases eclass <;> rfl

/-! ### Host writes (20_memory.md R69) -/

/-- The step on a host write of a location that is not `CMD`. -/
theorem step_writeLoc {s : State} {l : Loc} {x : Word} {rest : List HostAccess}
    (h : s.pending = .write l.offset 4 x :: rest) (hl : locate l.offset = some l) (hc : l ≠ .reg .cmd) :
    step s = .next { s with pending := rest, block := writeLoc s.block x l } := by
  obtain ⟨-, h4, hle⟩ := accessRefusal_none.1 (accessRefusal_offset hl)
  exact step_wrAccess h hl hc h4 hle

/-- A host write that lands nowhere, or where it stores nothing, only consumes the access. -/
theorem step_write_ignored {s : State} {off : Nat} {x : Word} {rest : List HostAccess}
    (h : s.pending = .write off 4 x :: rest) (h4 : off % 4 = 0) (hle : off ≤ 0xFFFC)
    (hl : ∀ l, locate off = some l → l ≠ .reg .cmd ∧ writeLoc s.block x l = s.block) :
    step s = .next { s with pending := rest } := by
  cases hc : locate off with
  | none => rw [step_write h h4 hle, memWrite, hc]
  | some l =>
    obtain ⟨hcmd, hkeep⟩ := hl l hc
    obtain rfl := offset_of_locate h4 hc
    rw [step_writeLoc h hc hcmd, hkeep]

/-- The step on a host write of a cell of `V` below the capacity. -/
theorem step_writeVCell {s : State} {i : Nat} {x : Word} {rest : List HostAccess}
    (h : s.pending = .write (0x1000 + 4 * i) 4 x :: rest) (hw : i < 1024) (hi : i < s.block.params.nmax) :
    step s = .next { s with pending := rest, block := { s.block with v := s.block.v.write i x } } := by
  rw [step_writeLoc (l := .vCell i) h (locate_vCell hw) nofun, writeLoc, if_pos hi]

/-- The step on a host write of a cell of `B` below the capacity. -/
theorem step_writeBCell {s : State} {i : Nat} {x : Word} {rest : List HostAccess}
    (h : s.pending = .write (0x4000 + 4 * i) 4 x :: rest) (hw : i < 4096) (hi : i < s.block.params.bmax) :
    step s = .next { s with pending := rest, block := { s.block with b := s.block.b.write i (x.setWidth 8) } } := by
  rw [step_writeLoc (l := .bCell i) h (locate_bCell hw) nofun, writeLoc, if_pos hi]

/-- The step on a host write of a cell of `T` below the capacity. -/
theorem step_writeTCell {s : State} {i : Nat} {x : Word} {rest : List HostAccess}
    (h : s.pending = .write (0x8000 + 4 * i) 4 x :: rest) (hw : i < 8192) (hi : i < s.block.params.tmax) :
    step s = .next { s with pending := rest, block := { s.block with t := s.block.t.write i (x.setWidth 8) } } := by
  rw [step_writeLoc (l := .tCell i) h (locate_tCell hw) nofun, writeLoc, if_pos hi]

theorem read_write_same {width cap i : Nat} {m : Memory width} (h : m.wf cap = true) (x : BitVec width) :
    (m.write i x).read i = x := by rw [read_write h, if_pos rfl]

theorem read_write_ne {width cap i j : Nat} {m : Memory width} (h : m.wf cap = true) (x : BitVec width) (hj : j ≠ i) :
    (m.write i x).read j = m.read j := by rw [read_write h, if_neg hj]

/-! ### Progress -/

/-- A write to `CMD` always completes (70_reset_and_hazards.md R264). -/
theorem writeCmd_completes (s : State) (w : Word) : ∃ t, writeCmd s w = .next t := by
  unfold writeCmd
  split
  · exact ⟨_, rfl⟩
  · next hr =>
    split
    · next i _ => exact ⟨_, exec_ready (by simpa using hr) i⟩
    · exact ⟨_, rfl⟩

/-- A host write of the interface always completes (60_exceptions.md R235). -/
theorem memWrite_completes (s : State) (off : Nat) (x : Word) : ∃ t, memWrite s off x = .next t := by
  unfold memWrite
  split
  · exact writeCmd_completes s x
  · exact ⟨_, rfl⟩
  · exact ⟨_, rfl⟩

theorem runAccess_completes {a : HostAccess} (h : a.inInterface = true) (s : State) :
    ∃ t, runAccess a s = .next t := by
  cases a with
  | read off bytes => exact ⟨_, by rw [runAccess, Option.isNone_iff_eq_none.1 h]⟩
  | write off bytes x =>
    rw [runAccess, Option.isNone_iff_eq_none.1 h]
    exact memWrite_completes s off x
  | reset => exact ⟨_, rfl⟩

/-- The step completes when the next access, if there is one, is of the interface. -/
theorem step_completes {s : State} (h : ∀ a ∈ s.pending, a.inInterface = true) : ∃ t, step s = .next t := by
  cases hp : s.pending with
  | nil => exact ⟨s, by rw [step, advance, hp]⟩
  | cons a rest =>
    rw [step_cons hp]
    exact runAccess_completes (h a (by simp [hp])) _

/-- A step consumes the oldest pending access and no other. -/
theorem pending_of_step {s t : State} (h : step s = .next t) : t.pending = s.pending.tail := by
  obtain ⟨hp, rfl⟩ | ⟨_, _, hp, -, -, rfl⟩ | ⟨_, hp, rfl⟩ | ⟨w, _, hp, hw⟩ | ⟨_, _, _, _, hp, -, -, rfl⟩ |
    ⟨_, _, _, hp, -, rfl⟩ := step_cases h <;> rw [hp]
  case inr.inr.inr.inl =>
    obtain ⟨-, rfl⟩ | ⟨-, _, -, rfl⟩ | ⟨-, -, rfl⟩ := writeCmd_cases hw <;> rfl
  all_goals rfl

/-! ### The obligations -/

/-- Settles O52: an access of the interface completes, its step keeps the block well formed, and the accesses still to
come were pending before. -/
theorem safeStatesStep : Obligations.SafeStatesStep := by
  rintro s ⟨hinv, hsafe⟩
  have hall := List.all_eq_true.1 hsafe
  obtain ⟨t, ht⟩ := step_completes hall
  refine ⟨t, ht, (Block.wf_iff _).2 (hinv.parts.step ht), List.all_eq_true.2 fun a ha => hall a ?_⟩
  exact List.mem_of_mem_tail (pending_of_step ht ▸ ha)

/-- Settles O35: what stands at each location, and for the fields and bytes its value as a number. -/
theorem readsReturnTheCells : Obligations.ReadsReturnTheCells := by
  intro b hp
  simp only [Block.WfParams, Config.Params.wellFormed, Bool.and_eq_true, decide_eq_true_iff] at hp
  refine ⟨memRead_reg b .id, ?cfg, memRead_reg b .cmd, ?status, ?errCode, memRead_reg b .errInfo, memRead_reg b .errCmd,
    memRead_reg b .n, memRead_reg b .blen, memRead_reg b .tlen, memRead_reg b .k0, memRead_reg b .k1, memRead_reg b .k2,
    memRead_reg b .k3, ?nmax, ?reserved, fun i hi => memRead_vCell b hi,
    fun off hge hlt => memRead_none b (locate_gap hge hlt), ?bCell, ?tCell⟩
  case cfg => exact (congrArg BitVec.toNat (memRead_reg b .cfg)).trans (Cfg.word_toNat _)
  case status => exact (congrArg BitVec.toNat (memRead_reg b .status)).trans (Status.word_toNat _)
  case errCode =>
    exact (congrArg BitVec.toNat (memRead_reg b .errCode)).trans (BitVec.toNat_setWidth_of_le (by decide))
  case nmax =>
    exact (congrArg BitVec.toNat (memRead_reg b .nmax)).trans (toNat_ofNat_of_le hp.2 (by decide))
  case reserved =>
    intro off hlt _ hoff
    exact memRead_none b (locate_reserved hlt fun r => by cases r <;> simp only [Reg.offset] <;> omega)
  case bCell => exact fun i hi => by rw [memRead_bCell b hi, toNat_ite_setWidth]
  case tCell => exact fun i hi => by rw [memRead_tCell b hi, toNat_ite_setWidth]

/-- Settles O9: a word is the concatenation of its bytes, the first one lowest. -/
theorem wordsAreLittleEndian : Obligations.WordsAreLittleEndian := by
  refine ⟨fun b0 b1 b2 b3 => ?_, fun w j => ?_⟩
  · simp only [wordOfBytes_eq_append, toNat_append_eq_add]
    omega
  · rw [byteOfWord, BitVec.toNat_setWidth, BitVec.toNat_ushiftRight, Nat.shiftRight_eq_div_pow]

/-- Settles O19: a group is the concatenation of its bytes, or of its values, the first one on top. -/
theorem groupsAreMostSignificantFirst : Obligations.GroupsAreMostSignificantFirst := by
  refine ⟨fun b0 b1 b2 => ?_, fun g j hj => ?_, fun s0 s1 s2 s3 => ?_⟩
  · simp only [groupOfBytes_eq_append, toNat_append_eq_add]
    omega
  · rw [groupSlice, BitVec.extractLsb'_toNat, Nat.shiftRight_eq_div_pow]
    interval_cases j <;> rfl
  · simp only [groupOfValues_eq_append, toNat_append_eq_add]
    omega

/-- Settles O34: the step on a read leaves the block alone. -/
theorem readsHaveNoSideEffect : Obligations.ReadsHaveNoSideEffect := fun _ _ _ h4 hle h => step_read h h4 hle

/-- Settles O36: the step stores the cell, and the memories are read after the write. -/
theorem cellWritesStore : Obligations.CellWritesStore := by
  intro s i x rest hs
  have hb := hs.parts
  refine ⟨fun h hi => ?_, fun h hi => ?_, fun h hi => ?_⟩
  · exact ⟨_, step_writeVCell h (hi.trans_le hb.nmax_le) hi, rfl, read_write_same hb.v_wf _,
      fun _ hj => read_write_ne hb.v_wf _ hj⟩
  · exact ⟨_, step_writeBCell h (hi.trans_le hb.bmax_le) hi, rfl,
      (congrArg BitVec.toNat (read_write_same hb.b_wf _)).trans (BitVec.toNat_setWidth ..),
      fun _ hj => read_write_ne hb.b_wf _ hj⟩
  · exact ⟨_, step_writeTCell h (by have := hb.tmax_le; omega) hi, rfl,
      (congrArg BitVec.toNat (read_write_same hb.t_wf _)).trans (BitVec.toNat_setWidth ..),
      fun _ hj => read_write_ne hb.t_wf _ hj⟩

/-- Settles O37: a location at one of these offsets is a read-only register or a cell at or above its capacity. -/
theorem otherWritesAreIgnored : Obligations.OtherWritesAreIgnored := by
  intro s off x rest h h4 hle hoff
  refine step_write_ignored h h4 hle fun l hl => ?_
  simp only [List.mem_cons, List.not_mem_nil, or_false] at hoff
  obtain ⟨r, rfl, rfl⟩ | ⟨i, rfl, hi, rfl⟩ | ⟨i, rfl, hi, rfl⟩ | ⟨i, rfl, hi, rfl⟩ := locate_cases h4 hl
  · cases r with
    | id | errCode | errInfo | errCmd | nmax => exact ⟨by simp, rfl⟩
    | _ => simp only [Reg.offset] at hoff; omega
  · exact ⟨nofun, if_neg (by omega)⟩
  · exact ⟨nofun, if_neg (by omega)⟩
  · exact ⟨nofun, if_neg (by omega)⟩

/-- Settles O40, by what a host write of each key word stores. -/
theorem keyWritesBypassTheCheck : Obligations.KeyWritesBypassTheCheck :=
  fun _ _ _ => ⟨fun h => step_writeReg (r := .k0) h (by decide), fun h => step_writeReg (r := .k1) h (by decide),
    fun h => step_writeReg (r := .k2) h (by decide), fun h => step_writeReg (r := .k3) h (by decide)⟩

/-- Settles O41: the access check gives the reason, and the step stops with it. -/
theorem outsideAccessesAreRefused : Obligations.OutsideAccessesAreRefused := by
  refine fun s off bytes x rest h => ⟨fun hw => ?_, fun hw ha => ?_, fun hw ha ho => ?_⟩ <;> refine step_refused h ?_
  · rw [accessRefusal, if_pos hw]
  · rw [accessRefusal, if_neg (not_not.2 hw), if_pos ha]
  · rw [accessRefusal, if_neg (not_not.2 hw), if_neg (not_not.2 ha), if_pos ho]

/-- Settles O42: each offset lands at its register or cell, and such an access is one of the interface. -/
theorem offsetsLocateTheirCells : Obligations.OffsetsLocateTheirCells :=
  ⟨fun r => ⟨locate_reg r, accessRefusal_offset (l := .reg r) (locate_reg r)⟩,
    fun i hi => ⟨locate_vCell hi, accessRefusal_offset (l := .vCell i) (locate_vCell hi)⟩,
    fun i hi => ⟨locate_bCell hi, accessRefusal_offset (l := .bCell i) (locate_bCell hi)⟩,
    fun i hi => ⟨locate_tCell hi, accessRefusal_offset (l := .tCell i) (locate_tCell hi)⟩⟩

end Sys2Proof.Machine

/-! The family 30_encoding.md: the opcode map both ways, the step on a command word, and the accesses that the load
directives expand to. -/

namespace Sys2Proof.Machine

/-! ### The opcode map (30_encoding.md R91) -/

@[simp] theorem decode_encode (i : Instr) : decode (encode i) = .ok i := by cases i <;> rfl

theorem decode_eq_ok_iff {w : Word} {i : Instr} : decode w = .ok i ↔ w = encode i :=
  ⟨eq_encode_of_decode, fun h => h ▸ decode_encode i⟩

theorem decode_of_decodeTableWord {nbits w : Nat} {i : Instr} (h : decodeTableWord nbits w = some i) :
    decode (tableWord nbits w) = .ok i := by
  unfold decodeTableWord at h
  split at h
  · split at h
    · next hd => rw [hd, Option.some.inj h]
    · cases h
  · cases h

/-! ### The step on a command word (30_encoding.md R100) -/

/-- A write of a command word is the command also while FAULTED, where both are dropped. -/
theorem writeCmd_of_decode {w : Word} {i : Instr} (h : decode w = .ok i) (s : State) : writeCmd s w = exec i s := by
  unfold writeCmd
  split
  · next hf => exact (exec_faulted hf i).symm
  · rw [h]

theorem step_of_decode {s : State} {w : Word} {i : Instr} {rest : List HostAccess}
    (hp : s.pending = .write 0x008 4 w :: rest) (h : decode w = .ok i) : step s = exec i { s with pending := rest } :=
  (step_cmd hp).trans (writeCmd_of_decode h _)

/-! ### Runs of the load directives (30_encoding.md R97) -/

theorem run_succ {s t : State} (h : step s = .next t) (k : Nat) :
    Host.Core.run core (k + 1) s = Host.Core.run core k t := by
  rw [Nat.add_comm]
  exact run_add 1 k (run_one h)

/-- A host write of a length register takes a length within the capacity. -/
theorem writeLength_of_le {cap k : Nat} (old : Word) (h : k ≤ cap) (hc : cap ≤ 5464) :
    writeLength cap old (BitVec.ofNat 32 k) = BitVec.ofNat 32 k := by
  rw [writeLength, if_pos (by rwa [toNat_ofNat_of_le h hc])]

section

/-! One of the block's buffers, as the host sees it: `put m` is the block with the buffer's memory at `m`, `word x` the
value a host writes for `x`, and `hstep` says that the write of a cell below the capacity stores it. -/

variable {width cap : Nat} {cell : Nat → Loc} {word : BitVec width → Word} {put : Memory width → Block} {s : State}
  (hstep : ∀ (m : Memory width) (x : BitVec width) (rest : List HostAccess), ∀ i < cap,
    step { s with pending := wrAccess (cell i) (word x) :: rest, block := put m } =
      .next { s with pending := rest, block := put (m.write i x) })

include hstep

/-- The writes of a buffer's cells, one step each, fill the buffer. -/
theorem run_wrCells {xs : List (BitVec width)} {i : Nat} (hi : i + xs.length ≤ cap) (m : Memory width)
    (rest : List HostAccess) :
    Host.Core.run core xs.length { s with pending := wrCells cell i (xs.map word) ++ rest, block := put m } =
      .next { s with pending := rest, block := put (m.fill i xs) } := by
  induction xs generalizing i m with
  | nil => rfl
  | cons x xs ih =>
    rw [List.length_cons] at hi
    exact (run_succ (hstep m x _ i (by omega)) _).trans (ih (by omega) _)

/-- The writes of a buffer's cells and then of its length register. -/
theorem run_load {xs : List (BitVec width)} {ws : List Word} {m : Memory width} {r : Reg} {k : Word}
    {rest : List HostAccess} (hm : put m = s.block) (hws : xs.map word = ws) (hfit : xs.length ≤ cap) (hr : r ≠ .cmd)
    (hp : s.pending = wrCells cell 0 ws ++ [wrAccess (.reg r) k] ++ rest) :
    Host.Core.run core (wrCells cell 0 ws ++ [wrAccess (.reg r) k]).length s =
      .next { s with pending := rest, block := writeReg (put (m.fill 0 xs)) k r } := by
  subst hws
  rw [List.append_assoc] at hp
  have hcells := run_wrCells hstep (xs := xs) (i := 0) (by omega) m ([wrAccess (.reg r) k] ++ rest)
  rw [← hp, hm] at hcells
  rw [List.length_append, wrCells_length, List.length_map, run_add _ _ hcells]
  exact run_one (step_writeReg rfl hr)

end

/-- A byte survives the 32-bit write that carries it. -/
theorem setWidth_setWidth_byte (x : Byte) : (x.setWidth 32).setWidth 8 = x := by
  rw [BitVec.setWidth_setWidth_of_le _ (by decide), BitVec.setWidth_eq]

/-- `.bytes` stores its data in `B[0..BLEN)` and changes nothing else of the block. -/
theorem run_bytes {s : State} {x : List Byte} {rest : List HostAccess} (hb : s.block.WfParts)
    (hfit : x.length ≤ s.block.params.bmax) (hp : s.pending = (Stmt.bytes x).accesses ++ rest) :
    Host.Core.run core (Stmt.bytes x).accesses.length s = .next { s with
      pending := rest, block := { s.block with b := s.block.b.fill 0 x, blen := BitVec.ofNat 32 x.length } } := by
  refine (run_load (put := fun m => { s.block with b := m }) (m := s.block.b) (r := .blen) (fun _ c _ i hi => ?_) rfl rfl
    hfit nofun hp).trans ?_
  · exact Eq.trans (step_writeBCell rfl (hi.trans_le hb.bmax_le) hi) (by rw [setWidth_setWidth_byte c])
  · simp only [writeReg, writeLength_of_le _ hfit (hb.bmax_le.trans (by decide))]

/-- `.text` stores its data in `T[0..TLEN)` and changes nothing else of the block. -/
theorem run_text {s : State} {x : List Byte} {rest : List HostAccess} (hb : s.block.WfParts)
    (hfit : x.length ≤ s.block.params.tmax) (hp : s.pending = (Stmt.text x).accesses ++ rest) :
    Host.Core.run core (Stmt.text x).accesses.length s = .next { s with
      pending := rest, block := { s.block with t := s.block.t.fill 0 x, tlen := BitVec.ofNat 32 x.length } } := by
  refine (run_load (put := fun m => { s.block with t := m }) (m := s.block.t) (r := .tlen) (fun _ c _ i hi => ?_) rfl rfl
    hfit nofun hp).trans ?_
  · exact Eq.trans (step_writeTCell rfl (by have := hb.tmax_le; omega) hi) (by rw [setWidth_setWidth_byte c])
  · simp only [writeReg, writeLength_of_le _ hfit hb.tmax_le]

/-- `.words` stores its data in `V[0..N)` and changes nothing else of the block. -/
theorem run_words {s : State} {x : List Word} {rest : List HostAccess} (hb : s.block.WfParts)
    (hfit : x.length ≤ s.block.params.nmax) (hp : s.pending = (Stmt.words x).accesses ++ rest) :
    Host.Core.run core (Stmt.words x).accesses.length s = .next { s with
      pending := rest, block := { s.block with v := s.block.v.fill 0 x, n := BitVec.ofNat 32 x.length } } := by
  refine (run_load (put := fun m => { s.block with v := m }) (m := s.block.v) (r := .n) (fun _ c _ i hi => ?_) rfl
    (List.map_id x) hfit nofun hp).trans ?_
  · exact step_writeVCell rfl (hi.trans_le hb.nmax_le) hi
  · simp only [writeReg, writeLength_of_le _ hfit (hb.nmax_le.trans (by decide))]

/-- `.key` stores the four key words and changes nothing else of the block. -/
theorem run_key {s : State} {k : Key} {rest : List HostAccess} (hp : s.pending = (Stmt.key k).accesses ++ rest) :
    Host.Core.run core 4 s = .next { s with pending := rest, block := { s.block with k := k } } := by
  rw [run_succ (step_writeReg (r := .k0) hp nofun), run_succ (step_writeReg (r := .k1) rfl nofun),
    run_succ (step_writeReg (r := .k2) rfl nofun), run_succ (step_writeReg (r := .k3) rfl nofun)]
  rfl

/-- A cell at or above the length of a stored result is as it was. -/
theorem read_fill_of_length_le {width cap i : Nat} {m : Memory width} {xs : List (BitVec width)} (h : m.wf cap = true)
    (hfit : xs.length ≤ cap) (hi : xs.length ≤ i) : (m.fill 0 xs).read i = m.read i := by
  rw [read_fill_zero h hfit, if_neg (by omega)]

/-! ### The obligations -/

/-- Settles O46: the zero field and the rows of the map leave a command one word only. -/
theorem decodeIsExactlyTheTable : Obligations.DecodeIsExactlyTheTable := ⟨fun _ _ => decode_eq_ok_iff, rfl⟩

/-- Settles O57: a directive runs to the fill of its buffer, whose cells are known below and above the length. -/
theorem directivesLoadBuffers : Obligations.DirectivesLoadBuffers := by
  refine ⟨fun s x rest hs hfit hp => ?bytes, fun s x rest hs hfit hp => ?text, fun s x rest hs hfit hp => ?words,
    fun _ _ _ hp => run_key hp, fun _ _ => rfl⟩
  case bytes =>
    exact ⟨_, run_bytes hs.parts hfit hp, rfl, bytes_store _ hs.parts hfit,
      fun _ hi => read_fill_of_length_le hs.parts.b_wf hfit hi⟩
  case text =>
    exact ⟨_, run_text hs.parts hfit hp, rfl, text_store _ hs.parts hfit,
      fun _ hi => read_fill_of_length_le hs.parts.t_wf hfit hi⟩
  case words =>
    exact ⟨_, run_words hs.parts hfit hp, rfl, words_store _ hs.parts hfit,
      fun _ hi => read_fill_of_length_le hs.parts.v_wf hfit hi⟩

/-- Settles O47: the words of the map are the commands' encodings, and decoding inverts encoding. -/
theorem opcodeMapWords : Obligations.OpcodeMapWords := by
  obtain ⟨-, hwords⟩ := decodeIsExactlyTheTable
  rw [Obligations.OpcodeMapWords, ← hwords]
  simp only [List.map_cons, List.map_nil, decode_encode, Except.toOption]

/-- Settles O48: a word put with `withFetchWord` is the next write to `CMD`. -/
theorem stepRunsDecodedCommand : Obligations.StepRunsDecodedCommand :=
  ⟨fun _ _ _ _ hp h => step_of_decode hp h, fun _ _ _ h => step_of_decode rfl (decode_of_decodeTableWord h)⟩

end Sys2Proof.Machine

/-! The family 40_block_packer.md: what each of its four commands stores, and the laws between them. -/

namespace Sys2Proof.Machine

/-! ### A state with a result stored -/

/-- The state after a result that fits is stored in `V[0..N)` (10_state.md R38); `exec_pack` and `exec_deser` tie it to
the commands. -/
def State.putWords (s : State) (w : List Word) : State :=
  { s with block := { s.block with v := s.block.v.fill 0 w, n := BitVec.ofNat 32 w.length } }

/-- The state after a result that fits is stored in `B[0..BLEN)` (10_state.md R38); `exec_unpack` and `exec_ser` tie it
to the commands. -/
def State.putBytes (s : State) (x : List Byte) : State :=
  { s with block := { s.block with b := s.block.b.fill 0 x, blen := BitVec.ofNat 32 x.length } }

section

variable {s : State} {w : List Word} {i : Nat}

/-- The model's store of words that fit, by any command word. -/
theorem with_storeWords (cmd : Word) (hw : w.length ≤ s.block.params.nmax) :
    { s with block := storeWords cmd w s.block } = s.putWords w := by
  rw [storeWords_fits cmd hw, State.putWords]

theorem putWords_ready (hr : s.Ready) : (s.putWords w).Ready := hr

variable (hs : s.Inv) (hw : w.length ≤ s.block.params.nmax)

include hs hw

theorem putWords_n : (s.putWords w).block.n.toNat = w.length :=
  toNat_ofNat_of_le hw (hs.parts.nmax_le.trans (by decide))

theorem putWords_read_below (hi : i < w.length) : (s.putWords w).block.v.read i = w.getD i 0 :=
  read_fill_below hs.parts.v_wf hw (hi.trans_eq (putWords_n hs hw).symm)

theorem putWords_read_above (hi : w.length ≤ i) : (s.putWords w).block.v.read i = s.block.v.read i :=
  read_fill_of_length_le hs.parts.v_wf hw hi

theorem putWords_words : (s.putWords w).block.words = w := words_store _ hs.parts hw

theorem putWords_inv : (s.putWords w).Inv := by
  rw [← with_storeWords 0 hw]
  exact (Block.wf_iff _).2 (hs.parts.storeWords 0 hw)

end

/-- Storing the words that are there changes nothing. -/
theorem putWords_self {s : State} (hs : s.Inv) : s.putWords s.block.words = s := by
  rw [← with_storeWords 0 ((words_length _).trans_le hs.parts.n_le), storeWords_words 0 _ hs.parts]

section

variable {s : State} {x : List Byte} {j : Nat}

/-- The model's store of bytes that fit, by any command word. -/
theorem with_storeBytes (cmd : Word) (hx : x.length ≤ s.block.params.bmax) :
    { s with block := storeBytes cmd x s.block } = s.putBytes x := by
  rw [storeBytes_fits cmd hx, State.putBytes]

theorem putBytes_ready (hr : s.Ready) : (s.putBytes x).Ready := hr

variable (hs : s.Inv) (hx : x.length ≤ s.block.params.bmax)

include hs hx

theorem putBytes_blen : (s.putBytes x).block.blen.toNat = x.length :=
  toNat_ofNat_of_le hx (hs.parts.bmax_le.trans (by decide))

theorem putBytes_read_below (hj : j < x.length) : (s.putBytes x).block.b.read j = x.getD j 0 :=
  read_fill_below hs.parts.b_wf hx (hj.trans_eq (putBytes_blen hs hx).symm)

theorem putBytes_read_above (hj : x.length ≤ j) : (s.putBytes x).block.b.read j = s.block.b.read j :=
  read_fill_of_length_le hs.parts.b_wf hx hj

theorem putBytes_bytes : (s.putBytes x).block.bytes = x := bytes_store _ hs.parts hx

theorem putBytes_inv : (s.putBytes x).Inv := by
  rw [← with_storeBytes 0 hx]
  exact (Block.wf_iff _).2 (hs.parts.storeBytes 0 hx)

end

/-- Storing the bytes that are there changes nothing. -/
theorem putBytes_self {s : State} (hs : s.Inv) : s.putBytes s.block.bytes = s := by
  rw [← with_storeBytes 0 ((bytes_length _).trans_le hs.parts.blen_le), storeBytes_bytes 0 _ hs.parts]

/-! ### The four commands on a well-formed READY state -/

section

variable {s : State} (hs : s.Inv) (hr : s.Ready)

include hs hr

/-- `PACK` (40_block_packer.md R112). -/
theorem exec_pack : exec .pack s = .next (s.putWords (pack s.block.bytes)) := by
  rw [exec_ready hr, effect, with_storeWords _ (pack_fits hs.parts)]

/-- `UNPACK` (40_block_packer.md R114). -/
theorem exec_unpack : exec .unpack s = .next (s.putBytes (unpack s.block.words)) := by
  rw [exec_ready hr, effect, with_storeBytes _ (unpack_fits hs.parts)]

/-- `SER` (40_block_packer.md R116). -/
theorem exec_ser : exec .ser s = .next (s.putBytes (ser s.block.words)) := by
  rw [exec_ready hr, effect, with_storeBytes _ (ser_fits hs.parts)]

/-- `DESER` of a whole number of words (40_block_packer.md R118). -/
theorem exec_deser (h4 : s.block.blen.toNat % 4 = 0) : exec .deser s = .next (s.putWords (deser s.block.bytes)) := by
  rw [exec_ready hr, effect, if_neg (not_not_intro h4), with_storeWords _ (deser_fits hs.parts)]

/-! When `B` holds the expanded `V`, `SER` and `DESER` have nothing to change. -/

theorem exec_ser_of_bytes_eq_ser (h : s.block.bytes = ser s.block.words) : exec .ser s = .next s := by
  rw [exec_ser hs hr, ← h, putBytes_self hs]

theorem exec_deser_of_bytes_eq_ser (h : s.block.bytes = ser s.block.words) : exec .deser s = .next s := by
  have hlen : s.block.blen.toNat = 4 * s.block.words.length := by rw [← bytes_length, h, ser_length]
  rw [exec_deser hs hr (by omega), h, deser, groupWords_ser, putWords_self hs]

end

/-- `DESER` of bytes that make no whole number of words (40_block_packer.md R118, R227). -/
theorem exec_deser_wordLength {s : State} (hr : s.Ready) (h4 : s.block.blen.toNat % 4 ≠ 0) :
    exec .deser s = .next { s with block := raiseFault .wordLength s.block.blen (encode .deser) s.block } := by
  rw [exec_ready hr, effect, if_pos h4]

/-! ### The pure functions -/

@[simp] theorem deser_length (x : List Byte) : (deser x).length = x.length / 4 := groupWords_length x

/-- The bytes before the cut are those of the words, and none of them is the sentinel (40_block_packer.md R111). -/
theorem unpack_getD {w : List Word} {j : Nat} (h : j < (unpack w).length) :
    (unpack w).getD j 0 = (ser w).getD j 0 ∧ (ser w).getD j 0 ≠ Config.padByte := by
  obtain ⟨heq, hne⟩ := takeWhile_getD h
  exact ⟨heq, of_decide_eq_true hne⟩

/-- A cut before the end is at a sentinel (40_block_packer.md R111). -/
theorem ser_getD_unpack_length {w : List Word} (h : (unpack w).length < 4 * w.length) :
    (ser w).getD (unpack w).length 0 = Config.padByte :=
  have hcut : (unpack w).length < (ser w).length := h.trans_eq (ser_length w).symm
  not_not.1 (of_decide_eq_false (takeWhile_stop (p := fun c => decide (c ≠ Config.padByte)) hcut))

/-- The empty sequence packs to one zero word, which holds no sentinel (40_block_packer.md R113). -/
theorem unpack_pack_nil : unpack (pack []) = [0x00#8, 0x00#8, 0x00#8, 0x00#8] := by decide

/-- Packing loses nothing exactly when there is a byte and no sentinel (40_block_packer.md R113). -/
theorem unpack_pack_eq_self_iff (x : List Byte) : unpack (pack x) = x ↔ x ≠ [] ∧ 0x03#8 ∉ x := by
  by_cases hne : x = []
  · subst hne; simp [unpack_pack_nil]
  · rw [unpack_pack hne, takeWhile_eq_self, and_iff_right hne]

/-! ### The obligations -/

/-- Settles O3: the words stored are those of the padded bytes. -/
theorem packWritesPaddedWords : Obligations.PackWritesPaddedWords := by
  refine ⟨decode_encode .pack, fun s hs hr => ⟨_, exec_pack hs hr, rfl, ?_⟩⟩
  have hfit := pack_fits hs.parts
  rw [putWords_n hs hfit]
  refine ⟨?length, fun i hi => ?below, fun i hi => putWords_read_above hs hfit hi⟩
  case length => rw [pack_length, bytes_length]
  case below => rw [putWords_read_below hs hfit hi, packedWord_eq]

/-- Settles O4: the bytes stored are those of the words before the first sentinel. -/
theorem unpackCutsAtFirstSentinel : Obligations.UnpackCutsAtFirstSentinel := by
  refine ⟨decode_encode .unpack, fun s hs hr => ⟨_, exec_unpack hs hr, rfl, ?_⟩⟩
  have hfit := unpack_fits hs.parts
  have hle : (unpack s.block.words).length ≤ 4 * s.block.n.toNat := words_length s.block ▸ unpack_length_le _
  rw [putBytes_blen hs hfit]
  refine ⟨hle, fun j hj => ?below, fun hlt => ?stop, fun j hj => putBytes_read_above hs hfit hj⟩
  case below =>
    rw [putBytes_read_below hs hfit hj, ← serialByte_eq _ (hj.trans_le hle)]
    exact unpack_getD hj
  case stop =>
    rw [← serialByte_eq _ hlt]
    exact ser_getD_unpack_length (by rwa [words_length])

/-- Settles O5: the bytes stored are those of the words. -/
theorem serExpandsEveryWord : Obligations.SerExpandsEveryWord := by
  refine ⟨decode_encode .ser, fun s hs hr => ⟨_, exec_ser hs hr, rfl, ?_⟩⟩
  have hfit := ser_fits hs.parts
  have hlen : (ser s.block.words).length = 4 * s.block.n.toNat := by simp
  rw [putBytes_blen hs hfit, ← hlen]
  refine ⟨rfl, fun j hj => ?below, fun j hj => putBytes_read_above hs hfit hj⟩
  case below => rw [putBytes_read_below hs hfit hj, serialByte_eq _ (hlen ▸ hj)]

/-- Settles O6: the words stored are the groups of four bytes, or the fault is raised. -/
theorem deserGroupsWholeWords : Obligations.DeserGroupsWholeWords := by
  refine ⟨decode_encode .deser, fun s hs hr h4 => ⟨_, exec_deser hs hr h4, rfl, ?_⟩,
    fun s hr h4 => exec_deser_wordLength hr h4⟩
  have hfit := deser_fits hs.parts
  have hlen : (deser s.block.bytes).length = s.block.blen.toNat / 4 := by simp
  rw [putWords_n hs hfit, hlen]
  refine ⟨rfl, fun i hi => ?below, fun i hi => putWords_read_above hs hfit (hlen ▸ hi)⟩
  case below => rw [putWords_read_below hs hfit (hlen ▸ hi), deser_getD _ hi]

/-- Settles O7: the second command stores what its destination already holds. -/
theorem serAndDeserAreInverse : Obligations.SerAndDeserAreInverse := by
  refine ⟨fun x h4 => ⟨deser_length x, ser_groupWords x h4, fun hne => ?pack, fun i hi => groupWords_getD x hi⟩,
    groupWords_ser, fun s hs hr => ⟨?serDeser, fun h4 => ?deserSer, fun h4 hne => ?deserPack⟩⟩
  case pack => exact (pack_eq_deser (List.length_pos_iff.1 (Nat.pos_of_ne_zero hne)) h4).symm
  case serDeser =>
    have hfit := ser_fits hs.parts
    exact ⟨_, exec_ser hs hr,
      exec_deser_of_bytes_eq_ser (putBytes_inv hs hfit) (putBytes_ready hr) (putBytes_bytes hs hfit)⟩
  case deserSer =>
    have hfit := deser_fits hs.parts
    have hser : s.block.bytes = ser (s.putWords (deser s.block.bytes)).block.words := by
      rw [putWords_words hs hfit]
      exact (ser_groupWords _ (by rwa [bytes_length])).symm
    exact ⟨_, exec_deser hs hr h4, exec_ser_of_bytes_eq_ser (putWords_inv hs hfit) (putWords_ready hr) hser⟩
  case deserPack =>
    have hpack : pack s.block.bytes = deser s.block.bytes :=
      pack_eq_deser (mt bytes_eq_nil.1 hne) (by rwa [bytes_length])
    rw [exec_deser hs hr h4, exec_pack hs hr, hpack]

/-- Settles O8: the laws of `unpack` after `pack`, and that the two commands leave that sequence in `B`. -/
theorem unpackInvertsPackExactly : Obligations.UnpackInvertsPackExactly := by
  refine ⟨fun x => ⟨unpack_pack_eq_self_iff x, unpack_pack, ?empty⟩, fun s hs hr => ?_⟩
  case empty => rintro rfl; exact ⟨pack_nil, unpack_pack_nil⟩
  have hfit := pack_fits hs.parts
  have hinv := putWords_inv hs hfit
  refine ⟨_, _, exec_pack hs hr, exec_unpack hinv (putWords_ready hr), ?_⟩
  rw [putBytes_bytes hinv (unpack_fits hinv.parts), putWords_words hs hfit]
  exact ⟨unpack_pack_eq_self_iff _, unpack_pack, fun h => h ▸ unpack_pack_nil⟩

end Sys2Proof.Machine

/-! The family 41_key_normalizer.md: the key `KEYNORM` loads, and the bytes it depends on. -/

namespace Sys2Proof.Machine

/-! ### The two outcomes of `KEYNORM` -/

/-- `KEYNORM` with the check off or a key that is not zero (41_key_normalizer.md R131). -/
theorem exec_keynorm {s : State} (hr : s.Ready) (hk : s.block.cfg.keychk = true → s.block.passwordKey ≠ Key.zero) :
    exec .keynorm s = .next { s with block := { s.block with k := s.block.passwordKey } } := by
  rw [exec_ready hr, effect, key_eq, if_neg (not_and.2 hk)]

/-- `KEYNORM` with the check on and a zero key (41_key_normalizer.md R131). -/
theorem exec_keynorm_emptyKey {s : State} (hr : s.Ready) (hc : s.block.cfg.keychk = true)
    (hz : s.block.passwordKey = Key.zero) :
    exec .keynorm s = .next { s with block := raiseFault .emptyKey s.block.blen (encode .keynorm) s.block } := by
  rw [exec_ready hr, effect, key_eq, if_pos ⟨hc, hz⟩]

/-! ### The bytes the key depends on -/

theorem paddedByte_of_lt {b : Block} {j : Nat} (h : j < b.blen.toNat) : b.paddedByte j = b.b.read j := if_pos h

/-- A packed word that needs no padding is made of bytes `4i .. 4i+3` of the buffer (40_block_packer.md R110). -/
theorem packedWord_of_le {b : Block} {i : Nat} (h : 4 * i + 4 ≤ b.blen.toNat) :
    b.packedWord i =
      wordOfBytes (b.b.read (4 * i)) (b.b.read (4 * i + 1)) (b.b.read (4 * i + 2)) (b.b.read (4 * i + 3)) := by
  rw [Block.packedWord, if_pos (by omega), paddedByte_of_lt (by omega), paddedByte_of_lt (by omega),
    paddedByte_of_lt (by omega), paddedByte_of_lt (by omega)]

/-- Buffers that both fill word `i` and agree on its bytes pack to the same word `i`. -/
theorem packedWord_congr {a b : Block} {i : Nat} (ha : 4 * i + 4 ≤ a.blen.toNat) (hb : 4 * i + 4 ≤ b.blen.toNat)
    (h : ∀ j < 4 * i + 4, a.b.read j = b.b.read j) : a.packedWord i = b.packedWord i := by
  rw [packedWord_of_le ha, packedWord_of_le hb, h _ (by omega), h _ (by omega), h _ (by omega), h _ (by omega)]

/-- From 16 bytes on a password's key is that of its first 16 bytes (41_key_normalizer.md R132). -/
theorem passwordKey_congr {a b : Block} (ha : 16 ≤ a.blen.toNat) (hb : 16 ≤ b.blen.toNat)
    (h : ∀ j < 16, a.b.read j = b.b.read j) : a.passwordKey = b.passwordKey := by
  have hword : ∀ i < 4, a.packedWord i = b.packedWord i := fun i hi =>
    packedWord_congr (by omega) (by omega) fun j hj => h j (by omega)
  rw [Block.passwordKey, Block.passwordKey, hword 0 (by decide), hword 1 (by decide), hword 2 (by decide),
    hword 3 (by decide)]

/-! ### The obligations -/

/-- Settles O10: the key words of the statement are those of the packed buffer. -/
theorem keynormLoadsFourWords : Obligations.KeynormLoadsFourWords :=
  ⟨decode_encode .keynorm, fun _ hr hk => exec_keynorm hr hk, fun _ hr hc hz => exec_keynorm_emptyKey hr hc hz⟩

/-- Settles O11: equal keys and equal `KEYCHK` send both states down the same branch of `KEYNORM`. -/
theorem keyIgnoresBytesFromSixteen : Obligations.KeyIgnoresBytesFromSixteen := by
  intro s s' hr hr' hlen hlen' hread hchk
  have hkey := passwordKey_congr hlen hlen' hread
  by_cases hempty : s.block.cfg.keychk = true ∧ s.block.passwordKey = Key.zero
  case pos =>
    obtain ⟨hc, hz⟩ := hempty
    exact ⟨_, _, exec_keynorm_emptyKey hr hc hz, exec_keynorm_emptyKey hr' (hchk ▸ hc) (hkey ▸ hz), rfl,
      fun hready => absurd hready (by simp)⟩
  case neg =>
    have hk := not_and.1 hempty
    exact ⟨_, _, exec_keynorm hr hk, exec_keynorm hr' (hchk ▸ hkey ▸ hk), hr.trans hr'.symm, fun _ => hkey⟩

end Sys2Proof.Machine

/-! The family 42_mixing_engine.md: the mixing function in numbers, the running sum, the round count, and what `XENC`
and `XDEC` store. -/

namespace Sys2Proof.Machine

/-! ### The mixing function in numbers -/

/-- `e` is bits 3:2 of the sum (42_mixing_engine.md R142). -/
theorem keyModifier_toNat (sum : Word) : (keyModifier sum).toNat = sum.toNat / 4 % 4 := by
  rw [keyModifier, BitVec.toNat_setWidth, BitVec.toNat_ushiftRight, Nat.shiftRight_eq_div_pow]

/-- A key word is selected by the number its two-bit index stands for. -/
theorem Key.word_eq_getD (k : Key) (i : BitVec 2) : k.word i = [k.k0, k.k1, k.k2, k.k3].getD i.toNat 0 := by
  have hi : i = 0 ∨ i = 1 ∨ i = 2 ∨ i = 3 := by revert i; decide
  obtain rfl | rfl | rfl | rfl := hi <;> rfl

/-- The two terms of `MX` are sums modulo 2^32 of shifted words, their wrap-around and zero fill written out
(42_mixing_engine.md R141). -/
theorem mx_toNat (sum y z : Word) (p : Nat) (e : BitVec 2) (k : Key) :
    (mx sum y z p e k).toNat =
      (((z.toNat / 2 ^ 5) ^^^ (y.toNat * 2 ^ 2 % 2 ^ 32)) + ((y.toNat / 2 ^ 3) ^^^ (z.toNat * 2 ^ 4 % 2 ^ 32))) %
        2 ^ 32 ^^^
      ((sum.toNat ^^^ y.toNat) + ([k.k0, k.k1, k.k2, k.k3].getD ((p % 4) ^^^ e.toNat) 0 ^^^ z).toNat) % 2 ^ 32 := by
  have hindex : (BitVec.ofNat 2 p ^^^ e).toNat = (p % 4) ^^^ e.toNat := by rw [BitVec.toNat_xor, BitVec.toNat_ofNat]
  simp only [mx, Key.word_eq_getD, hindex, BitVec.toNat_xor, BitVec.toNat_add, BitVec.toNat_shiftLeft,
    BitVec.toNat_ushiftRight, Nat.shiftRight_eq_div_pow, Nat.shiftLeft_eq]

/-! ### The running sum -/

/-- `DELTA` is odd, so it has an inverse modulo 2^32 (42_mixing_engine.md R144). -/
theorem isUnit_delta : IsUnit Config.delta :=
  IsUnit.of_mul_eq_one 0x144CBC89#32 (by decide)

/-- A multiple of `DELTA` is 0 only for a multiple of 2^32 (42_mixing_engine.md R144). -/
theorem ofNat_mul_delta_eq_zero_iff {q : Nat} (hq : q < 2 ^ 32) : BitVec.ofNat 32 q * Config.delta = 0 ↔ q = 0 := by
  rw [isUnit_delta.mul_left_eq_zero]
  constructor
  · intro h
    have hmod : q % 2 ^ 32 = 0 := by rw [← BitVec.toNat_ofNat, h]; rfl
    rwa [Nat.mod_eq_of_lt hq] at hmod
  · rintro rfl; rfl

theorem ofNat_succ_mul_delta (q : Nat) :
    BitVec.ofNat 32 (q + 1) * Config.delta = BitVec.ofNat 32 q * Config.delta + Config.delta := by
  rw [BitVec.ofNat_add, add_mul, ofNat_one_mul]

/-- Within a round of decode its `sum` stays. -/
theorem steps_decode_sum_inner (k : Key) {m : Nat} {r : EngineRegs} (hm : m ≤ r.p) :
    (EngineRegs.steps (EngineRegs.decodeNext k) m r).sum = r.sum := by
  induction m generalizing r with
  | zero => rfl
  | succ m ih =>
    have hp : r.p ≠ 0 := by omega
    rw [EngineRegs.steps, ih] <;> simp only [EngineRegs.decodeNext, if_neg hp]
    omega

/-- After `r` rounds of decode and some steps of the next one, `sum` is `r` decrements below its start. -/
theorem steps_decode_sum (k : Key) {n m : Nat} (hm : m < n) (r : Nat) :
    ∀ (v : List Word) (_ : v.length = n) (sum y z : Word) (q : Nat),
      (EngineRegs.steps (EngineRegs.decodeNext k) (r * n + m)
        { v := v, sum := sum, e := keyModifier sum, y := y, z := z, p := n - 1, q := q }).sum =
      sum - BitVec.ofNat 32 r * Config.delta := by
  induction r with
  | zero =>
    intro v hv sum y z q
    rw [Nat.zero_mul, Nat.zero_add, steps_decode_sum_inner k (by simp only; omega)]
    simp
  | succ r ih =>
    intro v hv sum y z q
    obtain ⟨z', hround⟩ := steps_decode_round k v (by omega) sum y z q
    rw [hv] at hround
    rw [show (r + 1) * n + m = n + (r * n + m) by ring, steps_add, hround, ih _ (by simpa using hv),
      ofNat_succ_mul_delta, sub_sub, add_comm Config.delta]

/-- After `r` rounds of encode and some steps of the next one, `sum` is `r` increments above its start. -/
theorem steps_encode_sum (k : Key) {n m : Nat} (hm : m < n) (r : Nat) :
    ∀ (v : List Word) (_ : v.length = n) (sum y z : Word) (q : Nat),
      (EngineRegs.steps (EngineRegs.encodeNext k) (r * n + m)
        { v := v, sum := sum, e := keyModifier sum, y := y, z := z, p := 0, q := q }).sum =
      sum + BitVec.ofNat 32 r * Config.delta := by
  induction r with
  | zero =>
    intro v hv sum y z q
    obtain ⟨y', hinner⟩ := steps_encode_inner k v sum (keyModifier sum) y z q (m := m) (by omega)
    rw [Nat.zero_mul, Nat.zero_add, hinner]
    simp
  | succ r ih =>
    intro v hv sum y z q
    obtain ⟨y', hround⟩ := steps_encode_round k v (by omega) sum y z q
    rw [hv] at hround
    rw [show (r + 1) * n + m = n + (r * n + m) by ring, steps_add, hround, ih _ (by simpa using hv),
      ofNat_succ_mul_delta, add_assoc, add_comm Config.delta]

/-- After `j` steps of decode, `n` to a round (42_mixing_engine.md R146, R152). -/
theorem steps_decodeStart_sum (k : Key) (base : BitVec 8) {v : List Word} (hv : 1 ≤ v.length) {j : Nat}
    (hj : j ≤ roundCount base v.length * v.length) :
    (EngineRegs.steps (EngineRegs.decodeNext k) j (EngineRegs.decodeStart v base)).sum =
      BitVec.ofNat 32 (roundCount base v.length - j / v.length) * Config.delta := by
  have hdone : j / v.length ≤ roundCount base v.length := Nat.div_le_of_le_mul (by rwa [mul_comm] at hj)
  have hsum := steps_decode_sum k (Nat.mod_lt j hv) (j / v.length) v rfl
    (BitVec.ofNat 32 (roundCount base v.length) * Config.delta) (wordAt v 0) 0 1
  rw [Nat.div_add_mod'] at hsum
  rw [EngineRegs.decodeStart, hsum, sub_eq_iff_eq_add, ← add_mul, ← BitVec.ofNat_add, Nat.sub_add_cancel hdone]

/-- After `j` steps of encode, `n` to a round (42_mixing_engine.md R145, R152). -/
theorem steps_encodeStart_sum (k : Key) {v : List Word} (hv : 1 ≤ v.length) (j : Nat) :
    (EngineRegs.steps (EngineRegs.encodeNext k) j (EngineRegs.encodeStart v)).sum =
      BitVec.ofNat 32 (j / v.length + 1) * Config.delta := by
  have hsum := steps_encode_sum k (Nat.mod_lt j hv) (j / v.length) v rfl Config.delta 0 (wordAt v (v.length - 1)) 1
  rw [Nat.div_add_mod'] at hsum
  rw [EngineRegs.encodeStart, hsum, ofNat_succ_mul_delta, add_comm]

/-! ### The round count -/

/-- The largest round count, at `ROUNDS_BASE` 255 and two words (42_mixing_engine.md R143). -/
theorem roundCount_le (base : BitVec 8) {n : Nat} (hn : 2 ≤ n) : roundCount base n ≤ 281 := by
  have hbase := base.isLt
  have hquot : 52 / n ≤ 52 / 2 := Nat.div_le_div_left hn (by decide)
  rw [roundCount, Config.roundsNum]
  omega

theorem roundCount_eq_zero {n : Nat} (hn : 53 ≤ n) : roundCount 0 n = 0 := by
  rw [roundCount, Config.roundsNum, Nat.div_eq_of_lt (by omega)]
  rfl

/-! With no round to do both transforms leave the sequence alone (42_mixing_engine.md R143). -/

theorem xxteaEncode_of_roundCount_eq_zero {v : List Word} {base : BitVec 8} (h : roundCount base v.length = 0)
    (k : Key) : xxteaEncode v k base = v := by rw [xxteaEncode, h, encodeRounds]

theorem xxteaDecode_of_roundCount_eq_zero {v : List Word} {base : BitVec 8} (h : roundCount base v.length = 0)
    (k : Key) : xxteaDecode v k base = v := by rw [xxteaDecode, h, decodeRounds]

/-! ### What the two commands store -/

theorem words_eq_nil_iff_n {b : Block} : b.words = [] ↔ b.n = 0 := words_eq_nil.trans (BitVec.toNat_inj (y := 0))

/-- The engine on a sequence that is not empty, the length-1 padding written as the zero words it appends
(42_mixing_engine.md R147). -/
theorem engine_of_ne_nil (dir : List Word → Key → BitVec 8 → List Word) {v : List Word} (h : v ≠ []) (k : Key)
    (base : BitVec 8) : engine dir v k base = dir (v ++ List.replicate (2 - v.length) 0) k base := by
  rw [engine, if_neg (mt List.length_eq_zero_iff.1 h), padSingle_eq h]

/-- The length of the padded sequence of `engine_of_ne_nil`. -/
theorem length_padded (b : Block) :
    (b.words ++ List.replicate (2 - b.n.toNat) (0 : Word)).length = max 2 b.n.toNat := by
  rw [List.length_append, List.length_replicate, words_length]
  omega

/-- The state after one direction of the engine has run on `V[0..N)`; `exec_xenc` and `exec_xdec` tie it to the
commands. -/
def State.runEngine (dir : List Word → Key → BitVec 8 → List Word) (s : State) : State :=
  s.putWords (engine dir s.block.words s.block.k s.block.cfg.roundsBase)

/-- `XENC` on a well-formed READY state (42_mixing_engine.md R148). -/
theorem exec_xenc {s : State} (hs : s.Inv) (hr : s.Ready) : exec .xenc s = .next (s.runEngine xxteaEncode) := by
  rw [exec_ready hr, effect, with_storeWords _ (xenc_fits hs.parts), State.runEngine]

/-- `XDEC` on a well-formed READY state (42_mixing_engine.md R149). -/
theorem exec_xdec {s : State} (hs : s.Inv) (hr : s.Ready) : exec .xdec s = .next (s.runEngine xxteaDecode) := by
  rw [exec_ready hr, effect, with_storeWords _ (xdec_fits hs.parts), State.runEngine]

section

variable {dir inv : List Word → Key → BitVec 8 → List Word} {s : State}

theorem runEngine_ready (hr : s.Ready) : (s.runEngine dir).Ready := hr

/-- A state that holds what the engine gives stays as it is. -/
theorem runEngine_of_engine_eq_self (hs : s.Inv)
    (h : engine dir s.block.words s.block.k s.block.cfg.roundsBase = s.block.words) : s.runEngine dir = s := by
  rw [State.runEngine, h, putWords_self hs]

theorem runEngine_of_n_eq_zero (hs : s.Inv) (hn : s.block.n = 0) : s.runEngine dir = s :=
  runEngine_of_engine_eq_self hs (by rw [words_eq_nil_iff_n.2 hn, engine_nil])

/-- On two words or more the engine is its direction alone. -/
theorem runEngine_of_dir_eq_self (hs : s.Inv) (hn : 2 ≤ s.block.n.toNat)
    (h : dir s.block.words s.block.k s.block.cfg.roundsBase = s.block.words) : s.runEngine dir = s :=
  runEngine_of_engine_eq_self hs (by rw [engine_of_two_le dir (by rwa [words_length]), h])

variable (hs : s.Inv) (hd : ∀ v k base, (dir v k base).length = v.length)

include hs hd

theorem engine_words_fits :
    (engine dir s.block.words s.block.k s.block.cfg.roundsBase).length ≤ s.block.params.nmax :=
  engine_length_le hd _ _ _ hs.parts.nmax_ge ((words_length _).trans_le hs.parts.n_le)

theorem runEngine_inv : (s.runEngine dir).Inv := putWords_inv hs (engine_words_fits hs hd)

theorem runEngine_words :
    (s.runEngine dir).block.words = engine dir s.block.words s.block.k s.block.cfg.roundsBase :=
  putWords_words hs (engine_words_fits hs hd)

theorem runEngine_n_of_ne_zero (hn : s.block.n ≠ 0) : (s.runEngine dir).block.n.toNat = max 2 s.block.n.toNat := by
  have hne : s.block.words.length ≠ 0 := mt List.length_eq_zero_iff.1 (mt words_eq_nil_iff_n.1 hn)
  rw [State.runEngine, putWords_n hs (engine_words_fits hs hd), engine_length hd, if_neg hne, words_length]

/-- The cells from the new `N` on are as they were (10_state.md R38). -/
theorem runEngine_read_above {i : Nat} (hi : (s.runEngine dir).block.n.toNat ≤ i) :
    (s.runEngine dir).block.v.read i = s.block.v.read i :=
  read_fill_above hs.parts.v_wf (engine_words_fits hs hd) (hs.parts.nmax_le.trans (by decide)) hi

/-- On a sequence that is not empty `V[0..N)` holds what the direction makes of it, a zero word put after a single one
(42_mixing_engine.md R147 to R149). -/
theorem runEngine_words_of_ne_zero (hn : s.block.n ≠ 0) : (s.runEngine dir).block.words =
    dir (s.block.words ++ List.replicate (2 - s.block.n.toNat) 0) s.block.k s.block.cfg.roundsBase := by
  rw [runEngine_words hs hd, engine_of_ne_nil dir (mt words_eq_nil_iff_n.1 hn), words_length]

end

/-! ### One direction of the engine after the other -/

/-- A store over a store of the same length. -/
theorem putWords_putWords {s : State} (hs : s.Inv) {w w' : List Word} (hw : w.length ≤ s.block.params.nmax)
    (h : w'.length = w.length) : (s.putWords w).putWords w' = s.putWords w' := by
  simp only [State.putWords, fill_fill hs.parts.v_wf hw h]

section

variable {dir inv : List Word → Key → BitVec 8 → List Word} {s : State} (hs : s.Inv)
  (hd : ∀ v k base, (dir v k base).length = v.length) (hi : ∀ v k base, (inv v k base).length = v.length)

include hs hd hi

theorem runEngine_runEngine : (s.runEngine dir).runEngine inv =
    s.putWords (engine inv (engine dir s.block.words s.block.k s.block.cfg.roundsBase) s.block.k
      s.block.cfg.roundsBase) := by
  have hlen : (engine inv (engine dir s.block.words s.block.k s.block.cfg.roundsBase) s.block.k
      s.block.cfg.roundsBase).length = (engine dir s.block.words s.block.k s.block.cfg.roundsBase).length := by
    rw [engine_length hi, engine_length hd]
    split_ifs <;> omega
  have hwords := runEngine_words hs hd
  rw [State.runEngine, hwords]
  exact putWords_putWords hs (engine_words_fits hs hd) hlen

/-- Inverse directions give the whole state back on two words or more (42_mixing_engine.md R150). -/
theorem runEngine_runEngine_eq_self (hn : 2 ≤ s.block.n.toNat)
    (hinv : ∀ v k base, 2 ≤ v.length → inv (dir v k base) k base = v) : (s.runEngine dir).runEngine inv = s := by
  have hv : 2 ≤ s.block.words.length := by rwa [words_length]
  rw [runEngine_runEngine hs hd hi, engine_of_two_le dir hv, engine_of_two_le inv (by rwa [hd]), hinv _ _ _ hv,
    putWords_self hs]

end

/-- `XENC`, then `XDEC`, stores the sequence, a zero word put after a single one (42_mixing_engine.md R147, R150). -/
theorem runEngine_decode_encode {s : State} (hs : s.Inv) :
    (s.runEngine xxteaEncode).runEngine xxteaDecode = s.putWords (padSingle s.block.words) := by
  rw [runEngine_runEngine hs xxteaEncode_length xxteaDecode_length, engine_decode_encode]

theorem words_of_n_eq_one {b : Block} (h : b.n = 1) : b.words = [b.v.read 0] := by
  rw [Block.words, h]; rfl

/-! ### The obligations -/

/-- Settles O12: `MX` and `e` are the shifts, exclusive ors and sums of the numbers. -/
theorem mixingFunctionWraps : Obligations.MixingFunctionWraps := ⟨keyModifier_toNat, mx_toNat⟩

/-- Settles O13: a round changes `sum` by `DELTA`, and `DELTA` is odd. -/
theorem runningSumNeverZeroEarly : Obligations.RunningSumNeverZeroEarly := by
  refine ⟨fun q hpos hlt => mt (ofNat_mul_delta_eq_zero_iff hlt).1 hpos.ne', fun v k base j hv hj => ?decode,
    fun v k j hv => steps_encodeStart_sum k (by omega) j⟩
  case decode =>
    have hsum := steps_decodeStart_sum k base (by omega) hj
    have hsmall : roundCount base v.length - j / v.length < 2 ^ 32 :=
      (Nat.sub_le ..).trans_lt ((roundCount_le base hv).trans_lt (by decide))
    refine ⟨hsum, ?_⟩
    rw [hsum, ofNat_mul_delta_eq_zero_iff hsmall, Nat.sub_eq_zero_iff_le, Nat.le_div_iff_mul_le (by omega)]
    exact ⟨fun hge => le_antisymm hj hge, fun heq => heq.ge⟩

/-- Settles O14: the count is bounded by its two terms, and where it is 0 both directions are the identity. -/
theorem roundCountTable : Obligations.RoundCountTable := by
  refine ⟨fun base n hn => ⟨rfl, roundCount_le base hn⟩, by decide, fun s hs hr hbase hn => ?_⟩
  have hnone : roundCount s.block.cfg.roundsBase s.block.words.length = 0 := by
    rw [hbase, words_length, roundCount_eq_zero hn]
  have hn2 : 2 ≤ s.block.n.toNat := by omega
  rw [exec_xenc hs hr, exec_xdec hs hr,
    runEngine_of_dir_eq_self hs hn2 (xxteaEncode_of_roundCount_eq_zero hnone _),
    runEngine_of_dir_eq_self hs hn2 (xxteaDecode_of_roundCount_eq_zero hnone _)]
  exact ⟨rfl, rfl⟩

/-- Settles O15: the words stored are those of the step view of encode on the padded sequence. -/
theorem xencRunsEncodeSteps : Obligations.XencRunsEncodeSteps := by
  refine ⟨decode_encode .xenc, fun s hs hr => ⟨_, exec_xenc hs hr, rfl, fun h0 => runEngine_of_n_eq_zero hs h0,
    fun hn => ⟨runEngine_n_of_ne_zero hs xxteaEncode_length hn, ?words⟩,
    fun i hi => runEngine_read_above hs xxteaEncode_length hi⟩⟩
  case words =>
    have hlen := length_padded s.block
    rw [runEngine_words_of_ne_zero hs xxteaEncode_length hn, runEngine_n_of_ne_zero hs xxteaEncode_length hn, ← hlen,
      steps_encode _ _ (by omega)]

/-- Settles O16: the words stored are those of the step view of decode on the padded sequence. -/
theorem xdecRunsDecodeSteps : Obligations.XdecRunsDecodeSteps := by
  refine ⟨decode_encode .xdec, fun s hs hr => ⟨_, exec_xdec hs hr, rfl, fun h0 => runEngine_of_n_eq_zero hs h0,
    fun hn => ⟨runEngine_n_of_ne_zero hs xxteaDecode_length hn, ?words⟩,
    fun i hi => runEngine_read_above hs xxteaDecode_length hi⟩⟩
  case words =>
    have hlen := length_padded s.block
    rw [runEngine_words_of_ne_zero hs xxteaDecode_length hn, runEngine_n_of_ne_zero hs xxteaDecode_length hn, ← hlen,
      steps_decode _ _ (by omega)]

/-- Settles O17: the inverse laws of the two functions, and that the second command stores what they give. -/
theorem decodeIsExactInverse : Obligations.DecodeIsExactInverse := by
  have hdec : ∀ v k base, 2 ≤ v.length → xxteaDecode (xxteaEncode v k base) k base = v :=
    fun _ k base hv => xxteaDecode_xxteaEncode hv k base
  have henc : ∀ v k base, 2 ≤ v.length → xxteaEncode (xxteaDecode v k base) k base = v :=
    fun _ k base hv => xxteaEncode_xxteaDecode hv k base
  refine ⟨fun v k base hv => ⟨hdec v k base hv, henc v k base hv⟩, fun s hs hr => ?_⟩
  have hxdec := exec_xdec (runEngine_inv hs xxteaEncode_length) (runEngine_ready hr)
  have hxenc := exec_xenc (runEngine_inv hs xxteaDecode_length) (runEngine_ready hr)
  refine ⟨fun hn => ⟨⟨_, exec_xenc hs hr, ?decEnc⟩, ⟨_, exec_xdec hs hr, ?encDec⟩⟩, fun h0 => ?empty,
    fun h1 => ?single⟩
  case decEnc => rw [hxdec, runEngine_runEngine_eq_self hs xxteaEncode_length xxteaDecode_length hn hdec]
  case encDec => rw [hxenc, runEngine_runEngine_eq_self hs xxteaDecode_length xxteaEncode_length hn henc]
  case empty =>
    rw [exec_xenc hs hr, exec_xdec hs hr, runEngine_of_n_eq_zero hs h0, runEngine_of_n_eq_zero hs h0]
    exact ⟨rfl, rfl⟩
  case single =>
    rw [runEngine_decode_encode hs, words_of_n_eq_one h1] at hxdec
    have hfit : (padSingle [s.block.v.read 0]).length ≤ s.block.params.nmax := hs.parts.nmax_ge
    exact ⟨_, _, exec_xenc hs hr, hxdec, rfl, putWords_read_below hs hfit Nat.two_pos,
      putWords_read_below hs hfit Nat.one_lt_two, fun i hi => putWords_read_above hs hfit hi⟩

end Sys2Proof.Machine

/-! The family 43_base64_codec.md: what `B64E` stores, what `B64D` stores or raises, and the laws between them. -/

namespace Sys2Proof.Machine

/-! ### A state with a text stored -/

/-- The state after a result that fits is stored in `T[0..TLEN)` (10_state.md R38); `exec_b64e` ties it to the
command. -/
def State.putText (s : State) (x : List Byte) : State :=
  { s with block := { s.block with t := s.block.t.fill 0 x, tlen := BitVec.ofNat 32 x.length } }

section

variable {s : State} {x : List Byte} {j : Nat}

/-- The model's store of a text that fits, by any command word. -/
theorem with_storeText (cmd : Word) (hx : x.length ≤ s.block.params.tmax) :
    { s with block := storeText cmd x s.block } = s.putText x := by
  rw [storeText_fits cmd hx, State.putText]

theorem putText_ready (hr : s.Ready) : (s.putText x).Ready := hr

variable (hs : s.Inv) (hx : x.length ≤ s.block.params.tmax)

include hs hx

theorem putText_tlen : (s.putText x).block.tlen.toNat = x.length := toNat_ofNat_of_le hx hs.parts.tmax_le

theorem putText_read_below (hj : j < x.length) : (s.putText x).block.t.read j = x.getD j 0 :=
  read_fill_below hs.parts.t_wf hx (hj.trans_eq (putText_tlen hs hx).symm)

theorem putText_read_above (hj : x.length ≤ j) : (s.putText x).block.t.read j = s.block.t.read j :=
  read_fill_of_length_le hs.parts.t_wf hx hj

theorem putText_text : (s.putText x).block.text = x := text_store _ hs.parts hx

theorem putText_inv : (s.putText x).Inv := by
  rw [← with_storeText 0 hx]
  exact (Block.wf_iff _).2 (hs.parts.storeText 0 hx)

end

/-! ### The two commands on a READY state -/

/-- `B64E` (43_base64_codec.md R174). -/
theorem exec_b64e {s : State} (hs : s.Inv) (hr : s.Ready) :
    exec .b64e s = .next (s.putText (b64Encode s.block.cfg.alph s.block.bytes)) := by
  rw [exec_ready hr, effect, with_storeText _ (b64e_fits hs.parts)]

section

variable {s : State} (hr : s.Ready)

include hr

/-- `B64D` of a text that passes the check and fits (43_base64_codec.md R178). -/
theorem exec_b64d (hc : b64Check s.block.cfg.alph s.block.text = none)
    (hfit : b64Need s.block.text ≤ s.block.params.bmax) :
    exec .b64d s = .next (s.putBytes (b64Decode s.block.cfg.alph s.block.text)) := by
  have hnot : ¬ s.block.params.bmax < b64Need s.block.text := Nat.not_lt.2 hfit
  rw [exec_ready hr, effect, hc]
  simp only [if_neg hnot, with_storeBytes _ (b64d_fits hc hnot)]

/-- `B64D` of a text that passes the check and does not fit (43_base64_codec.md R178, 60_exceptions.md R225). -/
theorem exec_b64d_capacity (hc : b64Check s.block.cfg.alph s.block.text = none)
    (hbig : s.block.params.bmax < b64Need s.block.text) :
    exec .b64d s = .next
      { s with block := raiseFault .capacity (BitVec.ofNat 32 (b64Need s.block.text)) (encode .b64d) s.block } := by
  rw [exec_ready hr, effect, hc]
  simp only [if_pos hbig]

/-- `B64D` of a text whose first offending symbol is no `=` (43_base64_codec.md R175). -/
theorem exec_b64d_invalidCharacter {j : Nat} (h4 : s.block.text.length % 4 = 0) (hj : j < s.block.text.length)
    (hbefore : ∀ i < j, legalAt s.block.cfg.alph s.block.text i) (hbad : ¬ legalAt s.block.cfg.alph s.block.text j)
    (hpad : s.block.text.getD j 0 ≠ Config.b64Pad) :
    exec .b64d s = .next
      { s with block := raiseFault .invalidCharacter (BitVec.ofNat 32 j) (encode .b64d) s.block } := by
  have hc : b64Check s.block.cfg.alph s.block.text = some (.invalidCharacter, j) := by
    rw [b64Check, if_neg (not_not_intro h4), b64Scan_first _ 0 hj hbefore hbad, if_neg hpad, Nat.zero_add]
  rw [exec_ready hr, effect, hc]

/-- `B64D` of an encoded text stores the bytes it was made from (43_base64_codec.md R179). -/
theorem exec_b64d_of_text_eq_b64Encode {x : List Byte} (ht : s.block.text = b64Encode s.block.cfg.alph x)
    (hx : x.length ≤ s.block.params.bmax) : exec .b64d s = .next (s.putBytes x) := by
  have hd := exec_b64d hr (by rw [ht, b64Check_b64Encode]) (by rwa [ht, b64Need_b64Encode])
  rwa [ht, b64Decode_b64Encode] at hd

end

/-- When `B` holds the bytes that `T` encodes, `B64D` has nothing to change. -/
theorem exec_b64d_of_text_eq_b64Encode_bytes {s : State} (hs : s.Inv) (hr : s.Ready)
    (ht : s.block.text = b64Encode s.block.cfg.alph s.block.bytes) : exec .b64d s = .next s := by
  rw [exec_b64d_of_text_eq_b64Encode hr ht ((bytes_length _).trans_le hs.parts.blen_le), putBytes_self hs]

theorem chunkOf_bytes (b : Block) (i : Nat) : chunkOf b.bytes i =
    groupOfBytes (b.chunkByte (3 * i)) (b.chunkByte (3 * i + 1)) (b.chunkByte (3 * i + 2)) := by
  simp only [chunkOf, bytes_getD_eq_chunkByte]

/-! ### The alphabets (43_base64_codec.md R170) -/

/-- The codes that differ between the two alphabets: those of value 62 or 63. -/
def Alphabet.Special (a : Alphabet) (c : Byte) : Prop := a.val c = some 62 ∨ a.val c = some 63

theorem val_eq_some_iff (a : Alphabet) (c : Byte) (s : BitVec 6) : a.val c = some s ↔ c = a.sym s :=
  ⟨fun h => (sym_of_val a h).symm, fun h => h ▸ val_sym a s⟩

section

variable {a b : Alphabet} {c : Byte} {s : BitVec 6}

theorem sym_toNat_upper (h : s.toNat ≤ 25) : (a.sym s).toNat = 0x41 + s.toNat := by
  rw [Alphabet.sym, if_pos h, BitVec.toNat_add, BitVec.toNat_setWidth]
  simp only [BitVec.toNat_ofNat]
  omega

theorem sym_toNat_lower (hge : 26 ≤ s.toNat) (hle : s.toNat ≤ 51) : (a.sym s).toNat = 0x61 + (s.toNat - 26) := by
  rw [Alphabet.sym, if_neg (by omega), if_pos hle, BitVec.toNat_add, BitVec.toNat_sub, BitVec.toNat_setWidth]
  simp only [BitVec.toNat_ofNat]
  omega

theorem sym_toNat_digit (hge : 52 ≤ s.toNat) (hle : s.toNat ≤ 61) : (a.sym s).toNat = 0x30 + (s.toNat - 52) := by
  rw [Alphabet.sym, if_neg (by omega), if_neg (by omega), if_pos hle, BitVec.toNat_add, BitVec.toNat_sub,
    BitVec.toNat_setWidth]
  simp only [BitVec.toNat_ofNat]
  omega

/-- A value whose symbol is not special has the same symbol in both alphabets. -/
theorem sym_eq_of_not_special (h : ¬ a.Special (a.sym s)) : b.sym s = a.sym s := by
  have h62 : s.toNat ≠ 62 := fun hs => h (.inl (by rw [val_sym, BitVec.eq_of_toNat_eq (y := 62) hs]))
  have h63 : s.toNat ≠ 63 := fun hs => h (.inr (by rw [val_sym, BitVec.eq_of_toNat_eq (y := 63) hs]))
  have hle : s.toNat ≤ 61 := by omega
  simp only [Alphabet.sym, if_pos hle]

theorem not_special_pad (a : Alphabet) : ¬ a.Special Config.b64Pad := by simp [Alphabet.Special]

/-- The other alphabet has no value for a special code. -/
theorem val_eq_none_of_special (hne : b ≠ a) (h : a.Special c) : b.val c = none := by
  have hnone : b.val (a.sym 62) = none ∧ b.val (a.sym 63) = none := by
    revert hne; cases a <;> cases b <;> decide
  rcases h with h | h <;> rw [← sym_of_val a h]
  · exact hnone.1
  · exact hnone.2

end

/-! ### One text under both alphabets (43_base64_codec.md R179) -/

section

variable {a b : Alphabet} {t : List Byte} {j : Nat}

theorem legalAt_of_not_special (h : legalAt a t j) (hs : ¬ a.Special (t.getD j 0)) : legalAt b t j := by
  unfold legalAt at h ⊢
  split
  · next hpad => rwa [if_pos hpad] at h
  · next hpad =>
    rw [if_neg hpad] at h
    obtain ⟨v, hv⟩ := Option.ne_none_iff_exists'.1 h
    rw [← sym_of_val a hv] at hs ⊢
    rw [← sym_eq_of_not_special (b := b) hs, val_sym]
    exact Option.some_ne_none v

theorem not_legalAt_of_special (hne : b ≠ a) (hs : a.Special (t.getD j 0)) : ¬ legalAt b t j := by
  have hpad : t.getD j 0 ≠ Config.b64Pad := fun h => not_special_pad a (h ▸ hs)
  rw [legalAt, if_neg hpad]
  exact not_not_intro (val_eq_none_of_special hne hs)

/-- An encoded text with no special symbol is the same under both alphabets. -/
theorem b64Encode_eq_of_not_special {x : List Byte} (h : ∀ c ∈ b64Encode a x, ¬ a.Special c) :
    b64Encode b x = b64Encode a x := by
  induction x using b64Encode.induct with
  | case1 b0 b1 b2 rest ih =>
    simp only [b64Encode, List.forall_mem_cons] at h ⊢
    obtain ⟨h0, h1, h2, h3, hrest⟩ := h
    rw [ih hrest, sym_eq_of_not_special h0, sym_eq_of_not_special h1, sym_eq_of_not_special h2, sym_eq_of_not_special h3]
  | case2 b0 b1 =>
    simp only [b64Encode, List.forall_mem_cons] at h ⊢
    obtain ⟨h0, h1, h2, -⟩ := h
    rw [sym_eq_of_not_special h0, sym_eq_of_not_special h1, sym_eq_of_not_special h2]
  | case3 b0 =>
    simp only [b64Encode, List.forall_mem_cons] at h ⊢
    obtain ⟨h0, h1, -⟩ := h
    rw [sym_eq_of_not_special h0, sym_eq_of_not_special h1]
  | case4 => rfl

end

/-! `B64D` of a text that was encoded under the alphabet `a`, whatever alphabet the block has. -/

section

variable {u : State} {a : Alphabet} {x : List Byte} {j : Nat}

theorem exec_b64d_of_not_special (hu : u.Inv) (hr : u.Ready) (ht : u.block.text = b64Encode a u.block.bytes)
    (hs : ∀ c ∈ u.block.text, ¬ a.Special c) : exec .b64d u = .next u := by
  rw [ht] at hs
  exact exec_b64d_of_text_eq_b64Encode_bytes hu hr (ht.trans (b64Encode_eq_of_not_special hs).symm)

theorem exec_b64d_of_special (hr : u.Ready) (hne : u.block.cfg.alph ≠ a) (ht : u.block.text = b64Encode a x)
    (hj : j < u.block.text.length) (hs : a.Special (u.block.text.getD j 0))
    (hfirst : ∀ i < j, ¬ a.Special (u.block.text.getD i 0)) :
    exec .b64d u = .next
      { u with block := raiseFault .invalidCharacter (BitVec.ofNat 32 j) (encode .b64d) u.block } := by
  have hlegal : ∀ i < j, legalAt a u.block.text i := by
    intro i hi
    rw [ht] at hj ⊢
    exact legalAt_b64Encode a x (hi.trans hj)
  refine exec_b64d_invalidCharacter hr ?_ hj (fun i hi => legalAt_of_not_special (hlegal i hi) (hfirst i hi))
    (not_legalAt_of_special hne hs) fun hpad => not_special_pad a (hpad ▸ hs)
  rw [ht, b64Encode_length, Nat.mul_mod_right]

end

/-! ### Texts that differ in their final group only (43_base64_codec.md R177) -/

section

variable {a : Alphabet} {c c' : Byte}

theorem ne_pad_of_val (hc : a.val c ≠ none) : c ≠ Config.b64Pad := fun h => hc (h ▸ val_pad a)

theorem b64Scan_cons_of_val (hc : a.val c ≠ none) (k : Nat) (rest : List Byte) :
    b64Scan a k (c :: rest) = b64Scan a (k + 1) rest := by
  rw [b64Scan, if_neg (ne_pad_of_val hc), if_neg hc]

/-- The scan does not depend on which value a symbol has, where at least one more symbol follows. -/
theorem b64Scan_append_of_val (hc : a.val c ≠ none) (hc' : a.val c' ≠ none) {rest : List Byte} (hne : rest ≠ [])
    (t : List Byte) (k : Nat) : b64Scan a k (t ++ c :: rest) = b64Scan a k (t ++ c' :: rest) := by
  induction t generalizing k with
  | nil => rw [List.nil_append, List.nil_append, b64Scan_cons_of_val hc, b64Scan_cons_of_val hc']
  | cons d t ih =>
    have hmore : ∀ e, ¬ (t ++ e :: rest = [] ∨ t ++ e :: rest = [Config.b64Pad]) := by
      simp [List.append_eq_singleton_iff, hne]
    rw [List.cons_append, List.cons_append, b64Scan, b64Scan, if_neg (hmore c), if_neg (hmore c'), ih]

theorem b64Check_append_of_val (hc : a.val c ≠ none) (hc' : a.val c' ≠ none) {rest : List Byte} (hne : rest ≠ [])
    (t : List Byte) : b64Check a (t ++ c :: rest) = b64Check a (t ++ c' :: rest) := by
  simp only [b64Check, List.length_append, List.length_cons, b64Scan_append_of_val hc hc' hne]

theorem b64Pads_two (c0 c1 : Byte) : b64Pads [c0, c1, 0x3D#8, 0x3D#8] = 2 := rfl

theorem b64Pads_of_val (hc : a.val c ≠ none) (c0 c1 : Byte) : b64Pads [c0, c1, c, 0x3D#8] = 1 := by
  have hcount : [c, Config.b64Pad].count Config.b64Pad = 1 := by
    rw [List.count_cons_of_ne (ne_pad_of_val hc), List.count_singleton_self]
  exact hcount

end

section

variable {a : Alphabet} {u u' : List Byte}

/-- The groups before a last part decode to the same bytes whatever that part is. -/
theorem b64DecodeGroups_append_congr (hu : u ≠ []) (hu' : u' ≠ []) {pads : Nat}
    (h : b64DecodeGroups a pads u = b64DecodeGroups a pads u') (t : List Byte) (h4 : t.length % 4 = 0) :
    b64DecodeGroups a pads (t ++ u) = b64DecodeGroups a pads (t ++ u') := by
  induction t using b64DecodeGroups.induct with
  | case1 c0 c1 c2 c3 rest ih =>
    have hmore : (rest ++ u).isEmpty = false ∧ (rest ++ u').isEmpty = false := by simp [hu, hu']
    simp only [List.length_cons] at h4
    simp only [List.cons_append, b64DecodeGroups, hmore, ih (by omega)]
  | case2 t ht =>
    match t, ht with
    | [], _ => exact h
    | [_], _ | [_, _], _ | [_, _, _], _ => simp at h4
    | _ :: _ :: _ :: _ :: _, ht => exact (ht _ _ _ _ _ rfl).elim

/-- Two final groups with the same padding that decode to the same bytes do so at the end of any text. -/
theorem b64Decode_append_congr (hu : 2 ≤ u.length) (hu' : 2 ≤ u'.length) {pads : Nat} (hp : b64Pads u = pads)
    (hp' : b64Pads u' = pads) (h : b64DecodeGroups a pads u = b64DecodeGroups a pads u') (t : List Byte)
    (h4 : t.length % 4 = 0) : b64Decode a (t ++ u) = b64Decode a (t ++ u') := by
  have hne : ∀ w : List Byte, 2 ≤ w.length → w ≠ [] := by rintro w hw rfl; simp at hw
  rw [b64Decode, b64Decode, b64Pads_append _ _ hu, b64Pads_append _ _ hu', hp, hp',
    b64DecodeGroups_append_congr (hne u hu) (hne u' hu') h t h4]

end

theorem b64DecodeGroups_two_pads (a : Alphabet) (c0 c1 c2 c3 : Byte) :
    b64DecodeGroups a 2 [c0, c1, c2, c3] = [firstByte (a.valD c0) (a.valD c1)] := rfl

theorem b64DecodeGroups_one_pad (a : Alphabet) (c0 c1 c2 c3 : Byte) :
    b64DecodeGroups a 1 [c0, c1, c2, c3] =
      [firstByte (a.valD c0) (a.valD c1), secondByte (a.valD c1) (a.valD c2)] := rfl

theorem valD_of_val {a : Alphabet} {c : Byte} {s : BitVec 6} (h : a.val c = some s) : a.valD c = s := by
  rw [Alphabet.valD, h, Option.getD_some]

section

variable {s s' : BitVec 6}

theorem setWidth_ushiftRight_congr {k : Nat} (h : s.toNat / 2 ^ k = s'.toNat / 2 ^ k) :
    s.setWidth 8 >>> k = s'.setWidth 8 >>> k := by
  refine BitVec.eq_of_toNat_eq ?_
  rw [BitVec.toNat_ushiftRight, BitVec.toNat_ushiftRight, BitVec.toNat_setWidth_of_le (by decide),
    BitVec.toNat_setWidth_of_le (by decide), Nat.shiftRight_eq_div_pow, Nat.shiftRight_eq_div_pow, h]

/-- The low 4 bits of the second value are no part of the first byte. -/
theorem firstByte_congr (s0 : BitVec 6) (h : s.toNat / 16 = s'.toNat / 16) : firstByte s0 s = firstByte s0 s' := by
  rw [firstByte, firstByte, setWidth_ushiftRight_congr h]

/-- The low 2 bits of the third value are no part of the second byte. -/
theorem secondByte_congr (s1 : BitVec 6) (h : s.toNat / 4 = s'.toNat / 4) : secondByte s1 s = secondByte s1 s' := by
  rw [secondByte, secondByte, setWidth_ushiftRight_congr h]

end

/-! ### The obligations -/

/-- Settles O18: the rows of the table, and that every code with a value is the symbol of it. -/
theorem symbolTable : Obligations.SymbolTable := by
  refine ⟨fun a s => ⟨sym_toNat_upper, sym_toNat_lower, sym_toNat_digit, ?plus, ?slash⟩, val_eq_some_iff, val_pad⟩
  case plus => rintro rfl; cases a <;> rfl
  case slash => rintro rfl; cases a <;> rfl

/-- Settles O20: the symbols stored are those of the zero-filled chunks of the bytes. -/
theorem b64eEmitsSymbols : Obligations.B64eEmitsSymbols := by
  refine ⟨decode_encode .b64e, fun s hs hr => ⟨_, exec_b64e hs hr, rfl, ?_⟩⟩
  have hfit := b64e_fits hs.parts
  have hlen := b64Encode_length s.block.cfg.alph s.block.bytes
  rw [bytes_length] at hlen
  rw [putText_tlen hs hfit]
  refine ⟨hlen, fun i hi => ?symbols, fun i hi => putText_read_above hs hfit hi⟩
  case symbols =>
    have hget := b64Encode_getD s.block.cfg.alph s.block.bytes (i := i) (by rwa [bytes_length])
    rw [chunkOf_bytes, bytes_length] at hget
    rw [putText_read_below hs hfit (by omega), putText_read_below hs hfit (by omega),
      putText_read_below hs hfit (by omega), putText_read_below hs hfit (by omega)]
    exact hget

/-- Settles O21: the bytes stored are those of the groups of the text. -/
theorem b64dRecoversBytes : Obligations.B64dRecoversBytes := by
  intro s hs hr h4 hlegal hneed
  have hc := b64Check_text_none h4 hlegal
  have hlen : (b64Decode s.block.cfg.alph s.block.text).length = s.block.textNeed := by
    rw [b64Decode_length _ _ (b64Check_length hc), b64Need_text]
  have hfit : (b64Decode s.block.cfg.alph s.block.text).length ≤ s.block.params.bmax := hlen.trans_le hneed
  refine ⟨_, exec_b64d hr hc (by rwa [b64Need_text]), rfl, ?length, fun i hi => ?below, fun i hi => ?above⟩
  case length => rw [putBytes_blen hs hfit, hlen]
  case below =>
    have hgroup : i / 3 < s.block.tlen.toNat / 4 := by unfold Block.textNeed at hi; omega
    rw [putBytes_read_below hs hfit (hlen ▸ hi), b64Decode_getD _ _ (b64Check_length hc) (by rwa [b64Need_text]),
      valuesOf_text _ h4 hgroup, groupByte]
  case above => exact putBytes_read_above hs hfit (hlen ▸ hi)

/-- Settles O23: `TMAX` symbols decode to at most `BMAX + 2` bytes, and more than `BMAX` of them are not stored. -/
theorem b64dRaisesCapacity : Obligations.B64dRaisesCapacity := by
  intro s hs hr h4 hlegal hbig
  have hle := b64Need_le hs.parts
  have hexec := exec_b64d_capacity hr (b64Check_text_none h4 hlegal) (by rwa [b64Need_text])
  rw [b64Need_text] at hle hexec
  exact ⟨by omega, hexec⟩

/-- Settles O24: the text `B64E` leaves is the encoded text, and `B64D` of it stores the bytes it was made from. -/
theorem b64dInvertsB64e : Obligations.B64dInvertsB64e := by
  refine ⟨fun a x => ⟨b64Check_b64Encode a x, b64Decode_b64Encode a x⟩, fun s hs hr => ?_⟩
  have hfit := b64e_fits hs.parts
  have htext := putText_text hs hfit
  have hbytes : s.block.bytes.length ≤ s.block.params.bmax := (bytes_length _).trans_le hs.parts.blen_le
  have hblen : BitVec.ofNat 32 s.block.bytes.length = s.block.blen := by
    rw [bytes_length, BitVec.ofNat_toNat, BitVec.setWidth_eq]
  refine ⟨_, exec_b64e hs hr, putText_ready hr, rfl, rfl,
    exec_b64d_of_text_eq_b64Encode_bytes (putText_inv hs hfit) (putText_ready hr) htext, ?_⟩
  intro b blen u hu
  have hexec : exec .b64d u = .next (u.putBytes s.block.bytes) :=
    exec_b64d_of_text_eq_b64Encode (s := u) hr htext hbytes
  refine ⟨_, hexec, ?frame, putBytes_bytes hu hbytes⟩
  case frame => rw [← hblen]; rfl

/-- Settles O25: a symbol that is not special has the same value in both alphabets, a special one has none in the
other. -/
theorem otherAlphabetIsRejected : Obligations.OtherAlphabetIsRejected := by
  intro s other hs hr hne
  have hfit := b64e_fits hs.parts
  have htext := putText_text hs hfit
  refine ⟨_, exec_b64e hs hr, ?_⟩
  intro u special
  have hspecial : ∀ j < u.block.tlen.toNat, special j ↔ s.block.cfg.alph.Special (u.block.text.getD j 0) := by
    intro j hj
    rw [text_getD _ hj]
    rfl
  refine ⟨fun hnone => ?same, fun j hj hsj hfirst => ?fault⟩
  case same =>
    have hu : u.Inv := (Block.wf_iff _).2 { (putText_inv hs hfit).parts with }
    refine exec_b64d_of_not_special hu hr htext fun c hc => ?_
    obtain ⟨j, hj, rfl⟩ := List.mem_iff_getElem.1 hc
    have hlt : j < u.block.tlen.toNat := by rwa [text_length] at hj
    rw [← List.getD_eq_getElem _ 0 hj, ← hspecial j hlt]
    exact hnone j hlt
  case fault =>
    exact exec_b64d_of_special hr hne htext (by rwa [text_length]) ((hspecial j hj).1 hsj) fun i hi =>
      mt (hspecial i (hi.trans hj)).2 (hfirst i hi)

/-- Settles O26: the scan passes over a symbol with a value whatever the value is, and a final group's bytes leave the
unused bits out. -/
theorem unusedBitsAreIgnored : Obligations.UnusedBitsAreIgnored := by
  refine ⟨fun a t c0 c1 c1' s1 s1' h h' hbits => ?two, fun a t c0 c1 c2 c2' s2 s2' h h' hbits => ?one⟩
  case two =>
    have hv : a.val c1 ≠ none := by simp [h]
    have hv' : a.val c1' ≠ none := by simp [h']
    have hgroup : b64DecodeGroups a 2 [c0, c1, 0x3D#8, 0x3D#8] = b64DecodeGroups a 2 [c0, c1', 0x3D#8, 0x3D#8] := by
      rw [b64DecodeGroups_two_pads, b64DecodeGroups_two_pads, valD_of_val h, valD_of_val h', firstByte_congr _ hbits]
    refine ⟨by simpa using b64Check_append_of_val hv hv' (rest := [0x3D#8, 0x3D#8]) (by simp) (t ++ [c0]), fun hc => ?_⟩
    have h4 := b64Check_length hc
    exact b64Decode_append_congr (by simp) (by simp) (b64Pads_two c0 c1) (b64Pads_two c0 c1') hgroup t
      (by simpa using h4)
  case one =>
    have hv : a.val c2 ≠ none := by simp [h]
    have hv' : a.val c2' ≠ none := by simp [h']
    have hgroup : b64DecodeGroups a 1 [c0, c1, c2, 0x3D#8] = b64DecodeGroups a 1 [c0, c1, c2', 0x3D#8] := by
      rw [b64DecodeGroups_one_pad, b64DecodeGroups_one_pad, valD_of_val h, valD_of_val h', secondByte_congr _ hbits]
    refine ⟨by simpa using b64Check_append_of_val hv hv' (rest := [0x3D#8]) (by simp) (t ++ [c0, c1]), fun hc => ?_⟩
    have h4 := b64Check_length hc
    exact b64Decode_append_congr (by simp) (by simp) (b64Pads_of_val hv c0 c1) (b64Pads_of_val hv' c0 c1) hgroup t
      (by simpa using h4)

end Sys2Proof.Machine

/-! The family 44_system_commands.md: `NOP` and `CLR`. -/

namespace Sys2Proof.Machine

/-! ### The two commands on a block -/

@[simp] theorem effect_nop (b : Block) : effect .nop b = b := rfl

/-- What `CLR` leaves is the reset block but for `CFG` and the fault registers (44_system_commands.md R191). -/
theorem effect_clr (b : Block) : effect .clr b = { Block.reset b.params with
    cfg := b.cfg, status := b.status, errCode := b.errCode, errInfo := b.errInfo, errCmd := b.errCmd } := rfl

/-- `NOP` changes nothing, whether the block is READY or drops it (44_system_commands.md R190,
60_exceptions.md R233). -/
theorem exec_nop (s : State) : exec .nop s = .next s := by
  rcases ready_or_faulted s with hready | hfaulted
  · rw [exec_ready hready, effect_nop]
  · exact exec_faulted hfaulted .nop

/-! ### The obligations -/

/-- Settles O1: the effect of `NOP` on a READY block is none, and a FAULTED block drops it. -/
theorem nopChangesNothing : Obligations.NopChangesNothing :=
  ⟨decode_encode .nop, exec_nop⟩

/-- Settles O2: the effect of `CLR` on a READY block is the reset data, and a FAULTED block drops it. -/
theorem clrRestoresResetData : Obligations.ClrRestoresResetData := by
  refine ⟨decode_encode .clr, fun s _ hready => ?ready, fun s hfaulted => exec_faulted hfaulted .clr⟩
  case ready => rw [exec_ready hready, effect_clr]

end Sys2Proof.Machine

/-! The family 45_api_sequences.md: the round trip of a plaintext through the commands, and the runs of the four API
scripts. -/

namespace Sys2Proof.Machine

/-! ### The bytes that come back (45_api_sequences.md R206) -/

/-- What R206 says of the bytes `y` that come back for the plaintext `x`. -/
def ComesBackAs (x y : List Byte) : Prop :=
  (y = x ↔ 0x03#8 ∉ x ∧ x.length ≠ 4) ∧
  (0x03#8 ∈ x → y = x.takeWhile fun c => c ≠ 0x03#8) ∧
  (0x03#8 ∉ x → x.length = 4 → y = x ++ [0x00#8, 0x00#8, 0x00#8, 0x00#8])

theorem pack_ne_nil (x : List Byte) : pack x ≠ [] := by
  have hlen := pack_length x
  rw [← List.length_pos_iff]
  omega

section

variable {x : List Byte} (hne : x ≠ [])

include hne

/-- What `UNPACK` cuts after a round trip: the plaintext, the sentinels of its padding, and the zero word that the
engine puts after a single one (42_mixing_engine.md R147). -/
theorem ser_padSingle_pack : ser (padSingle (pack x)) = x ++
    (List.replicate ((4 - x.length % 4) % 4) Config.padByte ++ ser (List.replicate (2 - (pack x).length) 0)) := by
  rw [padSingle_eq (pack_ne_nil x), ser_append, pack_of_ne_nil hne,
    ser_groupWords _ (by rw [padBytes_length]; omega), padBytes, List.append_assoc]

theorem unpack_padSingle_pack_of_mem (h : 0x03#8 ∈ x) :
    unpack (padSingle (pack x)) = x.takeWhile fun c => decide (c ≠ Config.padByte) := by
  have hcut : (x.takeWhile fun c => decide (c ≠ Config.padByte)).length ≠ x.length := fun hlen =>
    takeWhile_eq_self.1 ((List.takeWhile_sublist _).eq_of_length hlen) h
  rw [unpack, ser_padSingle_pack hne, List.takeWhile_append, if_neg hcut]

theorem unpack_padSingle_pack_of_notMem (h : 0x03#8 ∉ x) : unpack (padSingle (pack x)) = x ++
    (List.replicate ((4 - x.length % 4) % 4) Config.padByte ++ ser (List.replicate (2 - (pack x).length) 0)).takeWhile
      fun c => decide (c ≠ Config.padByte) := by
  rw [unpack, ser_padSingle_pack hne, List.takeWhile_append, if_pos (congrArg List.length (takeWhile_eq_self.2 h))]

/-- Without a sentinel in it the plaintext comes back alone when padding ends it or no zero word is put after it. -/
theorem unpack_padSingle_pack_eq_self (h : 0x03#8 ∉ x) (h4 : x.length ≠ 4) : unpack (padSingle (pack x)) = x := by
  have hpos := List.length_pos_iff.2 hne
  have hlen := pack_length x
  rw [unpack_padSingle_pack_of_notMem hne h]
  by_cases hmod : x.length % 4 = 0
  case pos =>
    have hzeros : 2 - (pack x).length = 0 := by omega
    simp [hmod, hzeros]
  case neg =>
    obtain ⟨r, hr⟩ : ∃ r, (4 - x.length % 4) % 4 = r + 1 := ⟨(4 - x.length % 4) % 4 - 1, by omega⟩
    simp [hr, List.replicate_succ]

/-- A plaintext of one whole word comes back with the zero word put after it. -/
theorem unpack_padSingle_pack_of_length_eq_four (h : 0x03#8 ∉ x) (h4 : x.length = 4) :
    unpack (padSingle (pack x)) = x ++ [0x00#8, 0x00#8, 0x00#8, 0x00#8] := by
  have hlen : (pack x).length = 1 := by rw [pack_length, h4]; rfl
  rw [unpack_padSingle_pack_of_notMem hne h, h4, hlen]
  rfl

theorem notMem_of_unpack_eq_self (heq : unpack (padSingle (pack x)) = x) : 0x03#8 ∉ x := fun hmem =>
  takeWhile_eq_self.1 ((unpack_padSingle_pack_of_mem hne hmem).symm.trans heq) hmem

/-- The round trip of R206, R254 and R255 on the pure functions. -/
theorem comesBackAs_unpack : ComesBackAs x (unpack (padSingle (pack x))) := by
  refine ⟨⟨fun heq => ?unchanged, fun ⟨h, h4⟩ => unpack_padSingle_pack_eq_self hne h h4⟩,
    unpack_padSingle_pack_of_mem hne, unpack_padSingle_pack_of_length_eq_four hne⟩
  case unchanged =>
    have h := notMem_of_unpack_eq_self hne heq
    refine ⟨h, fun h4 => ?_⟩
    rw [unpack_padSingle_pack_of_length_eq_four hne h h4] at heq
    exact absurd heq (by simp)

end

/-! ### The commands between the key and the result -/

/-- What the commands of a sequence rely on from the key on, and keep: a well-formed READY block with the parameters,
the `CFG` and the key they run under. -/
structure Block.Session (b : Block) (p : Config.Params) (c : Cfg) (k : Key) : Prop where
  wf : b.wf = true
  ready : b.status.err = false
  params : b.params = p
  cfg : b.cfg = c
  k : b.k = k

section

variable {s : State} {p : Config.Params} {c : Cfg} {k : Key}

theorem Block.Session.putWords (h : s.block.Session p c k) {w : List Word} (hw : w.length ≤ p.nmax) :
    (s.putWords w).block.Session p c k :=
  { h with wf := putWords_inv h.wf (h.params.symm ▸ hw) }

theorem Block.Session.putBytes (h : s.block.Session p c k) {x : List Byte} (hx : x.length ≤ p.bmax) :
    (s.putBytes x).block.Session p c k :=
  { h with wf := putBytes_inv h.wf (h.params.symm ▸ hx) }

theorem Block.Session.putText (h : s.block.Session p c k) {x : List Byte} (hx : x.length ≤ p.tmax) :
    (s.putText x).block.Session p c k :=
  { h with wf := putText_inv h.wf (h.params.symm ▸ hx) }

theorem Block.Session.words_length_le {b : Block} (h : b.Session p c k) : b.words.length ≤ p.nmax := by
  rw [words_length, ← h.params]
  exact ((Block.wf_iff b).1 h.wf).n_le

theorem Block.Session.text_length_le {b : Block} (h : b.Session p c k) : b.text.length ≤ p.tmax := by
  rw [text_length, ← h.params]
  exact ((Block.wf_iff b).1 h.wf).tlen_le

/-- A list of commands that completes does so command by command. -/
theorem exists_exec_of_execAll_cons {i : Instr} {is : List Instr} {s t : State} (h : execAll (i :: is) s = .next t) :
    ∃ u, exec i s = .next u ∧ execAll is u = .next t := by
  rw [execAll] at h
  cases hi : exec i s with
  | next u => rw [hi] at h; exact ⟨u, rfl, h⟩
  | fault r => nomatch r
  | refused r => rw [hi] at h; cases h

theorem execAll_append {is js : List Instr} {s t : State} (h : execAll is s = .next t) :
    execAll (is ++ js) s = execAll js t := by
  induction is generalizing s with
  | nil => cases h; rfl
  | cons i is ih =>
    obtain ⟨u, hi, his⟩ := exists_exec_of_execAll_cons h
    rw [List.cons_append, execAll, hi]
    exact ih his

theorem execAll_two {i j : Instr} {s t u : State} (hi : exec i s = .next t) (hj : exec j t = .next u) :
    execAll [i, j] s = .next u := by
  simp only [execAll, hi, hj]

/-- `PACK`, `XENC`: the ciphertext words of the bytes in `B` (45_api_sequences.md R201). -/
theorem execAll_pack_xenc (h : s.block.Session p c k) :
    ∃ t, execAll [.pack, .xenc] s = .next t ∧ t.block.Session p c k ∧
      t.block.words = engine xxteaEncode (pack s.block.bytes) k c.roundsBase := by
  have hs : s.Inv := h.wf
  have hfit := pack_fits hs.parts
  have hpack := h.putWords (h.params ▸ hfit)
  have hinv : (s.putWords (pack s.block.bytes)).Inv := hpack.wf
  refine ⟨_, execAll_two (exec_pack hs h.ready) (exec_xenc hinv hpack.ready),
    hpack.putWords (hpack.params ▸ engine_words_fits hinv xxteaEncode_length), ?_⟩
  rw [runEngine_words hinv xxteaEncode_length, putWords_words hs hfit, hpack.k, hpack.cfg]

/-- `SER`, `B64E`: the text of the words in `V` (45_api_sequences.md R203). -/
theorem execAll_ser_b64e (h : s.block.Session p c k) :
    ∃ t, execAll [.ser, .b64e] s = .next t ∧ t.block.Session p c k ∧
      t.block.text = b64Encode c.alph (ser s.block.words) := by
  have hs : s.Inv := h.wf
  have hfit := ser_fits hs.parts
  have hser := h.putBytes (h.params ▸ hfit)
  have hinv : (s.putBytes (ser s.block.words)).Inv := hser.wf
  have htext := b64e_fits hinv.parts
  refine ⟨_, execAll_two (exec_ser hs h.ready) (exec_b64e hinv hser.ready), hser.putText (hser.params ▸ htext), ?_⟩
  rw [putText_text hinv htext, putBytes_bytes hs hfit, hser.cfg]

/-- `B64D`, `DESER`: the words that a text was made from (45_api_sequences.md R204). -/
theorem execAll_b64d_deser (h : s.block.Session p c k) {w : List Word} (hw : w.length ≤ p.nmax)
    (ht : s.block.text = b64Encode c.alph (ser w)) :
    ∃ t, execAll [.b64d, .deser] s = .next t ∧ t.block.Session p c k ∧ t.block.words = w := by
  have hs : s.Inv := h.wf
  have hfit : (ser w).length ≤ p.bmax := by
    rw [ser_length, Config.Params.bmax]
    omega
  have hb64d : exec .b64d s = .next (s.putBytes (ser w)) :=
    exec_b64d_of_text_eq_b64Encode h.ready (h.cfg.symm ▸ ht) (h.params.symm ▸ hfit)
  have hser := h.putBytes hfit
  have hinv : (s.putBytes (ser w)).Inv := hser.wf
  have hbytes := putBytes_bytes hs (h.params.symm ▸ hfit)
  have hdeser := exec_deser hinv hser.ready
    (by rw [putBytes_blen hs (h.params.symm ▸ hfit), ser_length, Nat.mul_mod_right])
  rw [hbytes, deser, groupWords_ser] at hdeser
  exact ⟨_, execAll_two hb64d hdeser, hser.putWords hw, putWords_words hinv (hser.params.symm ▸ hw)⟩

/-- `SER`, `B64E`, `B64D`, `DESER` give the words in `V` back (45_api_sequences.md R206). -/
theorem execAll_serialization (h : s.block.Session p c k) :
    ∃ t, execAll [.ser, .b64e, .b64d, .deser] s = .next t ∧ t.block.Session p c k ∧
      t.block.words = s.block.words := by
  obtain ⟨t, hencode, ht, htext⟩ := execAll_ser_b64e h
  obtain ⟨u, hdecode, hu⟩ := execAll_b64d_deser ht h.words_length_le htext
  exact ⟨u, (execAll_append hencode (js := [.b64d, .deser])).trans hdecode, hu⟩

/-- `XDEC`, `UNPACK`: the bytes that ciphertext words were made from, with the zero word after a single word of
plaintext (45_api_sequences.md R202). -/
theorem execAll_xdec_unpack (h : s.block.Session p c k) {v : List Word}
    (hv : s.block.words = engine xxteaEncode v k c.roundsBase) :
    ∃ t, execAll [.xdec, .unpack] s = .next t ∧ t.block.Session p c k ∧ t.block.bytes = unpack (padSingle v) := by
  have hs : s.Inv := h.wf
  have hxdec := h.putWords (h.params ▸ engine_words_fits hs xxteaDecode_length)
  have hinv : (s.runEngine xxteaDecode).Inv := hxdec.wf
  have hfit := unpack_fits hinv.parts
  refine ⟨_, execAll_two (exec_xdec hs h.ready) (exec_unpack hinv hxdec.ready),
    hxdec.putBytes (hxdec.params ▸ hfit), ?_⟩
  rw [putBytes_bytes hinv hfit, runEngine_words hs xxteaDecode_length, hv, h.k, h.cfg, engine_decode_encode]

end

/-! ### Runs of statements (30_encoding.md R96 to R98) -/

/-- The statements `p` take `s` to `t` in a step for each of their accesses, whatever is pending after them. -/
def RunsTo (p : List Stmt) (s t : State) : Prop :=
  ∀ rest, Host.Core.run core (scriptAccesses p).length { s with pending := scriptAccesses p ++ rest } =
    .next { t with pending := rest }

theorem scriptAccesses_append (p q : List Stmt) : scriptAccesses (p ++ q) = scriptAccesses p ++ scriptAccesses q :=
  List.flatMap_append

theorem scriptAccesses_singleton (a : Stmt) : scriptAccesses [a] = a.accesses := List.flatMap_singleton ..

section

variable {p q : List Stmt} {s t u : State}

theorem RunsTo.append (hp : RunsTo p s t) (hq : RunsTo q t u) : RunsTo (p ++ q) s u := by
  intro rest
  rw [scriptAccesses_append, List.length_append, List.append_assoc, run_add _ _ (hp _)]
  exact hq rest

theorem RunsTo.run (h : RunsTo p s t) :
    Host.Core.run core (scriptAccesses p).length { s with pending := scriptAccesses p } =
      .next { t with pending := [] } := by
  have hrun := h []
  rwa [List.append_nil] at hrun

/-- A statement of one access is one step. -/
theorem runsTo_of_step {a : Stmt} {x : HostAccess} (ha : a.accesses = [x])
    (h : ∀ rest, step { s with pending := x :: rest } = .next { t with pending := rest }) : RunsTo [a] s t := by
  intro rest
  rw [scriptAccesses_singleton, ha]
  exact run_one (h rest)

/-- A command does not look at what the host has pending. -/
theorem exec_with_pending {i : Instr} (h : exec i s = .next t) (rest : List HostAccess) :
    exec i { s with pending := rest } = .next { t with pending := rest } := by
  obtain ⟨hf, rfl⟩ | ⟨hr, rfl⟩ := exec_cases h
  · exact exec_faulted (s := { t with pending := rest }) hf i
  · exact exec_ready (s := { s with pending := rest }) hr i

theorem runsTo_command {i : Instr} (h : exec i s = .next t) : RunsTo [.command i] s t :=
  runsTo_of_step rfl fun rest => (step_of_decode rfl (decode_encode i)).trans (exec_with_pending h rest)

theorem runsTo_commands {is : List Instr} (h : execAll is s = .next t) : RunsTo (is.map .command) s t := by
  induction is generalizing s with
  | nil => cases h; exact fun _ => rfl
  | cons i is ih =>
    obtain ⟨u, hi, his⟩ := exists_exec_of_execAll_cons h
    exact (runsTo_command hi).append (ih his)

end

theorem runsTo_rd (s : State) (r : Reg) :
    RunsTo [.rd (.reg r)] s { s with returned := readReg s.block r :: s.returned } := by
  refine runsTo_of_step rfl fun rest => ?_
  obtain ⟨-, h4, hle⟩ := accessRefusal_none.1 (accessRefusal_offset (l := .reg r) (locate_reg r))
  rw [step_read rfl h4 hle]
  exact congrArg (fun w => Host.Outcome.next (State.mk s.block rest (w :: s.returned))) (memRead_reg s.block r)

section

variable {s : State} (hs : s.Inv)

include hs

theorem runsTo_bytes {x : List Byte} (hx : x.length ≤ s.block.params.bmax) : RunsTo [.bytes x] s (s.putBytes x) := by
  intro rest
  rw [scriptAccesses_singleton]
  exact run_bytes hs.parts hx rfl

theorem runsTo_text {x : List Byte} (hx : x.length ≤ s.block.params.tmax) : RunsTo [.text x] s (s.putText x) := by
  intro rest
  rw [scriptAccesses_singleton]
  exact run_text hs.parts hx rfl

theorem runsTo_words {w : List Word} (hw : w.length ≤ s.block.params.nmax) : RunsTo [.words w] s (s.putWords w) := by
  intro rest
  rw [scriptAccesses_singleton]
  exact run_words hs.parts hw rfl

end

/-! ### The common form of the four scripts (45_api_sequences.md R201 to R204) -/

/-- The loaded password and `KEYNORM`, the loaded data and the commands on them, the reads of `STATUS` and of the
result's length; `encryptRaw_eq_some_iff` and its like tie it to the four scripts. -/
def apiScript (load : List Byte) (data : Stmt) (cmds : List Instr) (r : Reg) : List Stmt :=
  [.bytes load] ++ [.command .keynorm] ++ [data] ++ cmds.map .command ++ [.rd (.reg .status)] ++ [.rd (.reg r)]

section

variable {α β γ : Type} {d : List α} [Decidable (d = [])] {cap : Nat} {o : Option β} {f : β → γ} {e r : γ}

/-- The guards of the script functions on data that are not empty. -/
theorem guarded_eq_some_iff (hne : d ≠ []) :
    (if d = [] then some e else if cap < d.length then none else o.map f) = some r ↔
      d.length ≤ cap ∧ ∃ w, o = some w ∧ r = f w := by
  rw [if_neg hne]
  split
  · next hlt => simp [Nat.not_le.2 hlt]
  · next hle => simp [Nat.not_lt.1 hle, Option.map_eq_some_iff, eq_comm]

/-- The guards of the script functions on data that do not fit. -/
theorem guarded_eq_none (h : cap < d.length) :
    (if d = [] then some e else if cap < d.length then none else o.map f) = none := by
  rw [if_neg (List.ne_nil_of_length_pos (Nat.zero_lt_of_lt h)), if_pos h]

end

section

variable {p : Config.Params} {x pw : List Byte} {w : List Word} {script : List Stmt}

theorem encryptRaw_eq_some_iff (hne : x ≠ []) : encryptRaw p x pw = some script ↔ x.length ≤ p.bmax ∧
    ∃ load, passwordLoad p pw = some load ∧ script = apiScript load (.bytes x) [.pack, .xenc] .n :=
  guarded_eq_some_iff hne

theorem decryptRaw_eq_some_iff (hne : w ≠ []) : decryptRaw p w pw = some script ↔ w.length ≤ p.nmax ∧
    ∃ load, passwordLoad p pw = some load ∧ script = apiScript load (.words w) [.xdec, .unpack] .blen :=
  guarded_eq_some_iff hne

theorem encryptB64_eq_some_iff (hne : x ≠ []) : encryptB64 p x pw = some script ↔ x.length ≤ p.bmax ∧
    ∃ load, passwordLoad p pw = some load ∧
      script = apiScript load (.bytes x) [.pack, .xenc, .ser, .b64e] .tlen :=
  guarded_eq_some_iff hne

theorem decryptB64_eq_some_iff (hne : x ≠ []) : decryptB64 p x pw = some script ↔ x.length ≤ p.tmax ∧
    ∃ load, passwordLoad p pw = some load ∧
      script = apiScript load (.text x) [.b64d, .deser, .xdec, .unpack] .blen :=
  guarded_eq_some_iff hne

end

/-- The parts of a script run one after the other. -/
theorem runsTo_apiScript {load : List Byte} {data : Stmt} {cmds : List Instr} {s s1 s2 t : State}
    (hkey : RunsTo ([.bytes load] ++ [.command .keynorm]) s s1) (hdata : RunsTo [data] s1 s2)
    (hcmds : execAll cmds s2 = .next t) (r : Reg) : RunsTo (apiScript load data cmds r) s
      { t with returned := readReg t.block r :: t.block.status.word :: t.returned } :=
  (((hkey.append hdata).append (runsTo_commands hcmds)).append (runsTo_rd t .status)).append (runsTo_rd _ r)

/-! ### The password (45_api_sequences.md section 2) -/

/-- The first words of a packed sequence are made of its first bytes (41_key_normalizer.md R132). -/
theorem pack_take_getD {x : List Byte} {m i : Nat} (hm : m ≤ x.length) (hi : 4 * i + 4 ≤ m) :
    (pack (x.take m)).getD i 0 = (pack x).getD i 0 := by
  have hlen : (x.take m).length = m := List.length_take_of_le hm
  have hpad : ∀ j < m, (if j < (x.take m).length then (x.take m).getD j 0 else Config.padByte) =
      if j < x.length then x.getD j 0 else Config.padByte := by
    intro j hj
    rw [if_pos (by omega), if_pos (by omega), List.getD_eq_getElem?_getD, List.getD_eq_getElem?_getD,
      List.getElem?_take_of_lt hj]
  rw [pack_getD (List.ne_nil_of_length_pos (by omega)) (by omega) _ fun _ => rfl,
    pack_getD (List.ne_nil_of_length_pos (by omega)) (by omega) _ fun _ => rfl, hpad _ (by omega), hpad _ (by omega),
    hpad _ (by omega), hpad _ (by omega)]

theorem normalizeKey_take_sixteen {pw : List Byte} (h : 16 ≤ pw.length) :
    normalizeKey (pw.take 16) = normalizeKey pw := by
  simp only [normalizeKey]
  rw [pack_take_getD h (by decide), pack_take_getD h (by decide), pack_take_getD h (by decide),
    pack_take_getD h (by decide)]

/-- What a host loads of a password fits in `B` and gives the password's key. -/
theorem passwordLoad_spec {p : Config.Params} {pw load : List Byte} (h : passwordLoad p pw = some load) :
    load.length ≤ p.bmax ∧ normalizeKey load = normalizeKey pw := by
  unfold passwordLoad at h
  split at h
  · next hle =>
    cases h
    exact ⟨hle, rfl⟩
  · split at h
    · next hgt h16 =>
      cases h
      exact ⟨(List.length_take_le ..).trans h16, normalizeKey_take_sixteen (by omega)⟩
    · cases h

/-- The key that `KEYNORM` makes of the loaded password. -/
theorem passwordKey_putBytes {s : State} {pw load : List Byte} (hs : s.Inv)
    (hload : passwordLoad s.block.params pw = some load) :
    (s.putBytes load).block.passwordKey = normalizeKey pw := by
  obtain ⟨hfit, hkey⟩ := passwordLoad_spec hload
  rw [← key_eq, putBytes_bytes hs hfit, hkey]

/-! ### The four scripts with a key the check accepts -/

section

variable {s : State} {p : Config.Params} {c : Cfg} {k : Key} {pw : List Byte} {script : List Stmt}
  (h : s.block.Session p c k) (hk : c.keychk = true → normalizeKey pw ≠ Key.zero)

include h hk

/-- The password's load and `KEYNORM` leave the password's key. -/
theorem exists_runsTo_password {load : List Byte} (hload : passwordLoad p pw = some load) :
    ∃ t, RunsTo ([.bytes load] ++ [.command .keynorm]) s t ∧ t.block.Session p c (normalizeKey pw) := by
  obtain ⟨hs, hr, rfl, rfl, -⟩ := h
  obtain ⟨hfit, -⟩ := passwordLoad_spec hload
  have hkey := passwordKey_putBytes hs hload
  have hinv := putBytes_inv hs hfit
  have hkeynorm := exec_keynorm (s := s.putBytes load) hr (hkey ▸ hk)
  exact ⟨_, (runsTo_bytes hs hfit).append (runsTo_command hkeynorm),
    { wf := (Block.wf_iff _).2 { hinv.parts with }, ready := hr, params := rfl, cfg := rfl, k := hkey }⟩

/-- `ENCRYPT.RAW` (45_api_sequences.md R201). -/
theorem exists_runsTo_encryptRaw {pt : List Byte} (hne : pt ≠ []) (hscript : encryptRaw p pt pw = some script) :
    ∃ t, RunsTo script s t ∧ t.block.Session p c (normalizeKey pw) ∧
      t.block.words = engine xxteaEncode (pack pt) (normalizeKey pw) c.roundsBase := by
  obtain ⟨hfit, load, hload, rfl⟩ := (encryptRaw_eq_some_iff hne).1 hscript
  obtain ⟨s1, hkey, h1⟩ := exists_runsTo_password h hk hload
  have hfit1 := h1.params.symm ▸ hfit
  obtain ⟨t, hcmds, ht, hwords⟩ := execAll_pack_xenc (h1.putBytes hfit)
  rw [putBytes_bytes h1.wf hfit1] at hwords
  exact ⟨_, runsTo_apiScript hkey (runsTo_bytes h1.wf hfit1) hcmds _, ht, hwords⟩

/-- `ENCRYPT.B64` (45_api_sequences.md R203). -/
theorem exists_runsTo_encryptB64 {pt : List Byte} (hne : pt ≠ []) (hscript : encryptB64 p pt pw = some script) :
    ∃ t, RunsTo script s t ∧ t.block.Session p c (normalizeKey pw) ∧
      t.block.text = b64Encode c.alph (ser (engine xxteaEncode (pack pt) (normalizeKey pw) c.roundsBase)) := by
  obtain ⟨hfit, load, hload, rfl⟩ := (encryptB64_eq_some_iff hne).1 hscript
  obtain ⟨s1, hkey, h1⟩ := exists_runsTo_password h hk hload
  have hfit1 := h1.params.symm ▸ hfit
  obtain ⟨t, hencrypt, ht, hwords⟩ := execAll_pack_xenc (h1.putBytes hfit)
  obtain ⟨u, hencode, hu, htext⟩ := execAll_ser_b64e ht
  rw [hwords, putBytes_bytes h1.wf hfit1] at htext
  have hcmds := (execAll_append hencrypt (js := [.ser, .b64e])).trans hencode
  exact ⟨_, runsTo_apiScript hkey (runsTo_bytes h1.wf hfit1) hcmds _, hu, htext⟩

/-- `DECRYPT.RAW` of the words that `v` was encrypted to (45_api_sequences.md R202). -/
theorem exists_runsTo_decryptRaw {ct v : List Word} (hne : ct ≠ []) (hscript : decryptRaw p ct pw = some script)
    (hct : ct = engine xxteaEncode v (normalizeKey pw) c.roundsBase) :
    ∃ t, RunsTo script s t ∧ t.block.Session p c (normalizeKey pw) ∧ t.block.bytes = unpack (padSingle v) := by
  obtain ⟨hfit, load, hload, rfl⟩ := (decryptRaw_eq_some_iff hne).1 hscript
  obtain ⟨s1, hkey, h1⟩ := exists_runsTo_password h hk hload
  have hfit1 := h1.params.symm ▸ hfit
  obtain ⟨t, hcmds, ht⟩ := execAll_xdec_unpack (h1.putWords hfit) ((putWords_words h1.wf hfit1).trans hct)
  exact ⟨_, runsTo_apiScript hkey (runsTo_words h1.wf hfit1) hcmds _, ht⟩

/-- `DECRYPT.B64` of the text of the words that `v` was encrypted to (45_api_sequences.md R204). -/
theorem exists_runsTo_decryptB64 {tx : List Byte} {ct v : List Word} (hne : tx ≠ [])
    (hscript : decryptB64 p tx pw = some script) (htx : tx = b64Encode c.alph (ser ct)) (hlen : ct.length ≤ p.nmax)
    (hct : ct = engine xxteaEncode v (normalizeKey pw) c.roundsBase) :
    ∃ t, RunsTo script s t ∧ t.block.Session p c (normalizeKey pw) ∧ t.block.bytes = unpack (padSingle v) := by
  obtain ⟨hfit, load, hload, rfl⟩ := (decryptB64_eq_some_iff hne).1 hscript
  obtain ⟨s1, hkey, h1⟩ := exists_runsTo_password h hk hload
  have hfit1 := h1.params.symm ▸ hfit
  obtain ⟨t, hdecode, ht, hwords⟩ :=
    execAll_b64d_deser (h1.putText hfit) hlen ((putText_text h1.wf hfit1).trans htx)
  obtain ⟨u, hdecrypt, hu⟩ := execAll_xdec_unpack ht (hwords.trans hct)
  have hcmds := (execAll_append hdecode (js := [.xdec, .unpack])).trans hdecrypt
  exact ⟨_, runsTo_apiScript hkey (runsTo_text h1.wf hfit1) hcmds _, hu⟩

end

/-- A ciphertext has at least two words, and as many as the packed plaintext from there on
(45_api_sequences.md R201). -/
theorem ciphertext_length (pt : List Byte) (k : Key) (base : BitVec 8) :
    (engine xxteaEncode (pack pt) k base).length = max 2 (pack pt).length := by
  rw [engine_length xxteaEncode_length, if_neg (mt List.length_eq_zero_iff.1 (pack_ne_nil pt))]

/-! ### The four scripts with a key the check rejects (45_api_sequences.md R209) -/

/-- A FAULTED block drops every command (60_exceptions.md R233). -/
theorem execAll_faulted {s : State} (hf : s.Faulted) (is : List Instr) : execAll is s = .next s := by
  induction is with
  | nil => rfl
  | cons i is ih => rw [execAll, exec_faulted hf]; exact ih

/-- The state after `KEYNORM` has rejected the loaded password; `runsTo_password_emptyKey` ties it to the command. -/
def State.emptyKey (s : State) (load : List Byte) : State :=
  { s with block := raiseFault .emptyKey (BitVec.ofNat 32 load.length) (encode .keynorm) (s.putBytes load).block }

section

variable {s : State} {pw load : List Byte} (hs : s.Inv) (hload : passwordLoad s.block.params pw = some load)

include hs hload

theorem emptyKey_inv : (s.emptyKey load).Inv := by
  obtain ⟨hfit, -⟩ := passwordLoad_spec hload
  exact (Block.wf_iff _).2 ((putBytes_inv hs hfit).parts.raiseFault _ _ _ rfl)

/-- The password's load stays (60_exceptions.md R229). -/
theorem emptyKey_bytes : (s.emptyKey load).block.bytes = load := by
  obtain ⟨hfit, -⟩ := passwordLoad_spec hload
  exact putBytes_bytes hs hfit

variable (hr : s.Ready) (hchk : s.block.cfg.keychk = true) (hz : normalizeKey pw = Key.zero)

include hr hchk hz

theorem runsTo_password_emptyKey : RunsTo ([.bytes load] ++ [.command .keynorm]) s (s.emptyKey load) := by
  obtain ⟨hfit, -⟩ := passwordLoad_spec hload
  have hkeynorm : exec .keynorm (s.putBytes load) = .next (s.emptyKey load) :=
    exec_keynorm_emptyKey hr hchk ((passwordKey_putBytes hs hload).trans hz)
  exact (runsTo_bytes hs hfit).append (runsTo_command hkeynorm)

/-- A script whose key is rejected ends as its loads leave the block: its commands are dropped, and the read of `STATUS`
returns 3. -/
theorem run_apiScript_emptyKey {data : Stmt} {t : State} (hdata : RunsTo [data] (s.emptyKey load) t)
    (hst : t.block.status = Status.faulted .emptyKey) (hp : t.pending = []) (cmds : List Instr) (r : Reg) :
    Host.Core.run core (scriptAccesses (apiScript load data cmds r)).length
        { s with pending := scriptAccesses (apiScript load data cmds r) } =
      .next { t with returned := readReg t.block r :: 3#32 :: t.returned } := by
  have hf : t.Faulted := congrArg Status.err hst
  have hword : t.block.status.word = 3#32 := hst ▸ rfl
  have hrun := (runsTo_apiScript (runsTo_password_emptyKey hs hload hr hchk hz) hdata (execAll_faulted hf cmds) r).run
  rwa [hword, ← hp] at hrun

end

/-! ### The obligations -/

/-- Settles O56: whatever stands in the middle gives the ciphertext words back, and the rest is the round trip of
the pure functions. -/
theorem roundTripExactlyWhenStated : Obligations.RoundTripExactlyWhenStated := by
  intro s hs hr hne middle hmiddle
  have h : s.block.Session s.block.params s.block.cfg s.block.k := ⟨hs, hr, rfl, rfl, rfl⟩
  obtain ⟨t, hpack, ht, hwords⟩ := execAll_pack_xenc h
  have hmid : ∃ t', execAll middle t = .next t' ∧ t'.block.Session s.block.params s.block.cfg s.block.k ∧
      t'.block.words = t.block.words := by
    simp only [List.mem_cons, List.not_mem_nil, or_false] at hmiddle
    obtain rfl | rfl := hmiddle
    · exact ⟨t, rfl, ht, rfl⟩
    · exact execAll_serialization ht
  obtain ⟨t', hrun, ht', hwords'⟩ := hmid
  obtain ⟨u, hunpack, hu, hbytes⟩ := execAll_xdec_unpack ht' (hwords'.trans hwords)
  refine ⟨u, ?run, hu.ready, ?bytes⟩
  case run => rw [List.append_assoc, execAll_append hpack, execAll_append hrun, hunpack]
  case bytes => rw [hbytes]; exact comesBackAs_unpack hne

/-- Settles O58: the text that the first script leaves encodes the ciphertext words, which the second script
decrypts. -/
theorem apiRoundTripOnTheBlock : Obligations.ApiRoundTripOnTheBlock := by
  intro s pt pw enc hs hr _ hne hk henc
  obtain ⟨hpt, load, hload, -⟩ := (encryptB64_eq_some_iff hne).1 henc
  obtain ⟨t, hrun, ht, htext⟩ := exists_runsTo_encryptB64 ⟨hs, hr, rfl, rfl, rfl⟩ hk hne henc
  have hlen := ciphertext_length pt (normalizeKey pw) s.block.cfg.roundsBase
  have hct : (engine xxteaEncode (pack pt) (normalizeKey pw) s.block.cfg.roundsBase).length ≤ s.block.params.nmax := by
    have hmin := hs.parts.nmax_ge
    rw [hlen, pack_length]
    rw [Config.Params.bmax] at hpt
    omega
  have htx : t.block.text ≠ [] := by
    rw [← List.length_pos_iff, htext, b64Encode_length, ser_length]
    omega
  have hdec := (decryptB64_eq_some_iff htx).2 ⟨ht.text_length_le, load, hload, rfl⟩
  obtain ⟨u, hrun', hu, hbytes⟩ := exists_runsTo_decryptB64 ht hk htx hdec htext hct rfl
  exact ⟨_, hrun.run, ht.ready, _, _, hdec, hrun'.run, hu.ready, hbytes ▸ comesBackAs_unpack hne⟩

/-- Settles O59: the second script decrypts the words that the first one leaves. -/
theorem apiRawRoundTripOnTheBlock : Obligations.ApiRawRoundTripOnTheBlock := by
  intro s pt pw enc hs hr _ hne hk henc
  obtain ⟨-, load, hload, -⟩ := (encryptRaw_eq_some_iff hne).1 henc
  obtain ⟨t, hrun, ht, hwords⟩ := exists_runsTo_encryptRaw ⟨hs, hr, rfl, rfl, rfl⟩ hk hne henc
  have hct : t.block.words ≠ [] := by
    rw [← List.length_pos_iff, hwords, ciphertext_length]
    omega
  have hdec := (decryptRaw_eq_some_iff hct).2 ⟨ht.words_length_le, load, hload, rfl⟩
  obtain ⟨u, hrun', hu, hbytes⟩ := exists_runsTo_decryptRaw ht hk hct hdec hwords
  exact ⟨_, hrun.run, ht.ready, _, _, hdec, hrun'.run, hu.ready, hbytes ▸ comesBackAs_unpack hne⟩

/-- Settles O60: the guards of the script functions, and the run of a script whose key is rejected. -/
theorem apiSequencesRefuseOrFault : Obligations.ApiSequencesRefuseOrFault := by
  refine ⟨fun p pw => ⟨fun x h => ⟨guarded_eq_none h, guarded_eq_none h⟩, fun w h => guarded_eq_none h,
    fun x h => guarded_eq_none h, rfl, rfl, rfl, rfl⟩, ?_⟩
  intro s pw load script hs hr hp hchk hz hload emptyKey
  have hinv := emptyKey_inv hs hload
  have hbytes := emptyKey_bytes hs hload
  refine ⟨fun pt hne hscript => ?encrypt, fun ct hne hscript => ?decryptRaw, fun tx hne hscript => ?decryptB64⟩
  case encrypt =>
    have hform : pt.length ≤ s.block.params.bmax ∧ ∃ cmds r, script = apiScript load (.bytes pt) cmds r := by
      rcases hscript with h | h
      · obtain ⟨hfit, load', hload', rfl⟩ := (encryptRaw_eq_some_iff hne).1 h
        cases hload.symm.trans hload'
        exact ⟨hfit, _, _, rfl⟩
      · obtain ⟨hfit, load', hload', rfl⟩ := (encryptB64_eq_some_iff hne).1 h
        cases hload.symm.trans hload'
        exact ⟨hfit, _, _, rfl⟩
    obtain ⟨hfit, cmds, r, rfl⟩ := hform
    exact ⟨_, run_apiScript_emptyKey hs hload hr hchk hz (runsTo_bytes hinv hfit) rfl hp cmds r, rfl,
      putBytes_bytes hinv hfit, rfl⟩
  case decryptRaw =>
    obtain ⟨hfit, load', hload', rfl⟩ := (decryptRaw_eq_some_iff hne).1 hscript
    cases hload.symm.trans hload'
    exact ⟨_, run_apiScript_emptyKey hs hload hr hchk hz (runsTo_words hinv hfit) rfl hp _ _, rfl, hbytes,
      putWords_words hinv hfit, rfl⟩
  case decryptB64 =>
    obtain ⟨hfit, load', hload', rfl⟩ := (decryptB64_eq_some_iff hne).1 hscript
    cases hload.symm.trans hload'
    exact ⟨_, run_apiScript_emptyKey hs hload hr hchk hz (runsTo_text hinv hfit) rfl hp _ _, rfl, hbytes,
      putText_text hinv hfit, rfl⟩

end Sys2Proof.Machine

/-! The family 60_exceptions.md: what a faulting command leaves and records, what `B64D` reports, the writes to `CMD`
and `STATUS`, and how a step changes the block's mode. -/

namespace Sys2Proof.Machine

/-! ### What a command can do to `STATUS` -/

/-- Of the command word `cmd`, on the block `b`: the block it leaves keeps `STATUS`, or is `b` with the fault that `cmd`
raised (60_exceptions.md R228, R229). -/
def KeepsStatusOrFaults (cmd : Word) (b c : Block) : Prop :=
  c.status = b.status ∨ ∃ cause info, c = raiseFault cause info cmd b

namespace KeepsStatusOrFaults

variable {cmd : Word} {b : Block}

theorem keep {c : Block} (h : c.status = b.status) : KeepsStatusOrFaults cmd b c := .inl h

theorem fault (cause : Cause) (info : Word) : KeepsStatusOrFaults cmd b (raiseFault cause info cmd b) :=
  .inr ⟨cause, info, rfl⟩

theorem storeWords (w : List Word) : KeepsStatusOrFaults cmd b (storeWords cmd w b) := by
  obtain ⟨-, h⟩ | ⟨-, h⟩ := storeWords_cases cmd w b <;> rw [h]
  · exact fault _ _
  · exact keep rfl

theorem storeBytes (x : List Byte) : KeepsStatusOrFaults cmd b (storeBytes cmd x b) := by
  obtain ⟨-, h⟩ | ⟨-, h⟩ := storeBytes_cases cmd x b <;> rw [h]
  · exact fault _ _
  · exact keep rfl

theorem storeText (x : List Byte) : KeepsStatusOrFaults cmd b (storeText cmd x b) := by
  obtain ⟨-, h⟩ | ⟨-, h⟩ := storeText_cases cmd x b <;> rw [h]
  · exact fault _ _
  · exact keep rfl

/-- Every command keeps `STATUS` or raises a fault under its own word, and then changes nothing else. -/
theorem of_effect (i : Instr) (b : Block) : KeepsStatusOrFaults (encode i) b (effect i b) := by
  cases i with
  | nop => exact keep rfl
  | clr => exact keep rfl
  | pack => exact storeWords _
  | unpack => exact storeBytes _
  | keynorm =>
    simp only [effect]
    split
    · exact fault _ _
    · exact keep rfl
  | ser => exact storeBytes _
  | deser =>
    simp only [effect]
    split
    · exact fault _ _
    · exact storeWords _
  | xenc => exact storeWords _
  | xdec => exact storeWords _
  | b64e => exact storeText _
  | b64d =>
    simp only [effect]
    split
    · exact fault _ _
    · split
      · exact fault _ _
      · exact storeBytes _

end KeepsStatusOrFaults

/-- A command that takes a READY state to a FAULTED one has raised a fault and done nothing else. -/
theorem exists_raiseFault_of_exec {i : Instr} {s t : State} (hr : s.Ready) (h : exec i s = .next t) (hf : t.Faulted) :
    ∃ cause info, t = { s with block := raiseFault cause info (encode i) s.block } := by
  rw [exec_ready hr] at h
  obtain rfl := Host.Outcome.next.inj h
  rcases KeepsStatusOrFaults.of_effect i s.block with hkeep | ⟨cause, info, hfault⟩
  · have herr : (effect i s.block).status.err = false := (congrArg Status.err hkeep).trans hr
    exact absurd (herr.symm.trans hf) Bool.false_ne_true
  · exact ⟨cause, info, by rw [hfault]⟩

/-! ### Which command raises which cause (60_exceptions.md R220) -/

theorem encode_injective {i j : Instr} (h : encode i = encode j) : i = j := by
  simpa using congrArg decode h

/-- Consistent fault registers after fault entry name a cause that its command word can raise. -/
theorem raisedBy_of_faultWf_raiseFault {c : Cause} {info cmd : Word} {b : Block}
    (h : (raiseFault c info cmd b).faultWf = true) : c.raisedBy cmd = true := by
  simpa [Block.faultWf] using h

/-- The causes a command can raise on a well-formed block; `IllegalCommand` is raised by no command (R226). -/
theorem raisedBy_encode {c : Cause} {i : Instr} (h : c.raisedBy (encode i) = true) :
    (i = .b64d ∧ (c = .invalidLength ∨ c = .invalidPadding ∨ c = .invalidCharacter)) ∨ (i = .b64d ∧ c = .capacity) ∨
      (i = .keynorm ∧ c = .emptyKey) ∨ (i = .deser ∧ c = .wordLength) := by
  cases c with
  | illegalCommand => simp [Cause.raisedBy] at h
  | invalidLength | invalidPadding | invalidCharacter => exact .inl ⟨encode_injective (beq_iff_eq.1 h), by simp⟩
  | capacity => exact .inr (.inl ⟨encode_injective (beq_iff_eq.1 h), rfl⟩)
  | emptyKey => exact .inr (.inr (.inl ⟨encode_injective (beq_iff_eq.1 h), rfl⟩))
  | wordLength => exact .inr (.inr (.inr ⟨encode_injective (beq_iff_eq.1 h), rfl⟩))

/-! ### What `B64D` reports (60_exceptions.md R221 to R223) -/

/-- `B64D` of a text that does not pass the check (43_base64_codec.md R178). -/
theorem exec_b64d_of_check {s : State} (hr : s.Ready) {c : Cause} {j : Nat}
    (hc : b64Check s.block.cfg.alph s.block.text = some (c, j)) :
    exec .b64d s = .next { s with block := raiseFault c (BitVec.ofNat 32 j) (encode .b64d) s.block } := by
  rw [exec_ready hr, effect, hc]

theorem b64Check_text_invalidLength {b : Block} (h4 : b.tlen.toNat % 4 ≠ 0) :
    b64Check b.cfg.alph b.text = some (.invalidLength, b.tlen.toNat) := by
  rw [b64Check, text_length, if_pos h4]

theorem b64Check_text_firstOffender {b : Block} {j : Nat} (h4 : b.tlen.toNat % 4 = 0) (hj : j < b.tlen.toNat)
    (hbefore : ∀ i < j, b.symbolLegal i) (hbad : ¬ b.symbolLegal j) :
    b64Check b.cfg.alph b.text =
      some (if b.t.read j = Config.b64Pad then .invalidPadding else .invalidCharacter, j) := by
  have hbefore' : ∀ i < j, legalAt b.cfg.alph b.text i := fun i hi =>
    (legalAt_text_iff b (hi.trans hj)).2 (hbefore i hi)
  have hbad' : ¬ legalAt b.cfg.alph b.text j := mt (legalAt_text_iff b hj).1 hbad
  rw [b64Check, text_length, if_neg (not_not_intro h4), b64Scan_first _ 0 (by rwa [text_length]) hbefore' hbad',
    text_getD b hj, Nat.zero_add]

/-! ### Writes to `CMD` and `STATUS` -/

theorem writeCmd_faulted {s : State} (hf : s.Faulted) (w : Word) : writeCmd s w = .next s := if_pos hf

/-- A word that is no command word raises `IllegalCommand` (60_exceptions.md R226). -/
theorem writeCmd_illegal {s : State} (hr : s.Ready) {w : Word} (hw : ∀ i, w ≠ encode i) :
    writeCmd s w = .next { s with block := raiseFault .illegalCommand 0 w s.block } := by
  have hready : ¬ s.block.status.err = true := Bool.eq_false_iff.1 hr
  rw [writeCmd, if_neg hready]
  cases hd : decode w with
  | ok i => exact absurd (eq_encode_of_decode hd) (hw i)
  | error e => rfl

theorem encode_mem_opcodeMap (i : Instr) : encode i ∈
    [0x00#32, 0x01#32, 0x10#32, 0x11#32, 0x12#32, 0x13#32, 0x14#32, 0x20#32, 0x21#32, 0x30#32, 0x31#32] := by
  cases i <;> decide

theorem getLsbD_zero_iff (x : Word) : x.getLsbD 0 = true ↔ x.toNat % 2 = 1 := by
  rw [BitVec.getLsbD, Nat.testBit_zero, decide_eq_true_iff]

/-- A write to `STATUS` with bit 0 set is the acknowledge (60_exceptions.md R234). -/
theorem writeReg_status_ack (b : Block) {x : Word} (h : x.toNat % 2 = 1) : writeReg b x .status = ackFault b :=
  if_pos ((getLsbD_zero_iff x).2 h)

theorem writeReg_status_ignored (b : Block) {x : Word} (h : x.toNat % 2 = 0) : writeReg b x .status = b :=
  if_neg (mt (getLsbD_zero_iff x).1 (by omega))

/-! ### Mode changes (60_exceptions.md R240) -/

/-- A host write of a register keeps `STATUS`, or is the acknowledge. -/
theorem writeReg_status_cases (b : Block) (x : Word) (r : Reg) :
    (writeReg b x r).status = b.status ∨
      (r = .status ∧ x.toNat % 2 = 1 ∧ (writeReg b x r).status = Status.ready) := by
  cases r with
  | status =>
    rcases Nat.mod_two_eq_zero_or_one x.toNat with h | h
    · exact .inl (by rw [writeReg_status_ignored b h])
    · exact .inr ⟨rfl, h, by rw [writeReg_status_ack b h, ackFault_status]⟩
  | _ => exact .inl rfl

/-- A host write of a location keeps `STATUS`, or is the acknowledge at the offset of `STATUS`. -/
theorem writeLoc_status_cases {b : Block} {off : Nat} {l : Loc} (hl : locate off = some l) (x : Word) :
    (writeLoc b x l).status = b.status ∨
      (off = 0x00C ∧ x.toNat % 2 = 1 ∧ (writeLoc b x l).status = Status.ready) := by
  obtain ⟨r, rfl, rfl⟩ | ⟨_, rfl, -⟩ | ⟨_, rfl, -⟩ | ⟨_, rfl, -⟩ := locate_some hl
  · obtain h | ⟨rfl, hx, h⟩ := writeReg_status_cases b x r
    · exact .inl h
    · exact .inr ⟨rfl, hx, h⟩
  all_goals
    left
    simp only [writeLoc]
    split <;> rfl

/-- Everything a step can do to `STATUS`: keep it, run a write to `CMD` on a READY block, or clear it by reset or by an
acknowledge. -/
theorem step_status_cases {s t : State} (h : step s = .next t) :
    t.block.status = s.block.status ∨
    (s.Ready ∧ ∃ w rest, s.pending = .write 0x008 4 w :: rest) ∨
    (t.block.status = Status.ready ∧ ∃ rest, s.pending = .reset :: rest ∨
      ∃ x : Word, x.toNat % 2 = 1 ∧ s.pending = .write 0x00C 4 x :: rest) := by
  obtain ⟨-, rfl⟩ | ⟨_, _, -, -, -, rfl⟩ | ⟨rest, hp, rfl⟩ | ⟨w, rest, hp, hw⟩ | ⟨off, x, rest, l, hp, hl, -, rfl⟩ |
    ⟨_, _, _, -, -, rfl⟩ := step_cases h
  case inr.inr.inl => exact .inr (.inr ⟨rfl, rest, .inl hp⟩)
  case inr.inr.inr.inl =>
    obtain ⟨-, rfl⟩ | ⟨hr, -⟩ | ⟨hr, -⟩ := writeCmd_cases hw
    · exact .inl rfl
    all_goals exact .inr (.inl ⟨hr, w, rest, hp⟩)
  case inr.inr.inr.inr.inl =>
    obtain hkeep | ⟨rfl, hx, hready⟩ := writeLoc_status_cases (b := s.block) hl x
    · exact .inl hkeep
    · exact .inr (.inr ⟨hready, rest, .inr ⟨x, hx, hp⟩⟩)
  all_goals exact .inl rfl

theorem not_ready_of_faulted {s : State} (hf : s.Faulted) : ¬ s.Ready := by simp [State.Ready, hf]

/-! ### The obligations -/

/-- Settles O22: the check finds the length first, then the first offending symbol, and `B64D` records what it finds. -/
theorem b64dReportsFirstOffender : Obligations.B64dReportsFirstOffender := by
  refine ⟨fun s hr h4 => ?length, fun s j hr h4 hj hbefore hbad => ?first⟩
  case length =>
    rw [exec_b64d_of_check hr (b64Check_text_invalidLength h4), BitVec.ofNat_toNat, BitVec.setWidth_eq]
    rfl
  case first =>
    rw [exec_b64d_of_check hr (b64Check_text_firstOffender h4 hj hbefore hbad)]
    by_cases hpad : s.block.t.read j = 0x3D#8
    · rw [if_pos (c := _ = Config.b64Pad) hpad, if_pos hpad]; rfl
    · rw [if_neg (c := _ = Config.b64Pad) hpad, if_neg hpad]; rfl

/-- Settles O30: a command that faults has raised a fault under its own word and done nothing else. -/
theorem faultsArePrecise : Obligations.FaultsArePrecise := by
  intro i s t hr h hf
  obtain ⟨cause, info, rfl⟩ := exists_raiseFault_of_exec hr h hf
  rfl

/-- Settles O31: the command keeps the fault registers consistent, so the cause it recorded is one that its word
can raise. -/
theorem onlyThreeCommandsFault : Obligations.OnlyThreeCommandsFault := by
  intro i s t hs hr h hf
  have hwf : t.block.WfParts := by
    obtain rfl := Host.Outcome.next.inj ((exec_ready hr i).symm.trans h)
    exact hs.parts.effect i
  obtain ⟨cause, info, rfl⟩ := exists_raiseFault_of_exec hr h hf
  obtain ⟨rfl, rfl | rfl | rfl⟩ | ⟨rfl, rfl⟩ | ⟨rfl, rfl⟩ | ⟨rfl, rfl⟩ :=
    raisedBy_encode (raisedBy_of_faultWf_raiseFault hwf.fault_wf) <;> simp [Cause.code, Cause.eclass]

/-- Settles O32: of the things a step can do to `STATUS`, only a write to `CMD` can set `ERR`, and only reset and the
acknowledge clear it. -/
theorem modeChangesOnlyAsStated : Obligations.ModeChangesOnlyAsStated := by
  intro s t h
  obtain hkeep | ⟨hr, hcmd⟩ | ⟨hclear, hcause⟩ := step_status_cases h
  · have herr : t.block.status.err = s.block.status.err := congrArg Status.err hkeep
    exact ⟨fun hr hf => absurd (herr.trans hr) (not_ready_of_faulted hf),
      fun hf hr => absurd hr (not_ready_of_faulted (herr.trans hf))⟩
  · exact ⟨fun _ _ => hcmd, fun hf => absurd hr (not_ready_of_faulted hf)⟩
  · have ht : t.Ready := congrArg Status.err hclear
    exact ⟨fun _ hf => absurd ht (not_ready_of_faulted hf), fun _ _ => hcause⟩

/-- Settles O27: the write to `CMD` is dropped before the word is decoded. -/
theorem faultedBlockDropsCommands : Obligations.FaultedBlockDropsCommands := by
  intro s w rest hf hp
  exact (step_cmd hp).trans (writeCmd_faulted (s := { s with pending := rest }) hf w)

/-- Settles O28: the eleven words are those of the commands, so the word decodes to none. -/
theorem illegalWordRaisesFault : Obligations.IllegalWordRaisesFault := by
  intro s w rest hr hp hw
  have hnone : ∀ i, w ≠ encode i := fun i h => hw (h ▸ encode_mem_opcodeMap i)
  exact (step_cmd hp).trans (writeCmd_illegal (s := { s with pending := rest }) hr hnone)

/-- Settles O29: bit 0 of the value decides between the acknowledge and no effect. -/
theorem ackClearsFaultRecord : Obligations.AckClearsFaultRecord := by
  intro s x rest hp
  have hstep := step_writeReg (r := .status) hp nofun
  refine ⟨fun hx => ?ack, fun hx => ?ignored⟩
  case ack => rw [hstep, writeReg_status_ack _ hx]; rfl
  case ignored => rw [hstep, writeReg_status_ignored _ hx]

/-- Settles O45: with nothing pending, `advance` answers the state itself. -/
theorem idleBlockKeepsState : Obligations.IdleBlockKeepsState := by
  intro s hp
  rw [step, advance, hp]

end Sys2Proof.Machine

/-! The family 70_reset_and_hazards.md: reset, the completion of every command, and the retry after an acknowledge. -/

namespace Sys2Proof.Machine

/-! ### What the acknowledge undoes -/

/-- The acknowledge clears all that fault entry records: what is left is the block acknowledged without the fault
(60_exceptions.md R228, R234). -/
@[simp] theorem ackFault_raiseFault (cause : Cause) (info cmd : Word) (b : Block) :
    ackFault (raiseFault cause info cmd b) = ackFault b := rfl

/-- On a well-formed READY block the acknowledge has nothing to clear. -/
theorem ackFault_eq_self {b : Block} (h : b.WfParts) (hr : b.status.err = false) : ackFault b = b := by
  cases b
  obtain ⟨rfl, rfl, rfl, rfl⟩ := Block.faultWf_ready h.fault_wf hr
  rfl

/-- After a command has faulted, the acknowledge restores the state in which it was issued (60_exceptions.md R229). -/
theorem ackFault_of_exec_faulted {i : Instr} {s t : State} (hs : s.Inv) (hr : s.Ready) (h : exec i s = .next t)
    (hf : t.Faulted) : { t with block := ackFault t.block } = s := by
  obtain ⟨cause, info, rfl⟩ := exists_raiseFault_of_exec hr h hf
  rw [ackFault_raiseFault, ackFault_eq_self hs.parts hr]

/-! ### The obligations -/

/-- Settles O33: the acknowledge restores the state of the first issue, so the second issue is the same command on the
same state. -/
theorem retryFaultsTheSameWay : Obligations.RetryFaultsTheSameWay := by
  intro i s t hs hr h hf
  rw [ackFault_of_exec_faulted hs hr h hf, h]

/-- Settles O44: the oldest pending event is reset, and its transition looks at neither mode nor data. -/
theorem resetFromAnyState : Obligations.ResetFromAnyState := by
  intro s rest hp
  rw [step_cons hp, runAccess]

/-- Settles O49: a READY block takes the command's effect, and a FAULTED one drops the command. -/
theorem everyCommandCompletes : Obligations.EveryCommandCompletes := by
  intro i s
  rcases ready_or_faulted s with hready | hfaulted
  · exact ⟨_, exec_ready hready i⟩
  · exact ⟨s, exec_faulted hfaulted i⟩

end Sys2Proof.Machine
